-- ==== Sys2Proof/Word.lean ====
section
/-! DEFINITION. The word types of the elfRadio SSTV core: bytes, 32-bit register words, 64-bit register pairs, the
bits of a binary64 number, and 16-bit samples (spec/00_scope.md R6, R8, R11). -/

namespace Sys2Proof

/-- One byte of a memory window. -/
abbrev Byte := BitVec 8

/-- One 32-bit register or command word (R6). -/
abbrev Word := BitVec 32

/-- A 64-bit register pair, `_HI` above `_LO` (R19). -/
abbrev DWord := BitVec 64

/-- The IEEE 754 binary64 encoding of a real-valued quantity (R8, R46): sign bit 63, biased exponent 62:52,
fraction 51:0. The arithmetic on it stands in Sys2Proof/Machine/Float.lean. -/
abbrev Binary64 := BitVec 64

/-- One sample, a 16-bit two's complement integer (R11). -/
abbrev Sample := BitVec 16

end Sys2Proof
end

