-- ==== Sys2Proof/Config.lean ====
section
/-! DEFINITION. What is fixed for the life of the core: the four modes, the parameters of spec/00_scope.md R4 and the
free values. A constant declared with the word opaque has no value any proof can see (a parameter the spec leaves
OPEN, or a draw). -/

namespace Sys2Proof

/-- The four SSTV modes (spec/00_scope.md R3). -/
inductive Mode where
  | a | b | c | d
deriving DecidableEq, Repr

/-- Rounding of the scaled dimension (R4 `FIT_DIM_ROUND`, R88). -/
inductive DimRound where
  | floor | round
deriving DecidableEq, Repr

/-- The number of a mode, 0 = A to 3 = D (R47). -/
def Config.modeNumber : Mode → Nat
  | .a => 0
  | .b => 1
  | .c => 2
  | .d => 3

/-- R4 `AMP`. -/
def Config.amp : Nat := 32767
/-- R4 `SR_MIN`. -/
def Config.srMin : Nat := 8000
/-- R4 `SR_MAX`. -/
def Config.srMax : Nat := 192000
/-- R4 `BITDEPTH_LEGAL`: the one legal bit depth. -/
def Config.bitDepthLegal : Nat := 16
/-- R4 `OVERSIZE_FACTOR`. -/
def Config.oversizeFactor : Nat := 16
/-- R4 `BUF_CAP`: the capacity of the sample buffer, in samples. -/
def Config.bufCap : Nat := 134217728
/-- R4 `FIT_DIM_ROUND`. -/
def Config.fitDimRound : DimRound := .floor

/-- R4 `MODE_W`: target widths. -/
def Config.modeW : Mode → Nat
  | .a => 320
  | .b => 320
  | .c => 640
  | .d => 320

/-- R4 `MODE_H`: target heights. -/
def Config.modeH : Mode → Nat
  | .a => 256
  | .b => 240
  | .c => 496
  | .d => 256

/-- R4 `VIS_STRING`: the seven characters, index 0 first, true for '1' (R85). -/
def Config.visString : Mode → List Bool
  | .a => [true, false, false, true, true, false, false]
  | .b => [false, false, false, true, false, false, false]
  | .c => [true, false, true, true, true, true, true]
  | .d => [false, true, false, true, true, false, false]

/-- R4 `MODE_NOMINAL_S`, in tenths of a second. No rule of the machine reads it. -/
def Config.modeNominalTenths : Mode → Nat
  | .a => 2696
  | .b => 360
  | .c => 1261
  | .d => 1143

/-- R4 `PREAMBLE`, in Hz. -/
def Config.preamble : List Nat := [1900, 1500, 2300, 1500, 1900, 1500, 2300, 1500]

/-- The bits of `PI`, the binary64 number nearest pi (R7, decision D4). -/
def Config.pi : Binary64 := 0x400921FB54442D18#64

/-- FREE (log 2). `SIN` before the requirements of R71 are imposed. -/
opaque Config.sinRaw : Binary64 → Binary64
/-- FREE (log 2). `COS` before the requirements of R71 are imposed. -/
opaque Config.cosRaw : Binary64 → Binary64
/-- FREE (log 2). `ASIN` before the requirements of R71 are imposed. -/
opaque Config.asinRaw : Binary64 → Binary64

/-- FREE (log 3). Byte `k` of the nw x nh image `RESAMPLE(src, sw, sh, nw, nh)`, row-major RGB, before the identity of
R89 is imposed. The arguments in order: the source bytes row-major, sw, sh, nw, nh, k. -/
opaque Config.resampleRaw : List Byte → Nat → Nat → Nat → Nat → Nat → Byte

/-- FREE (log 4). `SRC_MAX_PIXELS` before its bounds are imposed. -/
opaque Config.srcMaxPixelsRaw : Nat

/-- FREE (log 8). The byte that host event number `n` sees at an address whose contents R34 leaves unspecified. -/
opaque Config.draw : (n : Nat) → (addr : Nat) → Byte

/-- FREE (log 7). The sample of index `i` when the value to be quantised rounds to no integer of [-32767, 32767]. -/
opaque Config.unstatedSampleRaw : (i : Nat) → (v : Binary64) → Sample

end Sys2Proof
end

