-- ==== Sys2Proof/Machine/Float.lean ====
section
/-! DEFINITION. IEEE 754 binary64 arithmetic, round to nearest, ties to even (spec/00_scope.md R7, R8, decision D1), on
the encodings themselves. Every finite binary64 is a whole multiple of 2^-1074, so a finite number is read exactly as
a sign and a natural number of units 2^-1074 (its magnitude), the operation is done exactly on those, and the result
is rounded once. -/

namespace Sys2Proof.Machine

/-- The number of units 2^-1074 in 1.0. -/
@[irreducible] def f64One : Nat := 2 ^ 1074

/-- The magnitude that stands for infinity, 2^1024 in units 2^-1074. -/
@[irreducible] def f64Top : Nat := 2 ^ 2098

def f64Sign (x : Binary64) : Bool := decide (2 ^ 63 ≤ x.toNat)
def f64Exp (x : Binary64) : Nat := x.toNat / 2 ^ 52 % 2048
def f64Frac (x : Binary64) : Nat := x.toNat % 2 ^ 52

def f64IsNaN (x : Binary64) : Bool := f64Exp x == 2047 && f64Frac x != 0
def f64IsInf (x : Binary64) : Bool := f64Exp x == 2047 && f64Frac x == 0
def f64IsFinite (x : Binary64) : Bool := f64Exp x != 2047

/-- The magnitude in units 2^-1074: exact for a finite number, `f64Top` for an infinity. -/
@[irreducible] def f64Mag (x : Binary64) : Nat :=
  if f64Exp x = 0 then f64Frac x else (2 ^ 52 + f64Frac x) * 2 ^ (f64Exp x - 1)

/-- The signed magnitude: exact for a finite number. -/
@[irreducible] def f64Key (x : Binary64) : Int := if f64Sign x then -(f64Mag x : Int) else (f64Mag x : Int)

/-- The quiet NaN that arithmetic makes (PRESUMED, log 1: the spec gives no payload). -/
def f64NaN : Binary64 := 0x7FF8000000000000#64

/-- `floor(log2 n)` of an `n` below 2^(2^k), halving the exponent at each step. -/
def f64LogStep : (k : Nat) → Nat → Nat
  | 0, _ => 0
  | k + 1, n => bif Nat.ble (2 ^ 2 ^ k) n then 2 ^ k + f64LogStep k (n / 2 ^ 2 ^ k) else f64LogStep k n

/-- `floor(log2 n)`, in few steps for the sizes that occur (Sys2Proof/Laws/Float.lean: it is Nat.log2). -/
def f64Log (n : Nat) : Nat := bif Nat.ble (2 ^ 2 ^ 13) n then Nat.log2 n else f64LogStep 13 n

/-- The encoding of a sign and a magnitude that a binary64 can hold (`f64Top` and above: infinity). -/
@[irreducible] def f64Pack (neg : Bool) (mag : Nat) : Binary64 :=
  let body :=
    if f64Top ≤ mag then 2047 * 2 ^ 52
    else if mag < 2 ^ 52 then mag
    else (f64Log mag - 51) * 2 ^ 52 + (mag / 2 ^ (f64Log mag - 52) - 2 ^ 52)
  BitVec.ofNat 64 (if neg then 2 ^ 63 + body else body)

/-- `num / den` to the nearest natural number, ties to even. -/
def rneDiv (num den : Nat) : Nat :=
  let q := num / den
  let r := num % den
  if 2 * r < den then q else if den < 2 * r then q + 1 else q + q % 2

/-- The distance between neighbouring binary64 magnitudes at magnitude `q`. -/
def f64Ulp (q : Nat) : Nat := 2 ^ (f64Log q - 52)

/-- The magnitude `num / den` rounded to one a binary64 can hold. -/
@[irreducible] def f64RoundMag (num den : Nat) : Nat :=
  rneDiv num (den * f64Ulp (num / den)) * f64Ulp (num / den)

def f64Zero (neg : Bool) : Binary64 := f64Pack neg 0

/-- The sign bit flipped (adding 2^63 changes bit 63 and no other). -/
def f64Neg (x : Binary64) : Binary64 := x + 0x8000000000000000#64

/-- The sign bit cleared: `|x|`. -/
def f64Abs (x : Binary64) : Binary64 := BitVec.ofNat 64 (x.toNat % 2 ^ 63)

/-- `+f`. -/
@[irreducible] def f64Add (x y : Binary64) : Binary64 :=
  if f64IsNaN x || f64IsNaN y then f64NaN
  else if f64IsInf x then (if f64IsInf y && (f64Sign x != f64Sign y) then f64NaN else x)
  else if f64IsInf y then y
  else if f64Key x + f64Key y = 0 then f64Zero (f64Sign x && f64Sign y)
  else f64Pack (decide (f64Key x + f64Key y < 0)) (f64RoundMag (f64Key x + f64Key y).natAbs 1)

/-- `-f`. -/
def f64Sub (x y : Binary64) : Binary64 := f64Add x (f64Neg y)

/-- `*f`. -/
@[irreducible] def f64Mul (x y : Binary64) : Binary64 :=
  if f64IsNaN x || f64IsNaN y then f64NaN
  else if f64IsInf x || f64IsInf y then
    (if f64Mag x = 0 ∨ f64Mag y = 0 then f64NaN else f64Pack (f64Sign x != f64Sign y) f64Top)
  else f64Pack (f64Sign x != f64Sign y) (f64RoundMag (f64Mag x * f64Mag y) f64One)

/-- `/f`. -/
@[irreducible] def f64Div (x y : Binary64) : Binary64 :=
  if f64IsNaN x || f64IsNaN y then f64NaN
  else if f64IsInf x then (if f64IsInf y then f64NaN else f64Pack (f64Sign x != f64Sign y) f64Top)
  else if f64IsInf y then f64Zero (f64Sign x != f64Sign y)
  else if f64Mag y = 0 then
    (if f64Mag x = 0 then f64NaN else f64Pack (f64Sign x != f64Sign y) f64Top)
  else f64Pack (f64Sign x != f64Sign y) (f64RoundMag (f64Mag x * f64One) (f64Mag y))

/-- `x <= y`, false when either is a NaN. -/
def f64Le (x y : Binary64) : Bool :=
  !f64IsNaN x && !f64IsNaN y && decide (f64Key x ≤ f64Key y)

/-- `x < y`, false when either is a NaN. -/
def f64Lt (x y : Binary64) : Bool :=
  !f64IsNaN x && !f64IsNaN y && decide (f64Key x < f64Key y)

/-- `min(x, y)` of two numbers. -/
def f64Min (x y : Binary64) : Binary64 := if f64Le x y then x else y

/-- The binary64 nearest a natural number (exact below 2^53). -/
@[irreducible] def f64OfNat (n : Nat) : Binary64 := f64Pack false (f64RoundMag (n * f64One) 1)

/-- The binary64 nearest the decimal literal `num / den` (R9). -/
@[irreducible] def f64Lit (num den : Nat) : Binary64 := f64Pack false (f64RoundMag (num * f64One) den)

/-- `floor(x)` of a number that is not negative, as a count. An infinity and a NaN read as larger than any finite
number (DEDUCED, log 6); a negative number, which no command meets here, as 0. -/
@[irreducible] def f64FloorNat (x : Binary64) : Nat :=
  if !f64IsFinite x then 2 ^ 1024
  else if f64Sign x then 0
  else f64Mag x / f64One

/-- `round(x)` of a finite number: to the nearest integer, halves away from zero (R7, decision D3). -/
@[irreducible] def f64Round (x : Binary64) : Int :=
  let m := (2 * f64Mag x + f64One) / (2 * f64One)
  if f64Sign x then -(m : Int) else (m : Int)

end Sys2Proof.Machine
end

