-- ==== Sys2Proof/Machine/Functions.lean ====
section
/-! DEFINITION. The configuration functions of spec/00_scope.md R4: the free constants of Config.lean with exactly the
requirements the spec puts on them (spec/41_synthesizer.md R71, spec/43_image_fitter.md R89, spec/00_scope.md R4).
A constant that meets the requirements is left as it is, so every such function is allowed and no other. -/

namespace Sys2Proof.Machine

/-- 1.0. -/
def f64Unit : Binary64 := 0x3FF0000000000000#64

/-- The binary64 number nearest pi / 2, the largest that is not above it. -/
def f64HalfPi : Binary64 := 0x3FF921FB54442D18#64

/-- `v` lies in [-b, b]. -/
def f64Within (b v : Binary64) : Bool := f64Le (f64Neg b) v && f64Le v b

/-- `SIN` (R71): +0.0 at +0.0, in [-1, 1] at every finite number, otherwise free (log 2). -/
def sinFn (x : Binary64) : Binary64 :=
  if x = 0#64 then 0#64
  else if f64IsFinite x && !f64Within f64Unit (Config.sinRaw x) then 0#64
  else Config.sinRaw x

/-- `COS` (R71): 1.0 at +0.0, in [-1, 1] at every finite number, otherwise free (log 2). -/
def cosFn (x : Binary64) : Binary64 :=
  if x = 0#64 then f64Unit
  else if f64IsFinite x && !f64Within f64Unit (Config.cosRaw x) then 0#64
  else Config.cosRaw x

/-- `ASIN` (R71): +0.0 at +0.0, in [-pi/2, pi/2] on [-1, 1], otherwise free (log 2). -/
def asinFn (v : Binary64) : Binary64 :=
  if v = 0#64 then 0#64
  else if f64Within f64Unit v && !f64Within f64HalfPi (Config.asinRaw v) then 0#64
  else Config.asinRaw v

/-- `SRC_MAX_PIXELS` (R4): at most 5 592 405, and at least 1 (log 4). -/
def srcMaxPixels : Nat := max 1 (min Config.srcMaxPixelsRaw 5592405)

/-- Byte `k` of `RESAMPLE(src, sw, sh, nw, nh)`, row-major RGB: the source byte when the size is unchanged (R89),
otherwise free (log 3). -/
def resampleByte (src : List Byte) (sw sh nw nh k : Nat) : Byte :=
  if nw = sw ∧ nh = sh then src.getD k 0#8 else Config.resampleRaw src sw sh nw nh k

/-- The sample where R67 states none (log 7): free within the bound of R11, so never -32768. -/
def unstatedSample (i : Nat) (v : Binary64) : Sample :=
  if Config.unstatedSampleRaw i v = 0x8000#16 then 0#16 else Config.unstatedSampleRaw i v

end Sys2Proof.Machine
end

