-- ==== Sys2Proof/Syntax.lean ====
section
/-! DEFINITION. The commands (one constructor for each row of spec/opcode_table.json), the registers of the register
map (spec/10_state.md R19) and the events of the host side (spec/30_encoding.md R51, spec/70_reset_and_hazards.md R128). -/

namespace Sys2Proof

/-- The commands of spec/30_encoding.md R48. The operand `m` is the MODE field, a number 0 to 7 (R51); all others take
their operands from registers (R46). -/
inductive Instr where
  | nop
  | emit
  | emitPhi
  | synthClear
  | bufClear
  | vis (m : Nat)
  | fit (m : Nat)
  | scan (m : Nat)
  | endTones
  | run (m : Nat)
  | clear
deriving DecidableEq, Repr

/-- The named registers of R19. -/
inductive Reg where
  | cmd | status | errCode | errValue | errMin | errMax
  | sampleRate | bitDepth | srcW | srcH | hostTimeLo | hostTimeHi
  | opfLo | opfHi | opdLo | opdHi | oppLo | oppHi
  | synValueLo | synValueHi | synCosLo | synCosHi | synCarryLo | synCarryHi
  | bufLen | outSr | fitMode | fitSrcW | fitSrcH | fitTgtW | fitTgtH | fitScaledW | fitScaledH
  | fitLeft | fitTop | fitRight | fitBottom | fitScaleLo | fitScaleHi | fitTimeLo | fitTimeHi
deriving DecidableEq, Repr

/-- One event of the host side: a read or a write of `width` bytes at a byte address (R32), or the reset line (R128).
Of the data of a write the low `width` bytes are driven (log 14). -/
inductive HostEvent where
  | read (width : Nat) (addr : Word)
  | write (width : Nat) (addr : Word) (data : Word)
  | reset
deriving DecidableEq, Repr

end Sys2Proof
end

