-- ==== Sys2Proof/Machine/State.lean ====
section
/-! DEFINITION. The architectural state of spec/10_state.md R12, as plain data, the model's own fields (the host's
pending events, the value the last host read returned, the draw counter), the reasons a step can stop, and reset. -/

namespace Sys2Proof.Machine

/-- The bytes of a window that have been written, by address (log 8). A byte that is not listed has no value of its own:
reading it gives a free byte (spec/20_memory.md R34). -/
abbrev Memory := List Host.Cell

/-- Every address of the list is above `lo`, and the addresses rise strictly. -/
def Memory.rising : (lo : Nat) → Memory → Bool
  | _, [] => true
  | lo, (a, _) :: rest => decide (lo ≤ a) && Memory.rising (a + 1) rest

/-- The canonical form: addresses strictly rising. There is no byte an unlisted address reads as, so no entry can be
equal to it. -/
def Memory.wf (m : Memory) : Bool := Memory.rising 0 m

/-- The synthesizer state (R13). -/
structure Syn where
  value : Binary64
  cos : Binary64
  carry : Binary64
deriving DecidableEq, Repr

/-- The fit metadata (R21). -/
structure FitMeta where
  srcW : Word
  srcH : Word
  tgtW : Word
  tgtH : Word
  scaledW : Word
  scaledH : Word
  left : Word
  top : Word
  right : Word
  bottom : Word
  scale : Binary64
  time : DWord
deriving DecidableEq, Repr

/-- The error record (spec/60_exceptions.md R112). -/
structure ErrRecord where
  code : BitVec 8
  value : Word
  min : Word
  max : Word
deriving DecidableEq, Repr

/-- Everything the spec gives the core (R12), then the model's own fields. -/
structure State where
  sampleRate : Word
  bitDepth : Word
  srcW : Word
  srcH : Word
  hostTime : DWord
  opf : Binary64
  opd : Binary64
  opp : Binary64
  syn : Syn
  buf : List Sample
  outValid : Bool
  outSr : Word
  fitValid : Bool
  fitMode : Mode
  fit : FitMeta
  canvas : Memory
  warnOversize : Bool
  err : ErrRecord
  src : Memory
  /-- The model's own: the host events still to come, oldest first (log 9). -/
  script : List HostEvent
  /-- The model's own: the value the last host read returned (log 10). -/
  rdata : Word
  /-- The model's own: the number of the current host event, to which the free bytes are applied (log 8). -/
  draws : Nat
deriving DecidableEq, Repr

/-- What stops the machine because an address does not exist. -/
inductive Fault where
  /-- Raised by the host port for an access to an address outside the four windows of spec/20_memory.md R27 (R33 gives
  it no step). Safe: the model stops (log 11). -/
  | unmappedAddress
deriving DecidableEq, Repr

/-- Host accesses to which spec/20_memory.md R33 gives no step, and the host's own reason. -/
inductive Refusal where
  /-- Raised by `exec` for an instruction that has no meaning yet; no instruction is left without one. Safe. -/
  | notModelled (mnemonic : String)
  /-- Raised by the host port for a width the window does not take (R32, R33). Safe (log 11). -/
  | widthNotTaken
  /-- Raised by the host port for an address that is no multiple of the width (R32, R33). Safe (log 11). -/
  | misalignedAccess
deriving DecidableEq, Repr

/-- The synthesizer state after reset and every clear: +0.0, +1.0, +0.0 (R15). -/
def Syn.fresh : Syn := { value := 0#64, cos := 0x3FF0000000000000#64, carry := 0#64 }

/-- The fit metadata all zero (R21, R25). -/
def FitMeta.zero : FitMeta :=
  { srcW := 0#32, srcH := 0#32, tgtW := 0#32, tgtH := 0#32, scaledW := 0#32, scaledH := 0#32,
    left := 0#32, top := 0#32, right := 0#32, bottom := 0#32, scale := 0#64, time := 0#64 }

/-- The error record of a command that succeeded (R112). -/
def ErrRecord.ok : ErrRecord := { code := 0#8, value := 0#32, min := 0#32, max := 0#32 }

/-- The machine right after reset (R25, R128). -/
def State.reset : State :=
  { sampleRate := 0#32, bitDepth := 16#32, srcW := 0#32, srcH := 0#32, hostTime := 0#64,
    opf := 0#64, opd := 0#64, opp := 0#64, syn := Syn.fresh, buf := [],
    outValid := false, outSr := 0#32, fitValid := false, fitMode := .a, fit := FitMeta.zero,
    canvas := [], warnOversize := false, err := ErrRecord.ok, src := [],
    script := [], rdata := 0#32, draws := 0 }

end Sys2Proof.Machine
end

