-- ==== Sys2Proof/Machine/Ops.lean ====
section
/-! DEFINITION. The named operations over memory and state: reading and writing bytes of the windows
(spec/20_memory.md R27 to R31, R34), recording an error (spec/60_exceptions.md R119, the core's one exception
mechanism), and the state changes the commands share. -/

namespace Sys2Proof.Machine

/-- `SRC_BASE` (R27). -/
def srcBase : Nat := 0x01000000
/-- `CANVAS_BASE` (R27). -/
def canvasBase : Nat := 0x02000000
/-- `SAMPLE_BASE` (R27). -/
def sampleBase : Nat := 0x10000000
/-- The sizes of the windows (R27). -/
def regSize : Nat := 0x1000
def srcSize : Nat := 0x1000000
def canvasSize : Nat := 0x1000000
def sampleSize : Nat := 0x10000000

/-- The byte listed at an address, if any. -/
def memLookup : Memory → Nat → Option Byte
  | [], _ => none
  | (a, b) :: rest, k => if a = k then some b else memLookup rest k

/-- Store one byte, keeping the addresses rising. -/
def memStore : Memory → Nat → Byte → Memory
  | [], k, v => [(k, v)]
  | (a, b) :: rest, k, v =>
    if k < a then (k, v) :: (a, b) :: rest
    else if k = a then (k, v) :: rest
    else (a, b) :: memStore rest k v

/-- Store bytes at consecutive addresses, the first at the lowest. -/
def memStoreList (m : Memory) (k : Nat) : List Byte → Memory
  | [] => m
  | v :: vs => memStoreList (memStore m k v) (k + 1) vs

/-- Byte `i` of a word, byte 0 the least significant (R31). -/
def byteOf (d : Word) (i : Nat) : Byte := BitVec.ofNat 8 (d.toNat / 2 ^ (8 * i))

/-- The first `n` bytes of a word, the least significant first (R31). -/
def bytesOf (d : Word) (n : Nat) : List Byte := (List.range n).map (byteOf d)

/-- The number whose bytes are listed least significant first (R31). -/
def leValue : List Byte → Nat
  | [] => 0
  | b :: bs => b.toNat + 256 * leValue bs

/-- Byte `j` (0 low, 1 high) of a sample (R30). -/
def sampleByte (v : Sample) (j : Nat) : Byte := BitVec.ofNat 8 (v.toNat / 2 ^ (8 * j))

/-- A source-window byte: the byte stored, or a draw where none has been (R34). -/
def srcByte (s : State) (addr : Nat) : Byte := (memLookup s.src addr).getD (Config.draw s.draws addr)

/-- A canvas-window byte as the core reads it. -/
def canvasCell (s : State) (addr : Nat) : Byte := (memLookup s.canvas addr).getD (Config.draw s.draws addr)

/-- The size in bytes of the canvas of a mode (R29). -/
def canvasBytes (m : Mode) : Nat := 3 * (Config.modeW m * Config.modeH m)

/-- A canvas-window byte as the host reads it: a draw while no canvas is fitted or beyond the canvas (R34). -/
def canvasHostByte (s : State) (addr : Nat) : Byte :=
  if s.fitValid ∧ addr < canvasBase + canvasBytes s.fitMode then canvasCell s addr
  else Config.draw s.draws addr

/-- A sample-window byte: of sample `k` at bytes 2k and 2k + 1 (R30), a draw at and above BUF_LEN (R34). -/
def sampleHostByte (s : State) (addr : Nat) : Byte :=
  match s.buf[(addr - sampleBase) / 2]? with
  | some v => sampleByte v ((addr - sampleBase) % 2)
  | none => Config.draw s.draws addr

/-- The byte at an address of a memory window; elsewhere there is none, and this answers a draw that no host access
reaches. -/
def memByte (s : State) (addr : Nat) : Byte :=
  if srcBase ≤ addr ∧ addr < srcBase + srcSize then srcByte s addr
  else if canvasBase ≤ addr ∧ addr < canvasBase + canvasSize then canvasHostByte s addr
  else if sampleBase ≤ addr ∧ addr < sampleBase + sampleSize then sampleHostByte s addr
  else Config.draw s.draws addr

/-- `MemRead(addr, n)`, little-endian (R7, R31). -/
def memRead (s : State) (addr n : Nat) : Word :=
  BitVec.ofNat 32 (leValue ((List.range n).map fun i => memByte s (addr + i)))

/-- A write of the low `n` bytes of `d` to the source window (R31, R35). -/
def storeSource (s : State) (addr n : Nat) (d : Word) : State :=
  { s with src := memStoreList s.src addr (bytesOf d n) }

/-- `raise Err(code, value, min, max)` (R119): the error record is written and everything else stays. Every check is
made on the state as the command found it, so there is nothing to discard or restore. -/
def raiseErr (s : State) (e : ErrRecord) : State := { s with err := e }

/-- `err <- 0` (R112). -/
def clearErr (s : State) : State := { s with err := ErrRecord.ok }

/-- The error record of a code and its three context words (R113). -/
def mkErr (code value min max : Nat) : ErrRecord :=
  { code := BitVec.ofNat 8 code, value := BitVec.ofNat 32 value, min := BitVec.ofNat 32 min, max := BitVec.ofNat 32 max }

/-- `min(n, 2^32 - 1)` (R113, codes 5 and 8). -/
def saturate32 (n : Nat) : Nat := min n (2 ^ 32 - 1)

/-- The end of a standalone emitting command (R73): the pending samples are appended, the synthesizer state is that of
the last tone, OUT_VALID becomes 0. -/
def appendOutput (s : State) (out : Syn × List Sample) : State :=
  { s with err := ErrRecord.ok, syn := out.1, buf := s.buf ++ out.2, outValid := false }

/-- The end of a RUN (R108): the buffer is the pending samples, OUT_VALID becomes 1, OUT_SR the rate used. -/
def finishRun (s : State) (out : Syn × List Sample) : State :=
  { s with err := ErrRecord.ok, syn := out.1, buf := out.2, outValid := true, outSr := s.sampleRate }

/-- `syn <- (+0.0, +1.0, +0.0)` (R75). -/
def freshSyn (s : State) : State := { s with syn := Syn.fresh }

/-- `buf <- []; out_valid <- false` (R77). -/
def emptyBuf (s : State) : State := { s with buf := [], outValid := false }

/-- Every output cleared (R110); the canvas contents become unspecified. -/
def clearOutputs (s : State) : State :=
  { s with buf := [], syn := Syn.fresh, fitValid := false, fitMode := .a, fit := FitMeta.zero, canvas := [],
           warnOversize := false, outValid := false, outSr := 0#32 }

/-- The hardware reset (R128): every core field at its reset value; the model's own fields stay (log 13). -/
def hardReset (s : State) : State :=
  { State.reset with script := s.script, rdata := s.rdata, draws := s.draws }

/-- The first host event is taken from the script, under a new event number (log 8, log 9). -/
def takeEvent (s : State) (rest : List HostEvent) : State := { s with script := rest, draws := s.draws + 1 }

/-- The value a host read returns (log 10). -/
def returnRead (s : State) (v : Word) : State := { s with rdata := v }

end Sys2Proof.Machine
end

