-- ==== Sys2Proof/Machine/Operands.lean ====
section
/-! DEFINITION. The operand forms of the commands (the MODE field, the sample rate, the halves of the 64-bit registers)
and the check procedures of spec/60_exceptions.md R114 in the priority of R115. -/

namespace Sys2Proof.Machine

/-- The mode a MODE field names (spec/30_encoding.md R47); 4 to 7 name none. -/
def modeOf : Nat → Option Mode
  | 0 => some .a
  | 1 => some .b
  | 2 => some .c
  | 3 => some .d
  | _ => none

/-- Bits 31:0 of a register pair (R19). -/
def loHalf (x : DWord) : Word := x.extractLsb' 0 32
/-- Bits 63:32 of a register pair (R19). -/
def hiHalf (x : DWord) : Word := x.extractLsb' 32 32
/-- A register pair with new bits 31:0. -/
def withLo (x : DWord) (v : Word) : DWord := hiHalf x ++ v
/-- A register pair with new bits 63:32. -/
def withHi (x : DWord) (v : Word) : DWord := v ++ loHalf x

/-- `SR`: `reg[SAMPLE_RATE]` converted exactly to binary64 (spec/41_synthesizer.md R76). -/
def rateF (s : State) : Binary64 := f64OfNat s.sampleRate.toNat

/-- Code 1, ILLEGAL_CMD. -/
def errIllegal (w : Word) : ErrRecord := mkErr 1 w.toNat 0 0
/-- Code 2, INVALID_SAMPLE_RATE. -/
def errRate (r : Word) : ErrRecord := mkErr 2 r.toNat Config.srMin Config.srMax
/-- Code 3, INVALID_BIT_DEPTH. -/
def errDepth (b : Word) : ErrRecord := mkErr 3 b.toNat Config.bitDepthLegal Config.bitDepthLegal
/-- Code 4, UNSUPPORTED_MODE. -/
def errMode (m : Nat) : ErrRecord := mkErr 4 m 0 3
/-- Code 5, BAD_SOURCE. -/
def errSource (p : Nat) : ErrRecord := mkErr 5 (saturate32 p) 1 srcMaxPixels
/-- Code 6, NO_IMAGE. -/
def errNoImage (m : Mode) (fitted : Bool) (fm : Mode) : ErrRecord :=
  mkErr 6 (Config.modeNumber m) (if fitted then 1 else 0) (Config.modeNumber fm)
/-- Code 7, INVALID_OPERAND, of operand 1 OPF, 2 OPD, 3 OPP. -/
def errOperand (k : Nat) : ErrRecord := mkErr 7 k 0 0
/-- Code 8, BUFFER_OVERFLOW. -/
def errCap (n : Nat) : ErrRecord := mkErr 8 (saturate32 n) 0 Config.bufCap

/-- `CheckRate()`. -/
def checkRate (s : State) : Option ErrRecord :=
  if s.sampleRate.toNat < Config.srMin ∨ Config.srMax < s.sampleRate.toNat then some (errRate s.sampleRate) else none

/-- `CheckDepth()`. -/
def checkDepth (s : State) : Option ErrRecord :=
  if s.bitDepth.toNat = Config.bitDepthLegal then none else some (errDepth s.bitDepth)

/-- `SRC_W * SRC_H`, exact. -/
def srcPixels (s : State) : Nat := s.srcW.toNat * s.srcH.toNat

/-- `CheckSource()`. -/
def checkSource (s : State) : Option ErrRecord :=
  if srcPixels s < 1 ∨ srcMaxPixels < srcPixels s then some (errSource (srcPixels s)) else none

/-- `CheckFitted(m)`. -/
def checkFitted (m : Mode) (s : State) : Option ErrRecord :=
  if s.fitValid = true ∧ s.fitMode = m then none else some (errNoImage m s.fitValid s.fitMode)

/-- `CheckFreq(f)`. -/
def checkFreq (f : Binary64) : Option ErrRecord := if f64IsFinite f then none else some (errOperand 1)

/-- `CheckDur(d)`: -0.0 passes. -/
def checkDur (d : Binary64) : Option ErrRecord :=
  if f64IsFinite d && !f64Lt d 0#64 then none else some (errOperand 2)

/-- `CheckPhase(p)`. -/
def checkPhase (p : Binary64) : Option ErrRecord := if f64IsFinite p then none else some (errOperand 3)

/-- The first failing check; the rest are not evaluated (R115). -/
def firstErr : List (Option ErrRecord) → Option ErrRecord
  | [] => none
  | some e :: _ => some e
  | none :: rest => firstErr rest

/-- The checks of a command, then its effect (R115, R119). -/
def checked (checks : List (Option ErrRecord)) (s : State) (effect : State) : State :=
  match firstErr checks with
  | some e => raiseErr s e
  | none => effect

/-- `CheckMode(m)`, the first check of a command with a MODE operand, and the mode for the rest of it (R49, R114). -/
def withMode (m : Nat) (s : State) (effect : Mode → State) : State :=
  match modeOf m with
  | none => raiseErr s (errMode m)
  | some md => effect md

end Sys2Proof.Machine
end

