-- ==== Sys2Proof/Machine/Flags.lean ====
section
/-! DEFINITION. The status flags: the bits of STATUS (spec/10_state.md R18, R20), and the oversize condition that a fit
writes (spec/43_image_fitter.md R93). -/

namespace Sys2Proof.Machine

/-- BUSY (bit 0): a command is one step, so a host read finds it 0 (R20, log 12). -/
def flagBusy (_ : State) : Bool := false
/-- OUT_VALID (bit 1). -/
def flagOutValid (s : State) : Bool := s.outValid
/-- FIT_VALID (bit 2). -/
def flagFitValid (s : State) : Bool := s.fitValid
/-- ERR (bit 3): `err_code != 0`. -/
def flagErr (s : State) : Bool := s.err.code != 0#8
/-- WARN_OVERSIZE (bit 4). -/
def flagWarn (s : State) : Bool := s.warnOversize

/-- STATUS, bits 31:5 reading 0. -/
def statusWord (s : State) : Word :=
  BitVec.ofNat 32 ((flagBusy s).toNat + 2 * (flagOutValid s).toNat + 4 * (flagFitValid s).toNat
    + 8 * (flagErr s).toNat + 16 * (flagWarn s).toNat)

/-- The oversize test, exact and strict (R93). -/
def oversize (m : Mode) (sw sh : Nat) : Bool :=
  decide (Config.oversizeFactor * (Config.modeW m * Config.modeH m) < sw * sh)

end Sys2Proof.Machine
end

