-- ==== Sys2Proof/Machine/Fitter.lean ====
section
/-! DEFINITION. The image fitter (spec/43_image_fitter.md R86 to R93) and the command FIT (R95). -/

namespace Sys2Proof.Machine

/-- The dimension that does not limit, `n * t / d` rounded as `FIT_DIM_ROUND` says and at least 1 (R88). -/
def scaledOther (n t d : Nat) : Nat :=
  match Config.fitDimRound with
  | .floor => max 1 (n * t / d)
  | .round => max 1 ((2 * n * t + d) / (2 * d))

/-- `(nw, nh)`: the scaled dimensions (R88). -/
def scaledDims (tw th sw sh : Nat) : Nat × Nat :=
  if tw * sh ≤ th * sw then (tw, scaledOther sh tw sw) else (scaledOther sw th sh, th)

/-- The scale factor in binary64 (R87). -/
def scaleFactor (tw th sw sh : Nat) : Binary64 :=
  f64Min (f64Div (f64OfNat tw) (f64OfNat sw)) (f64Div (f64OfNat th) (f64OfNat sh))

/-- A centring offset (R90). -/
def centreOffset (t n : Nat) : Nat := (t - n) / 2

/-- The bytes of the source image, row-major RGB, as the command reads them (spec/20_memory.md R29). -/
def sourceImage (s : State) : List Byte := (List.range (3 * srcPixels s)).map (fun k => srcByte s (srcBase + k))

/-- `canvas(x, y, c)` (R91) from the bytes `img` of an `sw` x `sh` source: the resized pixel inside the pasted
rectangle, 0 outside it. -/
def fittedByte (img : List Byte) (sw sh : Nat) (m : Mode) (x y c : Nat) : Byte :=
  let nw := (scaledDims (Config.modeW m) (Config.modeH m) sw sh).1
  let nh := (scaledDims (Config.modeW m) (Config.modeH m) sw sh).2
  let ox := centreOffset (Config.modeW m) nw
  let oy := centreOffset (Config.modeH m) nh
  if ox ≤ x ∧ x < ox + nw ∧ oy ≤ y ∧ y < oy + nh then
    resampleByte img sw sh nw nh (3 * ((y - oy) * nw + (x - ox)) + c)
  else 0#8

/-- The whole canvas of mode `m`: byte `k` of the window belongs to pixel `k / 3`, channel `k % 3`
(spec/20_memory.md R29). -/
def canvasOf (img : List Byte) (sw sh : Nat) (m : Mode) : Memory :=
  (List.range' 0 (canvasBytes m)).map (fun k =>
    (canvasBase + k, fittedByte img sw sh m (k / 3 % Config.modeW m) (k / 3 / Config.modeW m) (k % 3)))

/-- The canvas that `Fit(m)` makes from the source window (R86). -/
def fittedCanvas (s : State) (m : Mode) : Memory := canvasOf (sourceImage s) s.srcW.toNat s.srcH.toNat m

/-- The metadata of the fit (R92). -/
def fitRecord (s : State) (m : Mode) : FitMeta :=
  let sw := s.srcW.toNat
  let sh := s.srcH.toNat
  let tw := Config.modeW m
  let th := Config.modeH m
  let nw := (scaledDims tw th sw sh).1
  let nh := (scaledDims tw th sw sh).2
  { srcW := s.srcW, srcH := s.srcH, tgtW := BitVec.ofNat 32 tw, tgtH := BitVec.ofNat 32 th,
    scaledW := BitVec.ofNat 32 nw, scaledH := BitVec.ofNat 32 nh,
    left := BitVec.ofNat 32 (centreOffset tw nw), top := BitVec.ofNat 32 (centreOffset th nh),
    right := BitVec.ofNat 32 (tw - centreOffset tw nw - nw), bottom := BitVec.ofNat 32 (th - centreOffset th nh - nh),
    scale := scaleFactor tw th sw sh, time := s.hostTime }

/-- `Fit(m)` (R86), with the error record cleared. -/
def applyFit (s : State) (m : Mode) : State :=
  { s with err := ErrRecord.ok, canvas := fittedCanvas s m, fit := fitRecord s m, fitMode := m, fitValid := true,
           warnOversize := oversize m s.srcW.toNat s.srcH.toNat }

/-- FIT (R95). -/
def execFit (m : Nat) (s : State) : Host.Outcome State Fault Refusal :=
  .next (withMode m s fun md => checked [checkSource s] s (applyFit s md))

end Sys2Proof.Machine
end

