-- ==== Sys2Proof/Machine/Colour.lean ====
section
/-! DEFINITION. The colour transform, the frequency map and the chroma average of spec/40_color_transform.md, and the
channel accessors of its R61. -/

namespace Sys2Proof.Machine

/-- A channel value converted exactly to binary64 (R54). -/
def f64OfByte (b : Byte) : Binary64 := f64OfNat b.toNat

/-- 0.003906 as a binary64 literal (spec/00_scope.md R9). -/
def colourGain : Binary64 := f64Lit 3906 1000000

/-- `Y(R, G, B)` (R54). -/
def lumaY (r g b : Binary64) : Binary64 :=
  f64Add (f64OfNat 16) (f64Mul colourGain
    (f64Add (f64Add (f64Mul (f64Lit 65738 1000) r) (f64Mul (f64Lit 129057 1000) g)) (f64Mul (f64Lit 25064 1000) b)))

/-- `RY(R, G, B)` (R55). -/
def chromaRY (r g b : Binary64) : Binary64 :=
  f64Add (f64OfNat 128) (f64Mul colourGain
    (f64Sub (f64Sub (f64Mul (f64Lit 112439 1000) r) (f64Mul (f64Lit 94154 1000) g)) (f64Mul (f64Lit 18285 1000) b)))

/-- `BY(R, G, B)` (R56). -/
def chromaBY (r g b : Binary64) : Binary64 :=
  f64Add (f64OfNat 128) (f64Mul colourGain
    (f64Add (f64Sub (f64Mul (f64Neg (f64Lit 37945 1000)) r) (f64Mul (f64Lit 74494 1000) g))
      (f64Mul (f64Lit 112439 1000) b)))

/-- `FreqMap(v)` (R58). -/
def freqMap (v : Binary64) : Binary64 := f64Add (f64OfNat 1500) (f64Mul v (f64Lit 31372549 10000000))

/-- `Avg(a, b)` (R59). -/
def chromaAvg (a b : Binary64) : Binary64 := f64Div (f64Add a b) (f64OfNat 2)

/-- `NextRow(r, H)` (R60). -/
def nextRow (r h : Nat) : Nat := if r + 1 < h then r + 1 else r

/-- `Canvas(x, y, c)` (spec/00_scope.md R7). -/
def canvasAt (s : State) (x y c : Nat) : Byte :=
  canvasCell s (canvasBase + 3 * (y * Config.modeW s.fitMode + x) + c)

/-- `Rc(x, y)` (R61). -/
def chanR (s : State) (x y : Nat) : Binary64 := f64OfByte (canvasAt s x y 0)
/-- `Gc(x, y)` (R61). -/
def chanG (s : State) (x y : Nat) : Binary64 := f64OfByte (canvasAt s x y 1)
/-- `Bc(x, y)` (R61). -/
def chanB (s : State) (x y : Nat) : Binary64 := f64OfByte (canvasAt s x y 2)
/-- `Yc(x, y)` (R61). -/
def chanY (s : State) (x y : Nat) : Binary64 := lumaY (chanR s x y) (chanG s x y) (chanB s x y)
/-- `RYc(x, y)` (R61). -/
def chanRY (s : State) (x y : Nat) : Binary64 := chromaRY (chanR s x y) (chanG s x y) (chanB s x y)
/-- `BYc(x, y)` (R61). -/
def chanBY (s : State) (x y : Nat) : Binary64 := chromaBY (chanR s x y) (chanG s x y) (chanB s x y)

end Sys2Proof.Machine
end

