-- ==== Sys2Proof/Machine/Emit.lean ====
section
/-! DEFINITION. The phase-continuous tone synthesizer: the tone procedure `Emit` of spec/41_synthesizer.md R62 to R69,
lists of tones in emission order, and the shared end of every standalone emitting command. -/

namespace Sys2Proof.Machine

/-- A tone request (spec/00_scope.md R7): frequency in Hz, duration in ms, an explicit start phase or none. -/
structure Tone where
  freq : Binary64
  dur : Binary64
  phi : Option Binary64
deriving DecidableEq, Repr

/-- `x = (SR *f d) /f 1000.0` (R63). -/
def toneLength (sr d : Binary64) : Binary64 := f64Div (f64Mul sr d) (f64OfNat 1000)

/-- The sample count `n` and the carry `c` of a tone (R63). -/
def toneCount (sr d carry : Binary64) : Nat × Binary64 :=
  let x := toneLength sr d
  let n := f64FloorNat x
  let c := f64Add carry (f64Sub x (f64OfNat n))
  if f64Le f64Unit c then (n + f64FloorNat c, f64Sub c (f64OfNat (f64FloorNat c))) else (n, c)

/-- The start phase recovered from the previous tone (R65). -/
def recoverPhase (syn : Syn) : Binary64 :=
  let sign := if f64Le 0#64 syn.cos then f64Unit else f64Neg f64Unit
  f64Add (f64Mul sign (asinFn syn.value))
    (f64Mul (f64Div (f64Abs (f64Sub sign f64Unit)) (f64OfNat 2)) Config.pi)

/-- The start phase of a tone: explicit, or recovered (R62). -/
def startPhase (syn : Syn) : Option Binary64 → Binary64
  | none => recoverPhase syn
  | some phi => phi

/-- The phase of sample index `i` (R66). -/
def phaseAt (sr f phi : Binary64) (i : Nat) : Binary64 :=
  f64Add (f64Div (f64Mul (f64Mul (f64Mul (f64OfNat 2) Config.pi) f) (f64OfNat i)) sr) phi

/-- `round(v)` as a stored sample (R67, R11). A value that rounds to no integer of [-32767, 32767], which R71 rules out
for a finite phase, gives a free sample within that range (log 7). -/
def quantise (i : Nat) (v : Binary64) : Sample :=
  if f64IsFinite v && decide (-(Config.amp : Int) ≤ f64Round v) && decide (f64Round v ≤ (Config.amp : Int)) then
    BitVec.ofInt 16 (f64Round v)
  else unstatedSample i v

/-- Sample `i` of a tone: `round(32767.0 *f SIN(ph_i))` (R67). -/
def toneSample (sr f phi : Binary64) (i : Nat) : Sample :=
  quantise i (f64Mul (f64OfNat Config.amp) (sinFn (phaseAt sr f phi i)))

/-- `Emit(f, d, phiOpt)` (R62): the new synthesizer state (R68) and the samples of the tone. -/
def emitTone (sr : Binary64) (syn : Syn) (t : Tone) : Syn × List Sample :=
  let n := (toneCount sr t.dur syn.carry).1
  let phi := startPhase syn t.phi
  ({ value := sinFn (phaseAt sr t.freq phi n),
     cos := cosFn (phaseAt sr t.freq phi n),
     carry := (toneCount sr t.dur syn.carry).2 },
   (List.range n).map (toneSample sr t.freq phi))

/-- The tones of a command in emission order, each updating the synthesizer once: the last state and the pending
samples (R62). -/
def emitTones (sr : Binary64) (syn : Syn) : List Tone → Syn × List Sample
  | [] => (syn, [])
  | t :: ts =>
    let first := emitTone sr syn t
    let rest := emitTones sr first.1 ts
    (rest.1, first.2 ++ rest.2)

/-- The number of pending samples of a list of tones, known before a sample is computed (spec/60_exceptions.md R114). -/
def countTones (sr carry : Binary64) : List Tone → Nat
  | [] => 0
  | t :: ts => (toneCount sr t.dur carry).1 + countTones sr (toneCount sr t.dur carry).2 ts

/-- `CheckCap`, then the end of a standalone emitting command (R73): code 8 when the buffer would not hold the samples,
otherwise they are appended. -/
def emitPending (s : State) (tones : List Tone) : State :=
  if Config.bufCap < s.buf.length + countTones (rateF s) s.syn.carry tones then
    raiseErr s (errCap (s.buf.length + countTones (rateF s) s.syn.carry tones))
  else appendOutput s (emitTones (rateF s) s.syn tones)

/-- A tone whose frequency and duration are decimal literals `fn / fd` Hz and `dn / dd` ms, phase recovered. -/
def toneLit (fn dn dd : Nat) : Tone := { freq := f64OfNat fn, dur := f64Lit dn dd, phi := none }

end Sys2Proof.Machine
end

