-- ==== Sys2Proof/Machine/Scan.lean ====
section
/-! DEFINITION. The four mode scan engines (spec/44_scan_engines.md R96 to R102) as the tone lists they emit, and the
command SCAN (R103). -/

namespace Sys2Proof.Machine

/-- `Px(r, v, d)` (R97): one tone per pixel of row `r`, x from 0 to W - 1, duration `dn / dd` ms. -/
def pixelTones (w r : Nat) (v : Nat → Nat → Binary64) (dn dd : Nat) : List Tone :=
  (List.range w).map (fun x => { freq := freqMap (v x r), dur := f64Lit dn dd, phi := none })

/-- `RYa` of R97: R-Y averaged with the next row. -/
def chanRYa (s : State) (h x r : Nat) : Binary64 := chromaAvg (chanRY s x r) (chanRY s x (nextRow r h))
/-- `BYa` of R97: B-Y averaged with the next row. -/
def chanBYa (s : State) (h x r : Nat) : Binary64 := chromaAvg (chanBY s x r) (chanBY s x (nextRow r h))

/-- One row of mode A, segments 0 to 6 (R98). -/
def rowA (s : State) (w r : Nat) : List Tone :=
  [toneLit 1500 15 10] ++ pixelTones w r (chanG s) 108 100
    ++ [toneLit 1500 15 10] ++ pixelTones w r (chanB s) 108 100
    ++ [toneLit 1200 9 1, toneLit 1500 15 10] ++ pixelTones w r (chanR s) 108 100

/-- The initial sync of mode A, the one tone with the explicit start phase 0 (R98). -/
def initialSync : Tone := { freq := f64OfNat 1200, dur := f64Lit 9 1, phi := some 0#64 }

/-- One row of mode B, segments 0 to 5, R-Y on even rows and B-Y on odd rows (R99). -/
def rowB (s : State) (w h r : Nat) : List Tone :=
  [toneLit 1200 9 1, toneLit 1500 3 1] ++ pixelTones w r (chanY s) 275 1000
    ++ (if r % 2 = 0 then
          [toneLit 1500 45 10, toneLit 1900 15 10] ++ pixelTones w r (chanRYa s h) 1375 10000
        else
          [toneLit 2300 45 10, toneLit 1900 15 10] ++ pixelTones w r (chanBYa s h) 1375 10000)

/-- One row pair of mode C, segments 0 to 5, the last only if row r + 1 exists (R100). -/
def pairC (s : State) (w h r : Nat) : List Tone :=
  [toneLit 1200 20 1, toneLit 1500 208 100] ++ pixelTones w r (chanY s) 19 100
    ++ pixelTones w r (chanRYa s h) 19 100 ++ pixelTones w r (chanBYa s h) 19 100
    ++ (if r + 1 < h then pixelTones w (r + 1) (chanY s) 19 100 else [])

/-- One row of mode D, segments 0 to 7 (R101). -/
def rowD (s : State) (w r : Nat) : List Tone :=
  [toneLit 1200 4862 1000, toneLit 1500 572 1000]
    ++ pixelTones w r (chanG s) 4576 10000 ++ [toneLit 1500 572 1000]
    ++ pixelTones w r (chanB s) 4576 10000 ++ [toneLit 1500 572 1000]
    ++ pixelTones w r (chanR s) 4576 10000 ++ [toneLit 1500 572 1000]

/-- The rows of a scan, from row 0 to the terminal state `r >= H`; mode C goes in steps of 2 (R96). -/
def scanRows (s : State) : Mode → List (List Tone)
  | .a => (List.range (Config.modeH .a)).map (rowA s (Config.modeW .a))
  | .b => (List.range (Config.modeH .b)).map (rowB s (Config.modeW .b) (Config.modeH .b))
  | .c => (List.range ((Config.modeH .c + 1) / 2)).map (fun p => pairC s (Config.modeW .c) (Config.modeH .c) (2 * p))
  | .d => (List.range (Config.modeH .d)).map (rowD s (Config.modeW .d))

/-- What precedes the first row: the initial sync in mode A, nothing in the others (R96). -/
def scanLead : Mode → List Tone
  | .a => [initialSync]
  | .b => []
  | .c => []
  | .d => []

/-- `ScanTones(m)` (R98 to R101). -/
def scanTones (s : State) (m : Mode) : List Tone := scanLead m ++ (scanRows s m).flatten

/-- SCAN (R103). -/
def execScan (m : Nat) (s : State) : Host.Outcome State Fault Refusal :=
  .next (withMode m s fun md =>
    checked [checkRate s, checkDepth s, checkFitted md s] s (emitPending s (scanTones s md)))

end Sys2Proof.Machine
end

