-- ==== Sys2Proof/Machine/Vis.lean ====
section
/-! DEFINITION. The VIS header encoder (spec/42_vis.md R78 to R82) and the command VIS (R84). -/

namespace Sys2Proof.Machine

/-- The tone of a data bit: 30 ms at 1100 Hz for '1', 1300 Hz for '0' (R80). -/
def visBitTone (one : Bool) : Tone := toneLit (if one then 1100 else 1300) 30 1

/-- The number of '1' characters of a VIS string (R81). -/
def visOnes (bits : List Bool) : Nat := bits.countP id

/-- The eight preamble tones and the four after them (R79). -/
def visPreamble : List Tone :=
  Config.preamble.map (fun f => toneLit f 100 1)
    ++ [toneLit 1900 300 1, toneLit 1200 10 1, toneLit 1900 300 1, toneLit 1200 30 1]

/-- `VisTones(m)` (R78): preamble, data bits from string index 6 down to 0 (R80), parity (R81), stop (R82). -/
def visTones (m : Mode) : List Tone :=
  visPreamble
    ++ (Config.visString m).reverse.map visBitTone
    ++ [toneLit (if visOnes (Config.visString m) % 2 = 0 then 1300 else 1100) 30 1]
    ++ [toneLit 1200 30 1]

/-- VIS (R84). -/
def execVis (m : Nat) (s : State) : Host.Outcome State Fault Refusal :=
  .next (withMode m s fun md => checked [checkRate s, checkDepth s] s (emitPending s (visTones md)))

end Sys2Proof.Machine
end

