-- ==== Sys2Proof/Machine/Orchestrator.lean ====
section
/-! DEFINITION. The orchestrator (spec/45_orchestrator.md): END_TONES (R105, R106), RUN (R107, R108) and CLEAR (R110). -/

namespace Sys2Proof.Machine

/-- `EndTones` (R105). -/
def endTones : List Tone :=
  [toneLit 1500 500 1, toneLit 1900 100 1, toneLit 1500 100 1, toneLit 1900 100 1, toneLit 1500 100 1]

/-- `Emit(0.0, 200.0, none)`, the silence at both ends of a run (R107). -/
def runSilence : Tone := toneLit 0 200 1

/-- The tones of `RunSequence(m)` over a state that holds the fitted canvas (R107). -/
def runTones (s : State) (m : Mode) : List Tone :=
  [runSilence] ++ visTones m ++ scanTones s m ++ endTones ++ [runSilence]

/-- The samples a run needs, counted from carry +0.0 (R107). -/
def runCount (s : State) (m : Mode) : Nat :=
  countTones (rateF s) Syn.fresh.carry (runTones (applyFit s m) m)

/-- `RunSequence(m)`, `CheckCap` and the end of RUN (R107, R108). On overflow the state is the one the command found,
but for the error record (R119). -/
def runSequence (s : State) (m : Mode) : State :=
  if Config.bufCap < runCount s m then raiseErr s (errCap (runCount s m))
  else finishRun (applyFit s m) (emitTones (rateF s) Syn.fresh (runTones (applyFit s m) m))

/-- END_TONES (R106). -/
def execEndTones (s : State) : Host.Outcome State Fault Refusal :=
  .next (checked [checkRate s, checkDepth s] s (emitPending s endTones))

/-- RUN (R108). -/
def execRun (m : Nat) (s : State) : Host.Outcome State Fault Refusal :=
  .next (withMode m s fun md => checked [checkRate s, checkDepth s, checkSource s] s (runSequence s md))

/-- CLEAR (R110). -/
def execClear (s : State) : Host.Outcome State Fault Refusal := .next (clearOutputs (clearErr s))

end Sys2Proof.Machine
end

