-- ==== Sys2Proof/Machine/Synth.lean ====
section
/-! DEFINITION. The meanings of the synthesizer family: NOP, EMIT, EMIT_PHI, SYNTH_CLEAR, BUF_CLEAR
(spec/41_synthesizer.md R72 to R77). -/

namespace Sys2Proof.Machine

/-- NOP (R72): the error record is cleared and nothing else changes. -/
def execNop (s : State) : Host.Outcome State Fault Refusal := .next (clearErr s)

/-- EMIT (R73). -/
def execEmit (s : State) : Host.Outcome State Fault Refusal :=
  .next (checked [checkRate s, checkDepth s, checkFreq s.opf, checkDur s.opd] s
    (emitPending s [{ freq := s.opf, dur := s.opd, phi := none }]))

/-- EMIT_PHI (R74). -/
def execEmitPhi (s : State) : Host.Outcome State Fault Refusal :=
  .next (checked [checkRate s, checkDepth s, checkFreq s.opf, checkDur s.opd, checkPhase s.opp] s
    (emitPending s [{ freq := s.opf, dur := s.opd, phi := some s.opp }]))

/-- SYNTH_CLEAR (R75). -/
def execSynthClear (s : State) : Host.Outcome State Fault Refusal := .next (freshSyn (clearErr s))

/-- BUF_CLEAR (R77). -/
def execBufClear (s : State) : Host.Outcome State Fault Refusal := .next (emptyBuf (clearErr s))

end Sys2Proof.Machine
end

