-- ==== Sys2Proof/Machine/Dispatch.lean ====
section
/-! DEFINITION. The one dispatch over the commands: an arm for each constructor of Instr. -/

namespace Sys2Proof.Machine

def exec (i : Instr) (s : State) : Host.Outcome State Fault Refusal :=
  match i with
  | .nop => Sys2Proof.Machine.execNop s
  | .emit => Sys2Proof.Machine.execEmit s
  | .emitPhi => Sys2Proof.Machine.execEmitPhi s
  | .synthClear => Sys2Proof.Machine.execSynthClear s
  | .bufClear => Sys2Proof.Machine.execBufClear s
  | .vis m => Sys2Proof.Machine.execVis m s
  | .fit m => Sys2Proof.Machine.execFit m s
  | .scan m => Sys2Proof.Machine.execScan m s
  | .endTones => Sys2Proof.Machine.execEndTones s
  | .run m => Sys2Proof.Machine.execRun m s
  | .clear => Sys2Proof.Machine.execClear s

end Sys2Proof.Machine
end

