-- ==== Sys2Proof/WellFormed.lean ====
section
/-! DEFINITION. Well-formed commands (the MODE operand fits its field, spec/30_encoding.md R45, R51) and well-formed host
accesses (the table of spec/20_memory.md R32 written as one list of rows). -/

namespace Sys2Proof

/-- A MODE operand is a number 0 to 7 (R45, R51). -/
def wfModeField (m : Nat) : Bool := decide (m < 8)

/-- A well-formed command has an encoding. -/
def Instr.wf : Instr → Bool
  | .nop => true
  | .emit => true
  | .emitPhi => true
  | .synthClear => true
  | .bufClear => true
  | .vis m => wfModeField m
  | .fit m => wfModeField m
  | .scan m => wfModeField m
  | .endTones => true
  | .run m => wfModeField m
  | .clear => true

/-- One row of the address map with its access widths (R27, R32). -/
structure WindowRow where
  base : Nat
  size : Nat
  widths : List Nat
deriving DecidableEq, Repr

/-- The rows of R27 and R32: registers, source, canvas, samples. -/
def windowRows : List WindowRow :=
  [ { base := 0x00000000, size := 0x1000, widths := [4] },
    { base := 0x01000000, size := 0x1000000, widths := [1, 2, 4] },
    { base := 0x02000000, size := 0x1000000, widths := [1, 2, 4] },
    { base := 0x10000000, size := 0x10000000, widths := [2, 4] } ]

/-- The address lies in the row's window. -/
def WindowRow.holds (r : WindowRow) (addr : Nat) : Bool := decide (r.base ≤ addr ∧ addr < r.base + r.size)

/-- Some window holds the address. -/
def wfMapped (addr : Word) : Bool := windowRows.any (·.holds addr.toNat)

/-- The window that holds the address takes the width. -/
def wfWidth (width : Nat) (addr : Word) : Bool :=
  windowRows.any (fun r => r.holds addr.toNat && r.widths.contains width)

/-- The address is a multiple of the width. -/
def wfAligned (width : Nat) (addr : Word) : Bool := addr.toNat % width == 0

/-- The accesses of the host interface (R32); a reset is always one. -/
def HostEvent.wf : HostEvent → Bool
  | .read w a => wfMapped a && wfWidth w a && wfAligned w a
  | .write w a _ => wfMapped a && wfWidth w a && wfAligned w a
  | .reset => true

end Sys2Proof
end

