-- ==== Sys2Proof/Decode.lean ====
section
/-! DEFINITION. The decoder of spec/30_encoding.md R49, total on all words, the opcode map of R48 as a list of rows, and
the encoder. -/

namespace Sys2Proof

/-- `w[7:0]` (R46). -/
def opField (w : Word) : Nat := w.toNat % 256
/-- `w[10:8]` (R46). -/
def modeField (w : Word) : Nat := w.toNat / 256 % 8
/-- `w[31:11]` (R45). -/
def rsvField (w : Word) : Nat := w.toNat / 2048

/-- The opcodes with a MODE operand (R49). -/
def decodeModed (op mode : Nat) : Option Instr :=
  match op with
  | 0x05 => some (.vis mode)
  | 0x06 => some (.fit mode)
  | 0x07 => some (.scan mode)
  | 0x09 => some (.run mode)
  | _ => none

/-- The opcodes whose MODE field must be 0 (R49). -/
def decodeBare (op : Nat) : Option Instr :=
  match op with
  | 0x00 => some .nop
  | 0x01 => some .emit
  | 0x02 => some .emitPhi
  | 0x03 => some .synthClear
  | 0x04 => some .bufClear
  | 0x08 => some .endTones
  | 0x0A => some .clear
  | _ => none

/-- `decode(w)` of R49; `none` is its `Illegal`. -/
def decode (w : Word) : Option Instr :=
  if rsvField w = 0 then
    match decodeModed (opField w) (modeField w) with
    | some i => some i
    | none => if modeField w = 0 then decodeBare (opField w) else none
  else none

/-- The word with an opcode in bits 7:0 and a mode in bits 10:8. -/
def wordOf (op mode : Nat) : Word := BitVec.ofNat 32 (op + 256 * mode)

/-- The words of R48. -/
def encode : Instr → Word
  | .nop => wordOf 0x00 0
  | .emit => wordOf 0x01 0
  | .emitPhi => wordOf 0x02 0
  | .synthClear => wordOf 0x03 0
  | .bufClear => wordOf 0x04 0
  | .vis m => wordOf 0x05 m
  | .fit m => wordOf 0x06 m
  | .scan m => wordOf 0x07 m
  | .endTones => wordOf 0x08 0
  | .run m => wordOf 0x09 m
  | .clear => wordOf 0x0A 0

/-- The match and mask columns of R48, in the order of the table. -/
def opcodeRows : List (Word × Word) :=
  [ (0x00000000#32, 0xFFFFFFFF#32),
    (0x00000001#32, 0xFFFFFFFF#32),
    (0x00000002#32, 0xFFFFFFFF#32),
    (0x00000003#32, 0xFFFFFFFF#32),
    (0x00000004#32, 0xFFFFFFFF#32),
    (0x00000005#32, 0xFFFFF8FF#32),
    (0x00000006#32, 0xFFFFF8FF#32),
    (0x00000007#32, 0xFFFFF8FF#32),
    (0x00000008#32, 0xFFFFFFFF#32),
    (0x00000009#32, 0xFFFFF8FF#32),
    (0x0000000A#32, 0xFFFFFFFF#32) ]

/-- The word belongs to the row (its masked bits are the row's). -/
def rowMatches (w : Word) (row : Word × Word) : Bool := (w &&& row.2) == row.1

/-- What the decoder reads from a row of spec/opcode_table.json whose bits are `w`: the low `nbits` bits are the 32-bit
command word; a command has no bits above bit 31 (R45). -/
def decodeTableWord (nbits w : Nat) : Option Instr :=
  if w % 2 ^ nbits < 2 ^ 32 then decode (BitVec.ofNat 32 (w % 2 ^ nbits)) else none

end Sys2Proof
end

