-- ==== Sys2Proof/Machine/Registers.lean ====
section
/-! DEFINITION. The register map of spec/10_state.md R19: the offset of every named register, what a read returns and
what a write does. -/

namespace Sys2Proof.Machine

/-- The rows of R19 at offsets 0x000 to 0x02C: byte offset and register. -/
def regTableControl : List (Nat × Reg) :=
  [(0x000, .cmd), (0x004, .status), (0x008, .errCode), (0x00C, .errValue), (0x010, .errMin), (0x014, .errMax),
   (0x018, .sampleRate), (0x01C, .bitDepth), (0x020, .srcW), (0x024, .srcH), (0x028, .hostTimeLo), (0x02C, .hostTimeHi)]

/-- The rows of R19 at offsets 0x030 to 0x064. -/
def regTableSynth : List (Nat × Reg) :=
  [(0x030, .opfLo), (0x034, .opfHi), (0x038, .opdLo), (0x03C, .opdHi), (0x040, .oppLo), (0x044, .oppHi),
   (0x048, .synValueLo), (0x04C, .synValueHi), (0x050, .synCosLo), (0x054, .synCosHi),
   (0x058, .synCarryLo), (0x05C, .synCarryHi), (0x060, .bufLen), (0x064, .outSr)]

/-- The rows of R19 at offsets 0x068 to 0x0A0. -/
def regTableFit : List (Nat × Reg) :=
  [(0x068, .fitMode), (0x06C, .fitSrcW), (0x070, .fitSrcH), (0x074, .fitTgtW), (0x078, .fitTgtH),
   (0x07C, .fitScaledW), (0x080, .fitScaledH), (0x084, .fitLeft), (0x088, .fitTop), (0x08C, .fitRight),
   (0x090, .fitBottom), (0x094, .fitScaleLo), (0x098, .fitScaleHi), (0x09C, .fitTimeLo), (0x0A0, .fitTimeHi)]

/-- The rows of R19. -/
def regTable : List (Nat × Reg) := regTableControl ++ regTableSynth ++ regTableFit

/-- The register at an offset; a reserved offset has none. -/
def regAt (off : Nat) : Option Reg := (regTable.find? (fun row => row.1 == off)).map (·.2)

/-- What a read of a register returns (R19, R20). CMD is write-only and returns 0. -/
def readReg (s : State) : Reg → Word
  | .cmd => 0#32
  | .status => statusWord s
  | .errCode => s.err.code.setWidth 32
  | .errValue => s.err.value
  | .errMin => s.err.min
  | .errMax => s.err.max
  | .sampleRate => s.sampleRate
  | .bitDepth => s.bitDepth
  | .srcW => s.srcW
  | .srcH => s.srcH
  | .hostTimeLo => loHalf s.hostTime
  | .hostTimeHi => hiHalf s.hostTime
  | .opfLo => loHalf s.opf
  | .opfHi => hiHalf s.opf
  | .opdLo => loHalf s.opd
  | .opdHi => hiHalf s.opd
  | .oppLo => loHalf s.opp
  | .oppHi => hiHalf s.opp
  | .synValueLo => loHalf s.syn.value
  | .synValueHi => hiHalf s.syn.value
  | .synCosLo => loHalf s.syn.cos
  | .synCosHi => hiHalf s.syn.cos
  | .synCarryLo => loHalf s.syn.carry
  | .synCarryHi => hiHalf s.syn.carry
  | .bufLen => BitVec.ofNat 32 s.buf.length
  | .outSr => s.outSr
  | .fitMode => BitVec.ofNat 32 (Config.modeNumber s.fitMode)
  | .fitSrcW => s.fit.srcW
  | .fitSrcH => s.fit.srcH
  | .fitTgtW => s.fit.tgtW
  | .fitTgtH => s.fit.tgtH
  | .fitScaledW => s.fit.scaledW
  | .fitScaledH => s.fit.scaledH
  | .fitLeft => s.fit.left
  | .fitTop => s.fit.top
  | .fitRight => s.fit.right
  | .fitBottom => s.fit.bottom
  | .fitScaleLo => loHalf s.fit.scale
  | .fitScaleHi => hiHalf s.fit.scale
  | .fitTimeLo => loHalf s.fit.time
  | .fitTimeHi => hiHalf s.fit.time

/-- What a write to a register other than CMD does: an RW register stores the value as it is, a write to any other
register is ignored (R19, spec/20_memory.md R35). A write to CMD issues a command and does not come here. -/
def writeReg (s : State) (r : Reg) (v : Word) : State :=
  match r with
  | .sampleRate => { s with sampleRate := v }
  | .bitDepth => { s with bitDepth := v }
  | .srcW => { s with srcW := v }
  | .srcH => { s with srcH := v }
  | .hostTimeLo => { s with hostTime := withLo s.hostTime v }
  | .hostTimeHi => { s with hostTime := withHi s.hostTime v }
  | .opfLo => { s with opf := withLo s.opf v }
  | .opfHi => { s with opf := withHi s.opf v }
  | .opdLo => { s with opd := withLo s.opd v }
  | .opdHi => { s with opd := withHi s.opd v }
  | .oppLo => { s with opp := withLo s.opp v }
  | .oppHi => { s with opp := withHi s.opp v }
  | .cmd | .status | .errCode | .errValue | .errMin | .errMax
  | .synValueLo | .synValueHi | .synCosLo | .synCosHi | .synCarryLo | .synCarryHi
  | .bufLen | .outSr | .fitMode | .fitSrcW | .fitSrcH | .fitTgtW | .fitTgtH | .fitScaledW | .fitScaledH
  | .fitLeft | .fitTop | .fitRight | .fitBottom | .fitScaleLo | .fitScaleHi | .fitTimeLo | .fitTimeHi => s

/-- A read at a register offset; a reserved offset reads 0 (R19). -/
def readRegAt (s : State) (off : Nat) : Word :=
  match regAt off with
  | some r => readReg s r
  | none => 0#32

/-- A write at a register offset other than CMD's; at a reserved offset it is ignored (R19). -/
def writeRegAt (s : State) (off : Nat) (v : Word) : State :=
  match regAt off with
  | some r => writeReg s r v
  | none => s

end Sys2Proof.Machine
end

