-- ==== Sys2Proof/Machine/HostPort.lean ====
section
/-! DEFINITION. The host port: what a host read, a host write or a reset does (spec/20_memory.md R32 to R36,
spec/70_reset_and_hazards.md R128). A write to CMD is handed on as a command word. -/

namespace Sys2Proof.Machine

/-- The four windows (R27). -/
inductive Window where
  | registers | source | canvas | samples
deriving DecidableEq, Repr

/-- What becomes of a host event. -/
inductive PortResult where
  /-- A write to CMD: the word issues a command. -/
  | command (w : Word)
  /-- The event is complete. -/
  | done (s : State)
  /-- The address does not exist. -/
  | stopFault (f : Fault)
  /-- The access is not in the table of R32. -/
  | stopRefused (r : Refusal)
deriving DecidableEq, Repr

/-- The window of an address (R27). -/
def windowOf (a : Nat) : Option Window :=
  if a < regSize then some .registers
  else if srcBase ≤ a ∧ a < srcBase + srcSize then some .source
  else if canvasBase ≤ a ∧ a < canvasBase + canvasSize then some .canvas
  else if sampleBase ≤ a ∧ a < sampleBase + sampleSize then some .samples
  else none

/-- The widths, in bytes, that a window takes (R32). -/
def windowWidths : Window → List Nat
  | .registers => [4]
  | .source => [1, 2, 4]
  | .canvas => [1, 2, 4]
  | .samples => [2, 4]

/-- The access checks (R32, R33; their order is log 11), then the access. -/
def portAccess (width : Nat) (addr : Nat) (act : Window → PortResult) : PortResult :=
  match windowOf addr with
  | none => .stopFault .unmappedAddress
  | some w =>
    if (windowWidths w).contains width then
      if addr % width = 0 then act w else .stopRefused .misalignedAccess
    else .stopRefused .widthNotTaken

/-- The value of a legal host read (R19, R31, R34). -/
def readValue (s : State) (width addr : Nat) : Window → Word
  | .registers => readRegAt s addr
  | .source => memRead s addr width
  | .canvas => memRead s addr width
  | .samples => memRead s addr width

/-- A legal host write (R35): CMD issues a command, the canvas and sample windows ignore it (R44). -/
def portWrite (s : State) (width addr : Nat) (data : Word) : Window → PortResult
  | .registers => if addr = 0 then .command data else .done (writeRegAt s addr data)
  | .source => .done (storeSource s addr width data)
  | .canvas => .done s
  | .samples => .done s

/-- One host event on a state from whose script it has been taken. -/
def hostPort (s : State) : HostEvent → PortResult
  | .read w a => portAccess w a.toNat (fun win => .done (returnRead s (readValue s w a.toNat win)))
  | .write w a d => portAccess w a.toNat (portWrite s w a.toNat d)
  | .reset => .done (hardReset s)

/-- A word that does not decode (spec/30_encoding.md R49, R50): code 1, nothing else changes. -/
def illegalCommand (w : Word) (s : State) : State := raiseErr s (errIllegal w)

end Sys2Proof.Machine
end

