-- ==== Sys2Proof/Machine/Step.lean ====
section
/-! DEFINITION. One step of the machine: the next host event, a write to CMD running its whole command
(spec/20_memory.md R37). -/

namespace Sys2Proof.Machine

/-- The command a word written to CMD issues (spec/30_encoding.md R49). -/
def issue (w : Word) (s : State) : Host.Outcome State Fault Refusal :=
  match decode w with
  | some i => exec i s
  | none => .next (illegalCommand w s)

/-- One step. With no event waiting the core holds its state (spec/60_exceptions.md R127, log 9). -/
def step (s : State) : Host.Outcome State Fault Refusal :=
  match s.script with
  | [] => .next s
  | e :: rest =>
    match hostPort (takeEvent s rest) e with
    | .command w => issue w (takeEvent s rest)
    | .done t => .next t
    | .stopFault f => .fault f
    | .stopRefused r => .refused r

/-- The state with the 32-bit write of a command word to CMD as its next host event (log 9). -/
def State.withFetchWord (s : State) (nbits w : Nat) : State :=
  { s with script := .write 4 0#32 (BitVec.ofNat 32 (w % 2 ^ nbits)) :: s.script }

end Sys2Proof.Machine
end

