-- ==== Sys2Proof/Safety.lean ====
section
/-! DEFINITION. What counts as a safe state and a safe run: the invariant of the core that every step keeps
(assembled from the rules named at each clause), and a run that meets no stop. -/

namespace Sys2Proof.Machine

/-- The laws of the fit metadata of a canvas of mode `m` (spec/43_image_fitter.md R94): the target is the mode's, the
scaled image fits it, and the margins sum. -/
def fitLawful (f : FitMeta) (m : Mode) : Prop :=
  f.tgtW.toNat = Config.modeW m ∧ f.tgtH.toNat = Config.modeH m ∧
  1 ≤ f.scaledW.toNat ∧ f.scaledW.toNat ≤ Config.modeW m ∧
  1 ≤ f.scaledH.toNat ∧ f.scaledH.toNat ≤ Config.modeH m ∧
  f.left.toNat + f.scaledW.toNat + f.right.toNat = Config.modeW m ∧
  f.top.toNat + f.scaledH.toNat + f.bottom.toNat = Config.modeH m

/-- A legal sample rate (spec/60_exceptions.md R114). -/
def rateLegal (r : Word) : Prop := Config.srMin ≤ r.toNat ∧ r.toNat ≤ Config.srMax

/-- The invariant of the core. -/
structure Inv (s : State) : Prop where
  /-- The source memory is canonical and lies in its window (spec/20_memory.md R27). -/
  srcWf : Memory.wf s.src = true
  srcRange : ∀ c ∈ s.src, srcBase ≤ c.1 ∧ c.1 < srcBase + srcSize
  /-- A fitted canvas holds exactly the bytes of its mode (spec/43_image_fitter.md R91). -/
  canvasWhole : s.fitValid = true → s.canvas.map Prod.fst = List.range' canvasBase (canvasBytes s.fitMode)
  /-- With FIT_VALID = 0 there is no canvas, no metadata and no warning (spec/10_state.md R20, R21). -/
  canvasNone : s.fitValid = false →
    s.canvas = [] ∧ s.fit = FitMeta.zero ∧ s.fitMode = .a ∧ s.warnOversize = false
  /-- The metadata obey the fit laws (spec/43_image_fitter.md R94). -/
  fitLaws : s.fitValid = true → fitLawful s.fit s.fitMode
  /-- The carry lies in [0, 1) (spec/10_state.md R13, spec/41_synthesizer.md R64). -/
  carryLow : f64Le 0#64 s.syn.carry = true
  carryHigh : f64Lt s.syn.carry f64Unit = true
  /-- The buffer keeps its capacity (spec/20_memory.md R28). -/
  bufCap : s.buf.length ≤ Config.bufCap
  /-- -32768 is never produced (spec/00_scope.md R11). -/
  bufSamples : ∀ v ∈ s.buf, v ≠ 0x8000#16
  /-- OUT_VALID says that the buffer is one run's: a canvas is fitted and OUT_SR is a legal rate
  (spec/10_state.md R20, spec/45_orchestrator.md R108). -/
  outValid : s.outValid = true → s.fitValid = true ∧ rateLegal s.outSr
  /-- Codes 9 to 255 are never produced (spec/60_exceptions.md R113). -/
  errCode : s.err.code.toNat ≤ 8
  /-- A record with code 0 is all zero (spec/60_exceptions.md R112). -/
  errOk : s.err.code = 0#8 → s.err = ErrRecord.ok

/-- The next host event, if any, is an access of the table of spec/20_memory.md R32. -/
def safeEvent (s : State) : Prop := ∀ e rest, s.script = e :: rest → e.wf = true

/-- A safe run of `n` steps: it meets no fault and no refusal. -/
def safeRun (n : Nat) (s : State) : Prop :=
  match n with
  | 0 => True
  | k + 1 => ∃ t, step s = .next t ∧ safeRun k t

end Sys2Proof.Machine
end

