-- ==== Sys2Proof/Certificates/Slice0/Obligations.lean ====
section
/-! DEFINITION. The statements for the provers, each a Prop about the model, with the rule of spec/ it rests on. -/

namespace Sys2Proof.Machine

/-! ### Words the statements use -/

/-- The conditions under which an emitting command gets as far as its tones: a rate of 8000 to 192000 and bit depth 16
(spec/60_exceptions.md R114). -/
def readyToEmit (s : State) : Prop :=
  8000 ≤ s.sampleRate.toNat ∧ s.sampleRate.toNat ≤ 192000 ∧ s.bitDepth = 16#32

/-- A source that passes CheckSource (spec/60_exceptions.md R114). -/
def sourceOk (s : State) : Prop :=
  1 ≤ s.srcW.toNat * s.srcH.toNat ∧ s.srcW.toNat * s.srcH.toNat ≤ srcMaxPixels

/-- A tone of integer frequency and duration with a recovered phase. -/
def plainTone (hz ms : Nat) : Tone := { freq := f64OfNat hz, dur := f64OfNat ms, phi := none }

/-- The 21 tones of the VIS header, Hz and ms, written out from spec/42_vis.md R79, R82 and the table of R85 (its VIS
strings are log 5). -/
def visTable (m : Mode) : List (Nat × Nat) :=
  [(1900, 100), (1500, 100), (2300, 100), (1500, 100), (1900, 100), (1500, 100), (2300, 100), (1500, 100)]
  ++ [(1900, 300), (1200, 10), (1900, 300), (1200, 30)]
  ++ (match m with
      | .a => [(1300, 30), (1300, 30), (1100, 30), (1100, 30), (1300, 30), (1300, 30), (1100, 30), (1100, 30)]
      | .b => [(1300, 30), (1300, 30), (1300, 30), (1100, 30), (1300, 30), (1300, 30), (1300, 30), (1100, 30)]
      | .c => [(1100, 30), (1100, 30), (1100, 30), (1100, 30), (1100, 30), (1300, 30), (1100, 30), (1300, 30)]
      | .d => [(1300, 30), (1300, 30), (1100, 30), (1100, 30), (1300, 30), (1100, 30), (1300, 30), (1100, 30)])
  ++ [(1200, 30)]

/-- The five end tones, Hz and ms (spec/45_orchestrator.md R105). -/
def endTable : List (Nat × Nat) := [(1500, 500), (1900, 100), (1500, 100), (1900, 100), (1500, 100)]

/-- The tones of a table of Hz and ms. -/
def tonesOf (rows : List (Nat × Nat)) : List Tone := rows.map (fun p => plainTone p.1 p.2)

/-- The commands one after the other, each on the state the one before left. -/
def runCommands : List Instr → State → Option State
  | [], s => some s
  | i :: is, s =>
    match exec i s with
    | .next t => runCommands is t
    | .fault _ => none
    | .refused _ => none

/-- `Emit(f, d, phiOpt)` as spec/41_synthesizer.md R62 writes it out: the synthesizer state it leaves and its samples. -/
def toneByRule (sr : Binary64) (syn : Syn) (t : Tone) : Syn × List Sample :=
  let x := f64Div (f64Mul sr t.dur) (f64OfNat 1000)
  let c0 := f64Add syn.carry (f64Sub x (f64OfNat (f64FloorNat x)))
  let n := if f64Le (f64OfNat 1) c0 then f64FloorNat x + f64FloorNat c0 else f64FloorNat x
  let c := if f64Le (f64OfNat 1) c0 then f64Sub c0 (f64OfNat (f64FloorNat c0)) else c0
  let sign := if f64Le (f64OfNat 0) syn.cos then f64OfNat 1 else f64Neg (f64OfNat 1)
  let recovered := f64Add (f64Mul sign (asinFn syn.value))
    (f64Mul (f64Div (f64Abs (f64Sub sign (f64OfNat 1))) (f64OfNat 2)) Config.pi)
  let ph := fun i => f64Add (f64Div (f64Mul (f64Mul (f64Mul (f64OfNat 2) Config.pi) t.freq) (f64OfNat i)) sr)
    (t.phi.getD recovered)
  ({ value := sinFn (ph n), cos := cosFn (ph n), carry := c },
   (List.range n).map (fun i => quantise i (f64Mul (f64OfNat 32767) (sinFn (ph i)))))

/-- The state with the outputs of a standalone emitting command over the tones `ts` (spec/41_synthesizer.md R73). -/
def afterTones (s : State) (ts : List Tone) : State :=
  { s with
    err := { code := 0#8, value := 0#32, min := 0#32, max := 0#32 },
    syn := (emitTones (f64OfNat s.sampleRate.toNat) s.syn ts).1,
    buf := s.buf ++ (emitTones (f64OfNat s.sampleRate.toNat) s.syn ts).2,
    outValid := false }

/-- The state with the record of a buffer that would have to hold `n` samples (spec/60_exceptions.md R113, code 8). -/
def overflowed (s : State) (n : Nat) : State :=
  { s with err := { code := 8#8, value := BitVec.ofNat 32 (min n 4294967295), min := 0#32, max := 134217728#32 } }

/-- Channel `c` of canvas pixel (x, y) of a canvas `w` pixels wide, as a binary64 (spec/00_scope.md R7). -/
def canvasF (s : State) (w x y c : Nat) : Binary64 :=
  f64OfNat (canvasCell s (0x02000000 + 3 * (y * w + x) + c)).toNat

/-- A pixel tone (spec/44_scan_engines.md R97). -/
def pixelTone (v : Binary64) (dn dd : Nat) : Tone := { freq := freqMap v, dur := f64Lit dn dd, phi := none }

/-- The Y, RY and BY of canvas pixel (x, y) (spec/40_color_transform.md R61). -/
def pixelY (s : State) (w x y : Nat) : Binary64 := lumaY (canvasF s w x y 0) (canvasF s w x y 1) (canvasF s w x y 2)
def pixelRY (s : State) (w x y : Nat) : Binary64 := chromaRY (canvasF s w x y 0) (canvasF s w x y 1) (canvasF s w x y 2)
def pixelBY (s : State) (w x y : Nat) : Binary64 := chromaBY (canvasF s w x y 0) (canvasF s w x y 1) (canvasF s w x y 2)

/-- Bits 31:0 and bits 63:32 of a binary64 or u64 register (spec/10_state.md R19). -/
def lowWord (v : BitVec 64) : Word := v.extractLsb' 0 32
def highWord (v : BitVec 64) : Word := v.extractLsb' 32 32

/-- What a read returns at each offset of the register map, written out from the table of spec/10_state.md R19: every row
but STATUS (whose bits are R20's) and the reserved ones. CMD is write-only and reads 0. -/
def registerRows (s : State) : List (Nat × Word) :=
  [(0x000, 0#32), (0x008, 0#24 ++ s.err.code), (0x00C, s.err.value), (0x010, s.err.min), (0x014, s.err.max)]
  ++ [(0x018, s.sampleRate), (0x01C, s.bitDepth), (0x020, s.srcW), (0x024, s.srcH),
      (0x028, lowWord s.hostTime), (0x02C, highWord s.hostTime), (0x030, lowWord s.opf), (0x034, highWord s.opf),
      (0x038, lowWord s.opd), (0x03C, highWord s.opd), (0x040, lowWord s.opp), (0x044, highWord s.opp)]
  ++ [(0x048, lowWord s.syn.value), (0x04C, highWord s.syn.value), (0x050, lowWord s.syn.cos),
      (0x054, highWord s.syn.cos), (0x058, lowWord s.syn.carry), (0x05C, highWord s.syn.carry),
      (0x060, BitVec.ofNat 32 s.buf.length), (0x064, s.outSr)]
  ++ [(0x068, match s.fitMode with | .a => 0#32 | .b => 1#32 | .c => 2#32 | .d => 3#32),
      (0x06C, s.fit.srcW), (0x070, s.fit.srcH), (0x074, s.fit.tgtW), (0x078, s.fit.tgtH),
      (0x07C, s.fit.scaledW), (0x080, s.fit.scaledH), (0x084, s.fit.left), (0x088, s.fit.top),
      (0x08C, s.fit.right), (0x090, s.fit.bottom), (0x094, lowWord s.fit.scale), (0x098, highWord s.fit.scale),
      (0x09C, lowWord s.fit.time), (0x0A0, highWord s.fit.time)]

end Sys2Proof.Machine

open Sys2Proof Sys2Proof.Machine

/-! ### Encoding -/

/-- Every well-formed command is read back from its word (spec/30_encoding.md R48, R49). -/
def Obligations.EncodeThenDecode : Prop :=
  ∀ i : Instr, i.wf = true → decode (encode i) = some i

/-- Every word has at most one meaning: a decoded command is well formed and encodes to the word it came from. -/
def Obligations.DecodeThenEncode : Prop :=
  ∀ (w : Word) (i : Instr), decode w = some i → i.wf = true ∧ encode i = w

/-- No word matches two rows of the opcode map R48, and a word decodes exactly when it matches one. -/
def Obligations.OpcodeRowsDecideDecoding : Prop :=
  ∀ w : Word, (opcodeRows.filter (rowMatches w)).length ≤ 1 ∧
    ((decode w).isSome = true ↔ ∃ row ∈ opcodeRows, rowMatches w row = true)

/-- The words of spec/30_encoding.md R53. -/
def Obligations.SpecWordsDecode : Prop :=
  decode 0x00000109#32 = some (.run 1) ∧ decode 0x00000206#32 = some (.fit 2) ∧
  decode 0x00000307#32 = some (.scan 3) ∧ decode 0x00000005#32 = some (.vis 0) ∧
  decode 0x00000509#32 = some (.run 5) ∧ decode 0x00000101#32 = none ∧
  ∀ s, issue 0x00000509#32 s = .next { s with err := { code := 4#8, value := 5#32, min := 0#32, max := 3#32 } }

/-- spec/30_encoding.md R50: the illegal words raise code 1 and change nothing else, every other word is a command,
and MODE 4 to 7 on VIS, FIT, SCAN and RUN raise code 4. -/
def Obligations.IllegalWordsRecordCodeOne : Prop :=
  ∀ (w : Word) (s : State),
    ((w.extractLsb' 11 21 ≠ 0#21 ∨ 0x0B ≤ (w.extractLsb' 0 8).toNat ∨
        ((w.extractLsb' 0 8).toNat ∈ [0x00, 0x01, 0x02, 0x03, 0x04, 0x08, 0x0A] ∧ w.extractLsb' 8 3 ≠ 0#3)) →
      issue w s = .next { s with err := { code := 1#8, value := w, min := 0#32, max := 0#32 } }) ∧
    (¬ (w.extractLsb' 11 21 ≠ 0#21 ∨ 0x0B ≤ (w.extractLsb' 0 8).toNat ∨
        ((w.extractLsb' 0 8).toNat ∈ [0x00, 0x01, 0x02, 0x03, 0x04, 0x08, 0x0A] ∧ w.extractLsb' 8 3 ≠ 0#3)) →
      ∃ i, decode w = some i ∧ issue w s = exec i s) ∧
    (w.extractLsb' 11 21 = 0#21 → (w.extractLsb' 0 8).toNat ∈ [0x05, 0x06, 0x07, 0x09] →
      4 ≤ (w.extractLsb' 8 3).toNat →
      issue w s = .next { s with err :=
        { code := 4#8, value := (w.extractLsb' 8 3).setWidth 32, min := 0#32, max := 3#32 } })

/-! ### The step and the host port -/

/-- A CMD write runs exactly the command its word decodes to, on the state from which the host event is taken and the
event number advanced (log 8, log 9); with no host event waiting the core holds its state (spec/60_exceptions.md R127;
the empty script is log 9). -/
def Obligations.StepRunsDecodedCommand : Prop :=
  (∀ (s : State) (rest : List HostEvent) (w : Word) (i : Instr),
    s.script = .write 4 0#32 w :: rest → decode w = some i →
      step s = exec i { s with script := rest, draws := s.draws + 1 }) ∧
  (∀ (s : State) (w : Word) (i : Instr), decode w = some i →
      step (s.withFetchWord 32 w.toNat) = exec i { s with draws := s.draws + 1 }) ∧
  (∀ s : State, s.script = [] → step s = .next s)

/-- spec/20_memory.md R32, R33: a step stops exactly on a host access outside the table. The fault of an unmapped
address and the two refusals are the model's names (log 11). -/
def Obligations.StepStopsExactlyOutsideTable : Prop :=
  ∀ (s : State) (e : HostEvent) (rest : List HostEvent), s.script = e :: rest →
    ((∃ t, step s = .next t) ↔ e.wf = true) ∧
    (∀ w a, (e = .read w a ∨ ∃ d, e = .write w a d) → wfMapped a = false → step s = .fault .unmappedAddress) ∧
    (∀ w a, (e = .read w a ∨ ∃ d, e = .write w a d) → wfMapped a = true → wfWidth w a = false →
      step s = .refused .widthNotTaken) ∧
    (∀ w a, (e = .read w a ∨ ∃ d, e = .write w a d) → wfMapped a = true → wfWidth w a = true →
      wfAligned w a = false → step s = .refused .misalignedAccess)

/-- No command ends in a fault or a refusal, in any state. -/
def Obligations.EveryCommandAnswersNext : Prop := ∀ (i : Instr) (s : State), ∃ t, exec i s = .next t

/-- spec/20_memory.md R32, R34, R35: reads change no state but the value returned to the host, writes to read-only and
reserved registers and to the canvas and sample windows are ignored, a source write only stores its bytes, and a byte of
the source window reads as the byte stored there, or as a draw where none is. The event list, its number and rdata are
the model's own (log 8, log 9, log 10); that a write stores the low bytes its width names is log 14, the form of a draw
log 8. -/
def Obligations.HostAccessSideEffects : Prop :=
  ∀ (s : State) (rest : List HostEvent),
    (∀ w a t, s.script = .read w a :: rest → step s = .next t →
      ∃ v, t = { s with script := rest, draws := s.draws + 1, rdata := v }) ∧
    (∀ a d, s.script = .write 4 a d :: rest → a.toNat < 0x1000 → a.toNat % 4 = 0 → a.toNat ≠ 0 →
      ¬ (0x18 ≤ a.toNat ∧ a.toNat ≤ 0x44) → step s = .next { s with script := rest, draws := s.draws + 1 }) ∧
    (∀ w a d, s.script = .write w a d :: rest → (HostEvent.write w a d).wf = true → 0x02000000 ≤ a.toNat →
      step s = .next { s with script := rest, draws := s.draws + 1 }) ∧
    (∀ w a d, s.script = .write w a d :: rest → (HostEvent.write w a d).wf = true → 0x01000000 ≤ a.toNat →
      a.toNat < 0x02000000 →
      ∃ m t, step s = .next t ∧ t = { s with script := rest, draws := s.draws + 1, src := m } ∧
        (∀ b, memLookup m b =
          if a.toNat ≤ b ∧ b < a.toNat + w then some (byteOf d (b - a.toNat)) else memLookup s.src b) ∧
        ∀ b, memByte t b =
          if a.toNat ≤ b ∧ b < a.toNat + w then d.extractLsb' (8 * (b - a.toNat)) 8
          else memByte { s with draws := s.draws + 1 } b) ∧
    (∀ b, 0x01000000 ≤ b → b < 0x02000000 →
      (∀ v, memLookup s.src b = some v → memByte s b = v) ∧
      (memLookup s.src b = none → memByte s b = Config.draw s.draws b))

/-- spec/10_state.md R19, the RW rows: a written value is stored as it is and read back, every other register keeps
what it read, and nothing but host registers changes (rdata is log 10). -/
def Obligations.HostRegistersStoreAndReadBack : Prop :=
  ∀ (s : State) (off v : Word),
    0x18 ≤ off.toNat → off.toNat ≤ 0x44 → off.toNat % 4 = 0 →
    s.script = [.write 4 off v, .read 4 off] →
    ∃ t u, step s = .next t ∧ step t = .next u ∧ u.rdata = v ∧
      (∀ k, k ≠ off.toNat → readRegAt t k = readRegAt s k) ∧
      t = { s with script := t.script, draws := t.draws, sampleRate := t.sampleRate, bitDepth := t.bitDepth,
                   srcW := t.srcW, srcH := t.srcH, hostTime := t.hostTime, opf := t.opf, opd := t.opd, opp := t.opp }

/-- The reset column of the register map: BIT_DEPTH reads 16, SYN_COS_HI 0x3FF00000, every other offset 0
(spec/10_state.md R19). -/
def Obligations.RegisterResetColumn : Prop :=
  readRegAt State.reset 0x01C = 16#32 ∧ readRegAt State.reset 0x054 = 0x3FF00000#32 ∧
  ∀ k, k < 0x1000 → k ≠ 0x01C → k ≠ 0x054 → readRegAt State.reset k = 0#32

/-- spec/20_memory.md R31: a wide read of the source, canvas or sample window composes bytes little-endian,
returned in rdata (log 10); an unwritten byte is that event's draw (log 8). -/
def Obligations.ReadsAreLittleEndian : Prop :=
  ∀ (s : State) (rest : List HostEvent) (a : Word), 0x01000000 ≤ a.toNat →
    ((HostEvent.read 1 a).wf = true → s.script = .read 1 a :: rest →
      ∃ t, step s = .next t ∧ t.rdata = 0#24 ++ memByte { s with draws := s.draws + 1 } a.toNat) ∧
    ((HostEvent.read 2 a).wf = true → s.script = .read 2 a :: rest →
      ∃ t, step s = .next t ∧ t.rdata = 0#16 ++ memByte { s with draws := s.draws + 1 } (a.toNat + 1)
        ++ memByte { s with draws := s.draws + 1 } a.toNat) ∧
    ((HostEvent.read 4 a).wf = true → s.script = .read 4 a :: rest →
      ∃ t, step s = .next t ∧ t.rdata = memByte { s with draws := s.draws + 1 } (a.toNat + 3)
        ++ memByte { s with draws := s.draws + 1 } (a.toNat + 2)
        ++ memByte { s with draws := s.draws + 1 } (a.toNat + 1)
        ++ memByte { s with draws := s.draws + 1 } a.toNat)

/-- spec/20_memory.md R30: sample k is the 16-bit value at SAMPLE_BASE + 2k, low byte first; a host read returns it
in rdata (log 10). -/
def Obligations.SampleWindowLayout : Prop :=
  ∀ (s : State) (k : Nat) (v : Sample), k < 134217728 → s.buf[k]? = some v →
    memByte s (0x10000000 + 2 * k) = v.extractLsb' 0 8 ∧ memByte s (0x10000000 + 2 * k + 1) = v.extractLsb' 8 8 ∧
    ∀ rest, s.script = .read 2 (BitVec.ofNat 32 (0x10000000 + 2 * k)) :: rest →
      ∃ t, step s = .next t ∧ t.rdata = v.setWidth 32

/-- spec/10_state.md R19, R20: what a host read of every register of the map returns, in any state (in rdata, log 10):
the bits of STATUS, every other named register, 0 at a reserved offset; and that it is what readRegAt says, which the
statements of other registers' values use. -/
def Obligations.StatusReadsTheFlags : Prop :=
  ∀ (s : State) (rest : List HostEvent),
    (s.script = .read 4 4#32 :: rest →
      ∃ t, step s = .next t ∧ t.rdata.getLsbD 0 = false ∧ t.rdata.getLsbD 1 = s.outValid ∧
        t.rdata.getLsbD 2 = s.fitValid ∧ (t.rdata.getLsbD 3 = true ↔ s.err.code ≠ 0#8) ∧
        t.rdata.getLsbD 4 = s.warnOversize ∧ ∀ k, 5 ≤ k → t.rdata.getLsbD k = false) ∧
    (∀ off v, (off, v) ∈ registerRows s → s.script = .read 4 (BitVec.ofNat 32 off) :: rest →
      step s = .next { s with script := rest, draws := s.draws + 1, rdata := v }) ∧
    (∀ off : Word, 0x0A4 ≤ off.toNat → off.toNat ≤ 0xFFC → off.toNat % 4 = 0 → s.script = .read 4 off :: rest →
      step s = .next { s with script := rest, draws := s.draws + 1, rdata := 0#32 }) ∧
    (∀ off : Word, off.toNat ≤ 0xFFC → off.toNat % 4 = 0 → s.script = .read 4 off :: rest →
      step s = .next { s with script := rest, draws := s.draws + 1, rdata := readRegAt s off.toNat })

/-- spec/70_reset_and_hazards.md R128: the reset line puts every piece of core state at its reset value in one step,
and every byte of the three memory windows then reads as a draw (the event is log 13, the form of a draw log 8). -/
def Obligations.HardwareResetValues : Prop :=
  ∀ (s : State) (rest : List HostEvent), s.script = .reset :: rest →
    ∃ t, step s = .next t ∧
      t.syn = { value := 0#64, cos := 0x3FF0000000000000#64, carry := 0#64 } ∧ recoverPhase t.syn = 0#64 ∧ t.buf = [] ∧
      statusWord t = 0#32 ∧ t.err = { code := 0#8, value := 0#32, min := 0#32, max := 0#32 } ∧
      t.sampleRate = 0#32 ∧ t.bitDepth = 16#32 ∧ t.srcW = 0#32 ∧ t.srcH = 0#32 ∧
      t.hostTime = 0#64 ∧ t.opf = 0#64 ∧ t.opd = 0#64 ∧ t.opp = 0#64 ∧
      t.outSr = 0#32 ∧ t.fitMode = .a ∧ t.fit = FitMeta.zero ∧
      ∀ a, 0x01000000 ≤ a → memByte t a = Config.draw t.draws a

/-! ### Errors -/

/-- spec/60_exceptions.md R118, R119: a command that raises leaves the core as it was apart from the error record, so
every later command does what it would have done without it. -/
def Obligations.FailingCommandLeavesAllElse : Prop :=
  ∀ (i : Instr) (s t : State), exec i s = .next t → t.err.code ≠ 0#8 →
    t = { s with err := t.err } ∧ ∀ j : Instr, exec j t = exec j s

/-- spec/60_exceptions.md R112, R113: every command rewrites the record; one that succeeds leaves all four registers
0, and codes 9 to 255 are never produced. -/
def Obligations.EveryCommandRewritesErrorRecord : Prop :=
  ∀ (i : Instr) (s t : State), exec i s = .next t →
    t.err.code.toNat ≤ 8 ∧
    (t.err.code = 0#8 → t.err = { code := 0#8, value := 0#32, min := 0#32, max := 0#32 }) ∧
    (∀ e, exec i { s with err := e } = .next t)

/-- spec/60_exceptions.md R115: the mode is checked before anything else, whatever the registers hold. -/
def Obligations.UnsupportedModeComesFirst : Prop :=
  ∀ (m : Nat) (s : State), 4 ≤ m → m < 8 →
    exec (.vis m) s = .next { s with err := { code := 4#8, value := BitVec.ofNat 32 m, min := 0#32, max := 3#32 } } ∧
    exec (.fit m) s = .next { s with err := { code := 4#8, value := BitVec.ofNat 32 m, min := 0#32, max := 3#32 } } ∧
    exec (.scan m) s = .next { s with err := { code := 4#8, value := BitVec.ofNat 32 m, min := 0#32, max := 3#32 } } ∧
    exec (.run m) s = .next { s with err := { code := 4#8, value := BitVec.ofNat 32 m, min := 0#32, max := 3#32 } }

/-- CheckRate and CheckDepth of every emitting command, in that order (spec/60_exceptions.md R114, R115). -/
def Obligations.RateAndDepthRejected : Prop :=
  ∀ (s : State) (m : Nat) (i : Instr), m < 4 →
    i ∈ [Instr.emit, Instr.emitPhi, Instr.vis m, Instr.scan m, Instr.endTones, Instr.run m] →
    ((s.sampleRate.toNat < 8000 ∨ 192000 < s.sampleRate.toNat) →
      exec i s = .next { s with err := { code := 2#8, value := s.sampleRate, min := 8000#32, max := 192000#32 } }) ∧
    (8000 ≤ s.sampleRate.toNat → s.sampleRate.toNat ≤ 192000 → s.bitDepth ≠ 16#32 →
      exec i s = .next { s with err := { code := 3#8, value := s.bitDepth, min := 16#32, max := 16#32 } })

/-- CheckSource of FIT and RUN, CheckFitted of SCAN (spec/60_exceptions.md R113, R114). -/
def Obligations.SourceAndCanvasRejected : Prop :=
  ∀ (s : State) (md : Mode),
    ((s.srcW.toNat * s.srcH.toNat < 1 ∨ srcMaxPixels < s.srcW.toNat * s.srcH.toNat) →
      exec (.fit (Config.modeNumber md)) s = .next { s with err :=
        { code := 5#8, value := BitVec.ofNat 32 (min (s.srcW.toNat * s.srcH.toNat) 4294967295), min := 1#32,
          max := BitVec.ofNat 32 srcMaxPixels } } ∧
      (readyToEmit s → exec (.run (Config.modeNumber md)) s = .next { s with err :=
        { code := 5#8, value := BitVec.ofNat 32 (min (s.srcW.toNat * s.srcH.toNat) 4294967295), min := 1#32,
          max := BitVec.ofNat 32 srcMaxPixels } })) ∧
    (readyToEmit s → (s.fitValid = false ∨ s.fitMode ≠ md) →
      exec (.scan (Config.modeNumber md)) s = .next { s with err :=
        { code := 6#8, value := BitVec.ofNat 32 (Config.modeNumber md), min := if s.fitValid then 1#32 else 0#32,
          max := BitVec.ofNat 32 (Config.modeNumber s.fitMode) } })

/-- CheckFreq, CheckDur, CheckPhase of EMIT and EMIT_PHI, and CheckCap of every standalone emitting command, in that
order (spec/60_exceptions.md R114). That a tone whose length overflows binary64 counts 2^1024 samples is log 6. -/
def Obligations.OperandsAndCapacityRejected : Prop :=
  ∀ s : State, readyToEmit s →
    (f64IsFinite s.opf = false → ∀ i ∈ [Instr.emit, Instr.emitPhi],
      exec i s = .next { s with err := { code := 7#8, value := 1#32, min := 0#32, max := 0#32 } }) ∧
    (f64IsFinite s.opf = true → (f64IsFinite s.opd = false ∨ f64Lt s.opd 0#64 = true) →
      ∀ i ∈ [Instr.emit, Instr.emitPhi],
      exec i s = .next { s with err := { code := 7#8, value := 2#32, min := 0#32, max := 0#32 } }) ∧
    (f64IsFinite s.opf = true → f64IsFinite s.opd = true → f64Lt s.opd 0#64 = false → f64IsFinite s.opp = false →
      exec .emitPhi s = .next { s with err := { code := 7#8, value := 3#32, min := 0#32, max := 0#32 } }) ∧
    (f64IsFinite s.opf = true → f64IsFinite s.opd = true → f64Lt s.opd 0#64 = false →
      134217728 < s.buf.length + (toneCount (f64OfNat s.sampleRate.toNat) s.opd s.syn.carry).1 →
      ∀ i, (i = Instr.emit ∨ (i = Instr.emitPhi ∧ f64IsFinite s.opp = true)) →
      exec i s = .next (overflowed s
        (s.buf.length + (toneCount (f64OfNat s.sampleRate.toNat) s.opd s.syn.carry).1))) ∧
    (∀ (i : Instr) (ts : List Tone),
      ((∃ md, i = .vis (Config.modeNumber md) ∧ ts = tonesOf (visTable md)) ∨
        (i = .endTones ∧ ts = tonesOf endTable) ∨
        (s.fitValid = true ∧ i = .scan (Config.modeNumber s.fitMode) ∧ ts = scanTones s s.fitMode)) →
      134217728 < s.buf.length + (emitTones (f64OfNat s.sampleRate.toNat) s.syn ts).2.length →
      exec i s = .next (overflowed s
        (s.buf.length + (emitTones (f64OfNat s.sampleRate.toNat) s.syn ts).2.length)))

/-! ### What each command does -/

/-- spec/41_synthesizer.md R72: NOP, word 0, clears the error record and changes nothing else; STATUS.ERR then reads
0. -/
def Obligations.NopClearsTheRecord : Prop :=
  decode 0x00000000#32 = some .nop ∧
  ∀ s : State, exec .nop s = .next { s with err := { code := 0#8, value := 0#32, min := 0#32, max := 0#32 } } ∧
    ∀ t, exec .nop s = .next t → (readRegAt t 0x004).getLsbD 3 = false ∧ readRegAt t 0x008 = 0#32

/-- spec/41_synthesizer.md R75: SYNTH_CLEAR, word 3, makes the synthesizer state (+0.0, +1.0, +0.0) and leaves the
buffer and OUT_VALID alone; SYN_COS_HI then reads 0x3FF00000, and a later tone recovers the start phase +0.0. -/
def Obligations.SynthClearRestoresFreshState : Prop :=
  decode 0x00000003#32 = some .synthClear ∧
  ∀ s : State, exec .synthClear s = .next { s with
      err := { code := 0#8, value := 0#32, min := 0#32, max := 0#32 },
      syn := { value := 0#64, cos := 0x3FF0000000000000#64, carry := 0#64 } } ∧
    ∀ t, exec .synthClear s = .next t → readRegAt t 0x054 = 0x3FF00000#32 ∧ recoverPhase t.syn = 0#64

/-- spec/41_synthesizer.md R77: BUF_CLEAR, word 4, empties the buffer and clears OUT_VALID, and leaves the synthesizer
state alone, so that a later tone recovers the phase it would have; BUF_LEN then reads 0. -/
def Obligations.BufClearEmptiesBuffer : Prop :=
  decode 0x00000004#32 = some .bufClear ∧
  ∀ s : State, exec .bufClear s = .next { s with
      err := { code := 0#8, value := 0#32, min := 0#32, max := 0#32 }, buf := [], outValid := false } ∧
    ∀ t, exec .bufClear s = .next t → readRegAt t 0x060 = 0#32 ∧ recoverPhase t.syn = recoverPhase s.syn

/-- spec/45_orchestrator.md R110: CLEAR, word 0x0A, clears every output; BUF_LEN, STATUS and every FIT register then read 0 and the
canvas window reads as draws (log 8). -/
def Obligations.ClearClearsEveryOutput : Prop :=
  decode 0x0000000A#32 = some .clear ∧
  ∀ s : State, ∃ t, exec .clear s = .next t ∧
    t = { s with
      err := { code := 0#8, value := 0#32, min := 0#32, max := 0#32 }, buf := [],
      syn := { value := 0#64, cos := 0x3FF0000000000000#64, carry := 0#64 },
      fitValid := false, fitMode := .a, fit := t.fit, warnOversize := false, outValid := false, outSr := 0#32,
      canvas := t.canvas } ∧
    (∀ k, 0x060 ≤ k → k < 0x1000 → readRegAt t k = 0#32) ∧ readRegAt t 0x004 = 0#32 ∧
    readRegAt t 0x054 = 0x3FF00000#32 ∧
    ∀ a, 0x02000000 ≤ a → a < 0x03000000 → memByte t a = Config.draw t.draws a

/-- spec/41_synthesizer.md R62, R63, R73: EMIT on legal operands that fit the buffer appends the samples of one tone
whose phase is recovered from the synthesizer state, sample by sample as R62 writes them (the sample of a non-finite
phase is log 7's free value). -/
def Obligations.EmitAppendsOneTone : Prop :=
  ∀ (s : State) (sr x c0 c sign phi : Binary64) (n : Nat) (ph : Nat → Binary64),
    readyToEmit s → f64IsFinite s.opf = true → f64IsFinite s.opd = true → f64Lt s.opd 0#64 = false →
    sr = f64OfNat s.sampleRate.toNat → x = f64Div (f64Mul sr s.opd) (f64OfNat 1000) →
    c0 = f64Add s.syn.carry (f64Sub x (f64OfNat (f64FloorNat x))) →
    n = (if f64Le (f64OfNat 1) c0 then f64FloorNat x + f64FloorNat c0 else f64FloorNat x) →
    c = (if f64Le (f64OfNat 1) c0 then f64Sub c0 (f64OfNat (f64FloorNat c0)) else c0) →
    sign = (if f64Le (f64OfNat 0) s.syn.cos then f64OfNat 1 else f64Neg (f64OfNat 1)) →
    phi = f64Add (f64Mul sign (asinFn s.syn.value))
      (f64Mul (f64Div (f64Abs (f64Sub sign (f64OfNat 1))) (f64OfNat 2)) Config.pi) →
    (∀ i, ph i =
      f64Add (f64Div (f64Mul (f64Mul (f64Mul (f64OfNat 2) Config.pi) s.opf) (f64OfNat i)) sr) phi) →
    s.buf.length + n ≤ 134217728 →
    exec .emit s = .next { s with
      err := { code := 0#8, value := 0#32, min := 0#32, max := 0#32 },
      syn := { value := sinFn (ph n), cos := cosFn (ph n), carry := c },
      buf := s.buf ++ (List.range n).map (fun i => quantise i (f64Mul (f64OfNat 32767) (sinFn (ph i)))),
      outValid := false }

/-- spec/41_synthesizer.md R74: EMIT_PHI is EMIT with the start phase OPP, used as given (log 7 for a
non-finite phase). -/
def Obligations.EmitPhiAppendsOneTone : Prop :=
  ∀ (s : State) (sr x c0 c : Binary64) (n : Nat) (ph : Nat → Binary64),
    readyToEmit s → f64IsFinite s.opf = true → f64IsFinite s.opd = true → f64Lt s.opd 0#64 = false →
    f64IsFinite s.opp = true →
    sr = f64OfNat s.sampleRate.toNat → x = f64Div (f64Mul sr s.opd) (f64OfNat 1000) →
    c0 = f64Add s.syn.carry (f64Sub x (f64OfNat (f64FloorNat x))) →
    n = (if f64Le (f64OfNat 1) c0 then f64FloorNat x + f64FloorNat c0 else f64FloorNat x) →
    c = (if f64Le (f64OfNat 1) c0 then f64Sub c0 (f64OfNat (f64FloorNat c0)) else c0) →
    (∀ i, ph i =
      f64Add (f64Div (f64Mul (f64Mul (f64Mul (f64OfNat 2) Config.pi) s.opf) (f64OfNat i)) sr) s.opp) →
    s.buf.length + n ≤ 134217728 →
    exec .emitPhi s = .next { s with
      err := { code := 0#8, value := 0#32, min := 0#32, max := 0#32 },
      syn := { value := sinFn (ph n), cos := cosFn (ph n), carry := c },
      buf := s.buf ++ (List.range n).map (fun i => quantise i (f64Mul (f64OfNat 32767) (sinFn (ph i)))),
      outValid := false }

/-- spec/42_vis.md R78 to R82, R84, R85: VIS appends the 21 tones of the mode's table, whose VIS strings are log 5; and
spec/41_synthesizer.md R62 of any list of tones: they are emitted in the order of the list, each updates the synthesizer
state exactly once, and the next starts from the state it leaves (a non-finite phase is log 7, an overflowing length log
6). -/
def Obligations.VisAppendsHeader : Prop :=
  (∀ (s : State) (md : Mode), readyToEmit s →
    s.buf.length + (emitTones (f64OfNat s.sampleRate.toNat) s.syn (tonesOf (visTable md))).2.length ≤ 134217728 →
    exec (.vis (Config.modeNumber md)) s = .next (afterTones s (tonesOf (visTable md)))) ∧
  (∀ (sr : Binary64) (syn : Syn), emitTones sr syn [] = (syn, [])) ∧
  (∀ (sr : Binary64) (syn : Syn) (t : Tone) (ts : List Tone),
    (emitTones sr syn (t :: ts)).1 = (emitTones sr (toneByRule sr syn t).1 ts).1 ∧
    (emitTones sr syn (t :: ts)).2 = (toneByRule sr syn t).2 ++ (emitTones sr (toneByRule sr syn t).1 ts).2) ∧
  (∀ (sr : Binary64) (syn : Syn) (as bs : List Tone),
    (emitTones sr syn (as ++ bs)).1 = (emitTones sr (emitTones sr syn as).1 bs).1 ∧
    (emitTones sr syn (as ++ bs)).2 = (emitTones sr syn as).2 ++ (emitTones sr (emitTones sr syn as).1 bs).2)

/-- spec/45_orchestrator.md R105, R106: END_TONES appends the five end tones, composed as VisAppendsHeader says. -/
def Obligations.EndTonesAppendsFive : Prop :=
  ∀ s : State, readyToEmit s →
    s.buf.length + (emitTones (f64OfNat s.sampleRate.toNat) s.syn (tonesOf endTable)).2.length ≤ 134217728 →
    exec .endTones s = .next (afterTones s (tonesOf endTable))

/-- spec/44_scan_engines.md R103: SCAN of the mode the canvas was fitted for appends the scan's tones, which the
statements ScanTonesModesAD and ScanTonesModesBC list, composed as VisAppendsHeader says. -/
def Obligations.ScanAppendsScanTones : Prop :=
  ∀ (s : State) (md : Mode), readyToEmit s → s.fitValid = true → s.fitMode = md →
    s.buf.length + (emitTones (f64OfNat s.sampleRate.toNat) s.syn (scanTones s md)).2.length ≤ 134217728 →
    exec (.scan (Config.modeNumber md)) s = .next (afterTones s (scanTones s md))

/-- spec/43_image_fitter.md R86 to R93, R95: FIT on a legal source. -/
def Obligations.FitMakesCanvasAndMetadata : Prop :=
  ∀ (s : State) (md : Mode) (sw sh tw th nw nh ox oy : Nat),
    sourceOk s → sw = s.srcW.toNat → sh = s.srcH.toNat → tw = Config.modeW md → th = Config.modeH md →
    nw = (if tw * sh ≤ th * sw then tw else max 1 (sw * th / sh)) →
    nh = (if tw * sh ≤ th * sw then max 1 (sh * tw / sw) else th) →
    ox = (tw - nw) / 2 → oy = (th - nh) / 2 →
    ∃ t, exec (.fit (Config.modeNumber md)) s = .next t ∧
      t = { s with
        err := { code := 0#8, value := 0#32, min := 0#32, max := 0#32 }, canvas := t.canvas,
        fit := { srcW := s.srcW, srcH := s.srcH, tgtW := BitVec.ofNat 32 tw, tgtH := BitVec.ofNat 32 th,
                 scaledW := BitVec.ofNat 32 nw, scaledH := BitVec.ofNat 32 nh,
                 left := BitVec.ofNat 32 ox, top := BitVec.ofNat 32 oy,
                 right := BitVec.ofNat 32 (tw - ox - nw), bottom := BitVec.ofNat 32 (th - oy - nh),
                 scale := f64Min (f64Div (f64OfNat tw) (f64OfNat sw)) (f64Div (f64OfNat th) (f64OfNat sh)),
                 time := s.hostTime },
        fitMode := md, fitValid := true, warnOversize := decide (16 * tw * th < sw * sh) } ∧
      (∀ x y c, x < tw → y < th → c < 3 →
        memByte t (0x02000000 + 3 * (y * tw + x) + c) =
          if ox ≤ x ∧ x < ox + nw ∧ oy ≤ y ∧ y < oy + nh then
            resampleByte ((List.range (3 * (sw * sh))).map (fun k => memByte s (0x01000000 + k))) sw sh nw nh
              (3 * ((y - oy) * nw + (x - ox)) + c)
          else 0#8) ∧
      (sw = tw → sh = th → ∀ x y c, x < tw → y < th → c < 3 →
        memByte t (0x02000000 + 3 * (y * tw + x) + c) = memByte s (0x01000000 + 3 * (y * tw + x) + c))

/-- spec/45_orchestrator.md R107, R108: RUN on a legal rate, depth and source always completes (it never exceeds the
buffer): the canvas and metadata are those of FIT, the buffer is the run's tones alone from a fresh synthesizer, composed
as VisAppendsHeader says (VIS strings: log 5). -/
def Obligations.RunReplacesBuffer : Prop :=
  ∀ (s : State) (md : Mode), readyToEmit s → sourceOk s →
    ∃ u t, exec (.fit (Config.modeNumber md)) s = .next u ∧ exec (.run (Config.modeNumber md)) s = .next t ∧
      t = { u with
        syn := (emitTones (f64OfNat s.sampleRate.toNat) ⟨0#64, 0x3FF0000000000000#64, 0#64⟩
          ([plainTone 0 200] ++ tonesOf (visTable md) ++ scanTones u md ++ tonesOf endTable ++ [plainTone 0 200])).1,
        buf := (emitTones (f64OfNat s.sampleRate.toNat) ⟨0#64, 0x3FF0000000000000#64, 0#64⟩
          ([plainTone 0 200] ++ tonesOf (visTable md) ++ scanTones u md ++ tonesOf endTable ++ [plainTone 0 200])).2,
        outValid := true, outSr := s.sampleRate } ∧
      u.err.code = 0#8 ∧ t.fitValid = true ∧ t.buf.length ≤ 134217728

/-- A run made of standalone commands (program P5 of spec/95_test_vectors.md, spec/70_reset_and_hazards.md R133) gives
sample for sample what RUN gives, with OUT_VALID 0 and OUT_SR as it was. runCommands applies exec, not step: no host event
passes between the commands, so the event number stays and a source byte the host has not written reads alike in RUN and
in FIT (log 8). -/
def Obligations.StandaloneSequenceEqualsRun : Prop :=
  ∀ (s t : State) (md : Mode), s.opf = f64OfNat 0 → s.opd = f64OfNat 200 →
    exec (.run (Config.modeNumber md)) s = .next t → t.err.code = 0#8 →
    ∃ u, runCommands [.synthClear, .bufClear, .emit, .vis (Config.modeNumber md), .fit (Config.modeNumber md),
        .scan (Config.modeNumber md), .endTones, .emit] s = some u ∧
      u = { t with outValid := false, outSr := s.outSr }

/-- spec/45_orchestrator.md R108 (determinism): RUN depends on the rate, depth, source dimensions, source bytes and
HOST_TIME alone; nothing of an earlier run's outputs reaches the new ones. -/
def Obligations.RunIgnoresEarlierOutputs : Prop :=
  ∀ (s s' t t' : State) (m : Nat),
    s.sampleRate = s'.sampleRate → s.bitDepth = s'.bitDepth → s.srcW = s'.srcW → s.srcH = s'.srcH →
    s.hostTime = s'.hostTime →
    (∀ k, k < 3 * (s.srcW.toNat * s.srcH.toNat) → memByte s (0x01000000 + k) = memByte s' (0x01000000 + k)) →
    exec (.run m) s = .next t → exec (.run m) s' = .next t' →
    t.err = t'.err ∧
    (t.err.code = 0#8 → t.buf = t'.buf ∧ t.syn = t'.syn ∧ t.canvas = t'.canvas ∧ t.fit = t'.fit ∧
      t.fitMode = t'.fitMode ∧ t.fitValid = t'.fitValid ∧ t.warnOversize = t'.warnOversize ∧
      t.outValid = t'.outValid ∧ t.outSr = t'.outSr)

/-! ### Invariant -/

/-- Every step keeps the invariant of Sys2Proof/Safety.lean. -/
def Obligations.StepKeepsInvariant : Prop := ∀ s t : State, Inv s → step s = .next t → Inv t

/-- The invariant holds after reset. -/
def Obligations.ResetMeetsInvariant : Prop := Inv State.reset

/-! ### Frames -/

/-- EMIT, EMIT_PHI, VIS, SCAN and END_TONES store only the samples they append: every register but the error record,
the synthesizer state, the buffer and OUT_VALID keeps its value, and every byte outside the appended samples reads as
before. -/
def Obligations.EmittersFrame : Prop :=
  ∀ (i : Instr) (m : Nat) (s t : State),
    i ∈ [Instr.emit, Instr.emitPhi, Instr.vis m, Instr.scan m, Instr.endTones] → exec i s = .next t →
    t = { s with err := t.err, syn := t.syn, buf := t.buf, outValid := t.outValid } ∧
    (∃ more, t.buf = s.buf ++ more) ∧
    ∀ a, ¬ (0x10000000 + 2 * s.buf.length ≤ a ∧ a < 0x10000000 + 2 * t.buf.length) → memByte t a = memByte s a

/-- FIT stores only the canvas: the buffer, the synthesizer state and the host registers keep their values, every byte
outside the canvas window reads as before, and a byte of the window beyond the new canvas reads as a draw (log 8). -/
def Obligations.FitFrame : Prop :=
  ∀ (m : Nat) (s t : State), exec (.fit m) s = .next t →
    t = { s with err := t.err, canvas := t.canvas, fit := t.fit, fitMode := t.fitMode, fitValid := t.fitValid,
                 warnOversize := t.warnOversize } ∧
    (∀ a, ¬ (0x02000000 ≤ a ∧ a < 0x03000000) → memByte t a = memByte s a) ∧
    (t.err.code = 0#8 → ∀ a, 0x02000000 + 3 * (Config.modeW t.fitMode * Config.modeH t.fitMode) ≤ a →
      a < 0x03000000 → memByte t a = Config.draw t.draws a)

/-- RUN stores only the canvas and the samples. -/
def Obligations.RunFrame : Prop :=
  ∀ (m : Nat) (s t : State), exec (.run m) s = .next t →
    t = { s with err := t.err, canvas := t.canvas, fit := t.fit, fitMode := t.fitMode, fitValid := t.fitValid,
                 warnOversize := t.warnOversize, syn := t.syn, buf := t.buf, outValid := t.outValid,
                 outSr := t.outSr } ∧
    ∀ a, ¬ (0x02000000 ≤ a ∧ a < 0x03000000) → ¬ (0x10000000 ≤ a ∧ a < 0x20000000) → memByte t a = memByte s a

/-- NOP, SYNTH_CLEAR, BUF_CLEAR and CLEAR store nothing: NOP and SYNTH_CLEAR leave every byte, BUF_CLEAR every byte
outside the sample window, CLEAR every byte outside the canvas and sample windows. -/
def Obligations.ClearersFrame : Prop :=
  ∀ s t : State,
    (exec .nop s = .next t → t = { s with err := t.err } ∧ ∀ a, memByte t a = memByte s a) ∧
    (exec .synthClear s = .next t → t = { s with err := t.err, syn := t.syn } ∧ ∀ a, memByte t a = memByte s a) ∧
    (exec .bufClear s = .next t → t = { s with err := t.err, buf := t.buf, outValid := t.outValid } ∧
      ∀ a, ¬ (0x10000000 ≤ a ∧ a < 0x20000000) → memByte t a = memByte s a) ∧
    (exec .clear s = .next t →
      t = { s with err := t.err, buf := t.buf, syn := t.syn, fitValid := t.fitValid, fitMode := t.fitMode,
                   fit := t.fit, canvas := t.canvas, warnOversize := t.warnOversize, outValid := t.outValid,
                   outSr := t.outSr } ∧
      ∀ a, ¬ (0x02000000 ≤ a ∧ a < 0x03000000) → ¬ (0x10000000 ≤ a ∧ a < 0x20000000) → memByte t a = memByte s a)

/-- spec/10_state.md R24: over any step the buffer is appended to, except that BUF_CLEAR, CLEAR, RUN and the reset line
may empty it. -/
def Obligations.BufferIsAppendOnly : Prop :=
  ∀ s t : State, step s = .next t →
    (∃ more, t.buf = s.buf ++ more) ∨
    (t.buf = [] ∧ ∃ rest, s.script = .reset :: rest ∨
      ∃ w d i, s.script = .write w 0#32 d :: rest ∧ decode d = some i ∧ i ∈ [Instr.bufClear, Instr.clear]) ∨
    (∃ rest w d m, s.script = .write w 0#32 d :: rest ∧ decode d = some (.run m))

/-- spec/10_state.md R14, R20, R22, R24 and spec/70_reset_and_hazards.md R129: the synthesizer state changes only by a command
other than NOP, BUF_CLEAR and FIT, the buffer and OUT_VALID (R20, R24) only by one other than NOP, SYNTH_CLEAR and FIT,
OUT_SR only by RUN and CLEAR, the canvas and its metadata only by FIT, RUN and CLEAR, the host registers and the source
window only by host writes, the error record only by a CMD write; the reset line changes them all. -/
def Obligations.OnlyNamedEventsChangeState : Prop :=
  ∀ s t : State, step s = .next t → (∃ rest, s.script = .reset :: rest) ∨
    ((t.syn ≠ s.syn → ∃ rest d i, s.script = .write 4 0#32 d :: rest ∧ decode d = some i ∧
        i ≠ .nop ∧ i ≠ .bufClear ∧ ∀ m, i ≠ .fit m) ∧
      (¬ (t.buf = s.buf ∧ t.outValid = s.outValid) →
        ∃ rest d i, s.script = .write 4 0#32 d :: rest ∧ decode d = some i ∧
          i ≠ .nop ∧ i ≠ .synthClear ∧ ∀ m, i ≠ .fit m) ∧
      (t.outSr ≠ s.outSr → ∃ rest d i, s.script = .write 4 0#32 d :: rest ∧ decode d = some i ∧
        (i = .clear ∨ ∃ m, i = .run m)) ∧
      (¬ (t.canvas = s.canvas ∧ t.fit = s.fit ∧ t.fitMode = s.fitMode ∧ t.fitValid = s.fitValid ∧
          t.warnOversize = s.warnOversize) →
        ∃ rest d i, s.script = .write 4 0#32 d :: rest ∧ decode d = some i ∧
          (i = .clear ∨ ∃ m, i = .fit m ∨ i = .run m)) ∧
      (¬ (t.sampleRate = s.sampleRate ∧ t.bitDepth = s.bitDepth ∧ t.srcW = s.srcW ∧ t.srcH = s.srcH ∧
          t.hostTime = s.hostTime ∧ t.opf = s.opf ∧ t.opd = s.opd ∧ t.opp = s.opp) →
        ∃ rest a d, s.script = .write 4 a d :: rest ∧ 0x18 ≤ a.toNat ∧ a.toNat ≤ 0x44) ∧
      (t.src ≠ s.src → ∃ rest w a d, s.script = .write w a d :: rest ∧
        0x01000000 ≤ a.toNat ∧ a.toNat < 0x02000000) ∧
      (t.err ≠ s.err → ∃ rest d, s.script = .write 4 0#32 d :: rest))

/-- spec/10_state.md R20: who sets and who clears OUT_VALID, FIT_VALID and WARN_OVERSIZE, of the commands. -/
def Obligations.FlagsFollowCommands : Prop :=
  ∀ (i : Instr) (s t : State), exec i s = .next t →
    (t.err.code ≠ 0#8 →
      t.outValid = s.outValid ∧ t.fitValid = s.fitValid ∧ t.warnOversize = s.warnOversize) ∧
    (t.err.code = 0#8 →
      t.outValid = (match i with
        | .run _ => true
        | .emit => false
        | .emitPhi => false
        | .vis _ => false
        | .scan _ => false
        | .endTones => false
        | .bufClear => false
        | .clear => false
        | .nop => s.outValid
        | .synthClear => s.outValid
        | .fit _ => s.outValid) ∧
      (∀ m, (i = .fit m ∨ i = .run m) → t.fitValid = true ∧
        t.warnOversize = decide (16 * Config.modeW t.fitMode * Config.modeH t.fitMode < s.srcW.toNat * s.srcH.toNat)) ∧
      (i = .clear → t.fitValid = false ∧ t.warnOversize = false) ∧
      ((∀ m, i ≠ .fit m ∧ i ≠ .run m) → i ≠ .clear →
        t.fitValid = s.fitValid ∧ t.warnOversize = s.warnOversize))

/-! ### The synthesizer -/

/-- spec/41_synthesizer.md R63, R64: a tone of finite length keeps the carry in [0, 1) and has floor(x) or
floor(x) + 1 samples. -/
def Obligations.CarryStaysBelowOne : Prop :=
  ∀ (r : Nat) (d carry : Binary64), 8000 ≤ r → r ≤ 192000 →
    f64IsFinite d = true → f64Lt d 0#64 = false → f64IsFinite (toneLength (f64OfNat r) d) = true →
    f64Le 0#64 carry = true → f64Lt carry (f64OfNat 1) = true →
    f64Le 0#64 (toneCount (f64OfNat r) d carry).2 = true ∧
    f64Lt (toneCount (f64OfNat r) d carry).2 (f64OfNat 1) = true ∧
    ((toneCount (f64OfNat r) d carry).1 = f64FloorNat (toneLength (f64OfNat r) d) ∨
      (toneCount (f64OfNat r) d carry).1 = f64FloorNat (toneLength (f64OfNat r) d) + 1)

/-- spec/41_synthesizer.md R67, spec/00_scope.md R11: every sample lies in [-32767, 32767], at a finite phase it is
round(32767 SIN(phase)), and an exact half rounds away from zero. The bound on a free sample is log 7. -/
def Obligations.SamplesNeverMinimum : Prop :=
  (∀ i v, -32767 ≤ (quantise i v).toInt ∧ (quantise i v).toInt ≤ 32767) ∧
  (∀ i ph, f64IsFinite ph = true →
    (quantise i (f64Mul (f64OfNat 32767) (sinFn ph))).toInt = f64Round (f64Mul (f64OfNat 32767) (sinFn ph))) ∧
  (∀ i, quantise i (f64Mul (f64OfNat 32767) (f64Lit 1 2)) = 16384#16 ∧
    quantise i (f64Mul (f64OfNat 32767) (f64Neg (f64Lit 1 2))) = BitVec.ofInt 16 (-16384) ∧
    quantise i (f64Mul (f64OfNat 32767) (f64OfNat 1)) = 32767#16)

/-- The requirements of spec/41_synthesizer.md R71 on SIN, COS and ASIN, of R89 of spec/43_image_fitter.md on RESAMPLE
and of R4 of spec/00_scope.md on SRC_MAX_PIXELS (log 2, log 3, log 4). -/
def Obligations.ConfigFunctionsMeetRequirements : Prop :=
  (∀ x, f64IsFinite x = true →
    f64Le (f64Neg (f64OfNat 1)) (sinFn x) = true ∧ f64Le (sinFn x) (f64OfNat 1) = true ∧
    f64Le (f64Neg (f64OfNat 1)) (cosFn x) = true ∧ f64Le (cosFn x) (f64OfNat 1) = true) ∧
  (∀ v, f64Le (f64Neg (f64OfNat 1)) v = true → f64Le v (f64OfNat 1) = true →
    f64Le (f64Neg (f64Div Config.pi (f64OfNat 2))) (asinFn v) = true ∧
    f64Le (asinFn v) (f64Div Config.pi (f64OfNat 2)) = true) ∧
  sinFn (f64OfNat 0) = f64OfNat 0 ∧ cosFn (f64OfNat 0) = f64OfNat 1 ∧ asinFn (f64OfNat 0) = f64OfNat 0 ∧
  (∀ src sw sh k, k < src.length → resampleByte src sw sh sw sh k = src.getD k 0#8) ∧
  srcMaxPixels ≤ 5592405

/-- spec/41_synthesizer.md R69: silence (OPF = +0.0) repeats one sample, that of the recovered phase, and the state
becomes the sine and cosine of that phase. -/
def Obligations.SilenceRepeatsOneSample : Prop :=
  ∀ s t : State, s.opf = f64OfNat 0 → f64IsFinite (recoverPhase s.syn) = true → exec .emit s = .next t →
    t.err.code = 0#8 →
    ∃ n, t.buf = s.buf ++ List.replicate n (BitVec.ofInt 16
        (f64Round (f64Mul (f64OfNat 32767) (sinFn (f64Add (f64OfNat 0) (recoverPhase s.syn)))))) ∧
      t.syn.value = sinFn (f64Add (f64OfNat 0) (recoverPhase s.syn)) ∧
      t.syn.cos = cosFn (f64Add (f64OfNat 0) (recoverPhase s.syn))

/-- spec/41_synthesizer.md R65: with a non-negative previous cosine the phase is ASIN(value) + 0.0, otherwise
-ASIN(value) + PI; -0.0 counts as non-negative. -/
def Obligations.PhaseRecoveryCases : Prop :=
  (∀ syn : Syn, f64Le (f64Neg (f64OfNat 1)) syn.value = true → f64Le syn.value (f64OfNat 1) = true →
    (f64Le (f64OfNat 0) syn.cos = true → recoverPhase syn = f64Add (asinFn syn.value) (f64OfNat 0)) ∧
    (f64Le (f64OfNat 0) syn.cos = false → recoverPhase syn = f64Add (f64Neg (asinFn syn.value)) Config.pi)) ∧
  f64Le (f64OfNat 0) (f64Neg (f64OfNat 0)) = true

/-- spec/41_synthesizer.md R66: the first sample of a tone is at its start phase exactly. -/
def Obligations.ToneStartsAtStartPhase : Prop :=
  ∀ (r : Nat) (f phi : Binary64), 8000 ≤ r → r ≤ 192000 →
    f64IsFinite (f64Mul (f64Mul (f64OfNat 2) Config.pi) f) = true → f64IsFinite phi = true →
    phi ≠ f64Neg (f64OfNat 0) → phaseAt (f64OfNat r) f phi 0 = phi

/-! ### Colour, header, scan and fit -/

/-- spec/40_color_transform.md R54: the formula of Y; it grows with each channel and lies between its values at black
and white. -/
def Obligations.LumaStaysInRange : Prop :=
  (∀ r g b, lumaY r g b = f64Add (f64OfNat 16) (f64Mul (f64Lit 3906 1000000)
    (f64Add (f64Add (f64Mul (f64Lit 65738 1000) r) (f64Mul (f64Lit 129057 1000) g)) (f64Mul (f64Lit 25064 1000) b)))) ∧
  (∀ r g b r' g' b' : Byte, r.toNat ≤ r'.toNat → g.toNat ≤ g'.toNat → b.toNat ≤ b'.toNat →
    f64Le (lumaY (f64OfNat r.toNat) (f64OfNat g.toNat) (f64OfNat b.toNat))
      (lumaY (f64OfNat r'.toNat) (f64OfNat g'.toNat) (f64OfNat b'.toNat)) = true) ∧
  (∀ r g b : Byte, f64Le (f64OfNat 16) (lumaY (f64OfNat r.toNat) (f64OfNat g.toNat) (f64OfNat b.toNat)) = true ∧
    f64Le (lumaY (f64OfNat r.toNat) (f64OfNat g.toNat) (f64OfNat b.toNat)) (f64Lit 23498615976999997 100000000000000)
      = true) ∧
  lumaY (f64OfNat 0) (f64OfNat 0) (f64OfNat 0) = f64OfNat 16 ∧
  lumaY (f64OfNat 255) (f64OfNat 255) (f64OfNat 255) = f64Lit 23498615976999997 100000000000000 ∧
  lumaY (f64OfNat 200) (f64OfNat 100) (f64OfNat 50) = f64Lit 12265918900000001 100000000000000

/-- spec/40_color_transform.md R55, R56: the formulas, the corner cases, and the grey pixels whose R-Y or B-Y is not
128.0. -/
def Obligations.GreyPixelsRoundAsStated : Prop :=
  (∀ r g b, chromaRY r g b = f64Add (f64OfNat 128) (f64Mul (f64Lit 3906 1000000)
    (f64Sub (f64Sub (f64Mul (f64Lit 112439 1000) r) (f64Mul (f64Lit 94154 1000) g)) (f64Mul (f64Lit 18285 1000) b)))) ∧
  (∀ r g b, chromaBY r g b = f64Add (f64OfNat 128) (f64Mul (f64Lit 3906 1000000)
    (f64Add (f64Sub (f64Mul (f64Neg (f64Lit 37945 1000)) r) (f64Mul (f64Lit 74494 1000) g))
      (f64Mul (f64Lit 112439 1000) b)))) ∧
  chromaRY (f64OfNat 0) (f64OfNat 0) (f64OfNat 0) = f64OfNat 128 ∧
  chromaBY (f64OfNat 0) (f64OfNat 0) (f64OfNat 0) = f64OfNat 128 ∧
  chromaBY (f64OfNat 255) (f64OfNat 255) (f64OfNat 255) = f64OfNat 128 ∧
  chromaRY (f64OfNat 200) (f64OfNat 100) (f64OfNat 50) = f64Lit 1754897339 10000000 ∧
  chromaBY (f64OfNat 200) (f64OfNat 100) (f64OfNat 50) = f64Lit 912193463 10000000 ∧
  ((List.range 256).filter (fun v => chromaBY (f64OfNat v) (f64OfNat v) (f64OfNat v) != f64OfNat 128)).take 3
    = [114, 146, 153] ∧
  ((List.range 256).filter (fun v => chromaRY (f64OfNat v) (f64OfNat v) (f64OfNat v) == f64OfNat 128)).length = 236 ∧
  ((List.range 256).filter (fun v => chromaRY (f64OfNat v) (f64OfNat v) (f64OfNat v)
    == f64Lit 12799999999999999 100000000000000)).length = 20 ∧
  ((List.range 256).filter (fun v => chromaRY (f64OfNat v) (f64OfNat v) (f64OfNat v) != f64OfNat 128)).take 3
    = [114, 146, 153] ∧
  ((List.range 256).filter (fun v => chromaBY (f64OfNat v) (f64OfNat v) (f64OfNat v) != f64OfNat 128)).length = 45 ∧
  chromaRY (f64OfNat 255) (f64OfNat 0) (f64OfNat 0) = f64Lit 23999261717000002 100000000000000 ∧
  chromaRY (f64OfNat 0) (f64OfNat 255) (f64OfNat 255) = f64Lit 16007382829999997 1000000000000000 ∧
  chromaBY (f64OfNat 0) (f64OfNat 0) (f64OfNat 255) = f64Lit 23999261717000002 100000000000000 ∧
  chromaBY (f64OfNat 255) (f64OfNat 255) (f64OfNat 0) = f64Lit 16007382829999997 1000000000000000

/-- spec/40_color_transform.md R58: the frequency map and its corner cases. -/
def Obligations.FreqMapCorners : Prop :=
  (∀ v, freqMap v = f64Add (f64OfNat 1500) (f64Mul v (f64Lit 31372549 10000000))) ∧
  freqMap (f64OfNat 0) = f64OfNat 1500 ∧ freqMap (f64OfNat 255) = f64Lit 22999999995 10000000 ∧
  freqMap (f64OfNat 16) = f64Lit 15501960784 10000000 ∧ freqMap (f64OfNat 128) = f64Lit 19015686272 10000000 ∧
  freqMap (lumaY (f64OfNat 200) (f64OfNat 100) (f64OfNat 50)) = f64Lit 18848131417202762 10000000000000

/-- spec/40_color_transform.md R59, R60: the average, that of two equal values being that value (where its double is
finite, as it is for every colour difference), and the row averaged with the last row, which is the last row. -/
def Obligations.AvgOfEqualValues : Prop :=
  (∀ a b, chromaAvg a b = f64Div (f64Add a b) (f64OfNat 2)) ∧
  (∀ a, f64IsFinite (f64Add a a) = true → chromaAvg a a = a) ∧
  (∀ r h, nextRow r h = (if r + 1 < h then r + 1 else r)) ∧
  chromaAvg (chromaRY (f64OfNat 255) (f64OfNat 0) (f64OfNat 0)) (chromaRY (f64OfNat 0) (f64OfNat 0) (f64OfNat 0))
    = f64Lit 183996308585 1000000000 ∧
  freqMap (f64Lit 183996308585 1000000000) = f64Lit 20772433206902033 10000000000000

/-- spec/42_vis.md R83 and spec/45_orchestrator.md R105 at SR = 8000: the header is 21 tones and 13 680 samples, the end
tones, the five of R105, are 7200 samples, and both leave the carry unchanged. -/
def Obligations.HeaderAndEndTonesCounts : Prop :=
  ∀ (syn : Syn) (md : Mode), f64Le 0#64 syn.carry = true → f64Lt syn.carry (f64OfNat 1) = true →
    syn.carry ≠ f64Neg 0#64 →
    (visTones md).length = 21 ∧ endTones = tonesOf [(1500, 500), (1900, 100), (1500, 100), (1900, 100), (1500, 100)] ∧
    (emitTones (f64OfNat 8000) syn (visTones md)).2.length = 13680 ∧
    (emitTones (f64OfNat 8000) syn (visTones md)).1.carry = syn.carry ∧
    (emitTones (f64OfNat 8000) syn endTones).2.length = 7200 ∧
    (emitTones (f64OfNat 8000) syn endTones).1.carry = syn.carry

/-- The tones column of spec/44_scan_engines.md R104, whatever the canvas holds. -/
def Obligations.ScanToneCounts : Prop :=
  ∀ s : State, (scanTones s .a).length = 246785 ∧ (scanTones s .b).length = 154560 ∧
    (scanTones s .c).length = 635376 ∧ (scanTones s .d).length = 247040

/-- spec/44_scan_engines.md R97, R98, R101: every tone of the scans of modes A and D at its place; and
spec/20_memory.md R26: the canvas bytes the scan reads are those a host read returns (dimensions: log 5). -/
def Obligations.ScanTonesModesAD : Prop :=
  ∀ s : State,
    (s.fitValid = true → (s.fitMode = .a ∨ s.fitMode = .d) → ∀ k, k < 3 * (320 * 256) →
      canvasCell s (0x02000000 + k) = memByte s (0x02000000 + k)) ∧
    (s.fitMode = .a →
      (scanTones s .a)[0]? = some { freq := f64OfNat 1200, dur := f64OfNat 9, phi := some 0#64 } ∧
      ∀ r, r < 256 →
        (scanTones s .a)[1 + 964 * r]? = some { freq := f64OfNat 1500, dur := f64Lit 15 10, phi := none } ∧
        (∀ x, x < 320 → (scanTones s .a)[1 + 964 * r + 1 + x]? = some (pixelTone (canvasF s 320 x r 1) 108 100)) ∧
        (scanTones s .a)[1 + 964 * r + 321]? = some { freq := f64OfNat 1500, dur := f64Lit 15 10, phi := none } ∧
        (∀ x, x < 320 → (scanTones s .a)[1 + 964 * r + 322 + x]? = some (pixelTone (canvasF s 320 x r 2) 108 100)) ∧
        (scanTones s .a)[1 + 964 * r + 642]? = some (plainTone 1200 9) ∧
        (scanTones s .a)[1 + 964 * r + 643]? = some { freq := f64OfNat 1500, dur := f64Lit 15 10, phi := none } ∧
        (∀ x, x < 320 → (scanTones s .a)[1 + 964 * r + 644 + x]? = some (pixelTone (canvasF s 320 x r 0) 108 100))) ∧
    (s.fitMode = .d →
      ∀ r, r < 256 →
        (scanTones s .d)[965 * r]? = some { freq := f64OfNat 1200, dur := f64Lit 4862 1000, phi := none } ∧
        (∀ k ∈ [1, 322, 643, 964],
          (scanTones s .d)[965 * r + k]? = some { freq := f64OfNat 1500, dur := f64Lit 572 1000, phi := none }) ∧
        (∀ x, x < 320 →
          (scanTones s .d)[965 * r + 2 + x]? = some (pixelTone (canvasF s 320 x r 1) 4576 10000) ∧
          (scanTones s .d)[965 * r + 323 + x]? = some (pixelTone (canvasF s 320 x r 2) 4576 10000) ∧
          (scanTones s .d)[965 * r + 644 + x]? = some (pixelTone (canvasF s 320 x r 0) 4576 10000)))

/-- spec/44_scan_engines.md R97, R99, R100: every tone of the scans of modes B and C at its place; and
spec/20_memory.md R26: the canvas bytes the scan reads are those a host read returns (dimensions: log 5). -/
def Obligations.ScanTonesModesBC : Prop :=
  ∀ s : State,
    (s.fitValid = true → s.fitMode = .b → ∀ k, k < 3 * (320 * 240) →
      canvasCell s (0x02000000 + k) = memByte s (0x02000000 + k)) ∧
    (s.fitValid = true → s.fitMode = .c → ∀ k, k < 3 * (640 * 496) →
      canvasCell s (0x02000000 + k) = memByte s (0x02000000 + k)) ∧
    (s.fitMode = .b →
      ∀ r, r < 240 →
        (scanTones s .b)[644 * r]? = some (plainTone 1200 9) ∧
        (scanTones s .b)[644 * r + 1]? = some (plainTone 1500 3) ∧
        (scanTones s .b)[644 * r + 322]? =
          some { freq := f64OfNat (if r % 2 = 0 then 1500 else 2300), dur := f64Lit 45 10, phi := none } ∧
        (scanTones s .b)[644 * r + 323]? = some { freq := f64OfNat 1900, dur := f64Lit 15 10, phi := none } ∧
        ∀ x, x < 320 →
          (scanTones s .b)[644 * r + 2 + x]? = some (pixelTone (pixelY s 320 x r) 275 1000) ∧
          (scanTones s .b)[644 * r + 324 + x]? = some (pixelTone
            (if r % 2 = 0 then chromaAvg (pixelRY s 320 x r) (pixelRY s 320 x (if r = 239 then r else r + 1))
             else chromaAvg (pixelBY s 320 x r) (pixelBY s 320 x (if r = 239 then r else r + 1))) 1375 10000)) ∧
    (s.fitMode = .c →
      ∀ p, p < 248 →
        (scanTones s .c)[2562 * p]? = some (plainTone 1200 20) ∧
        (scanTones s .c)[2562 * p + 1]? = some { freq := f64OfNat 1500, dur := f64Lit 208 100, phi := none } ∧
        ∀ x, x < 640 →
          (scanTones s .c)[2562 * p + 2 + x]? = some (pixelTone (pixelY s 640 x (2 * p)) 19 100) ∧
          (scanTones s .c)[2562 * p + 642 + x]? = some (pixelTone
            (chromaAvg (pixelRY s 640 x (2 * p)) (pixelRY s 640 x (2 * p + 1))) 19 100) ∧
          (scanTones s .c)[2562 * p + 1282 + x]? = some (pixelTone
            (chromaAvg (pixelBY s 640 x (2 * p)) (pixelBY s 640 x (2 * p + 1))) 19 100) ∧
          (scanTones s .c)[2562 * p + 1922 + x]? = some (pixelTone (pixelY s 640 x (2 * p + 1)) 19 100))

/-- spec/90_conflicts.md C2 and the corner cases of spec/44_scan_engines.md R98 to R101: on a black canvas modes A and D
send every pixel at 1500 Hz, modes B and C send every luminance pixel at 1550.1960784 Hz and every chroma pixel at
1901.5686272 Hz, each at its place in the scan, and no scan sends a frequency beside these and its fixed tones'
(dimensions: log 5). -/
def Obligations.BlackCanvasTones : Prop :=
  ∀ (s : State) (md : Mode), s.fitMode = md →
    (∀ k, k < 3 * (Config.modeW md * Config.modeH md) → canvasCell s (0x02000000 + k) = 0#8) →
    (∀ tone ∈ scanTones s md,
      tone.freq ∈ [f64OfNat 1200, f64OfNat 1500] ∨
      ((md = .b ∨ md = .c) ∧
        tone.freq ∈ [f64OfNat 1900, f64OfNat 2300, f64Lit 15501960784 10000000, f64Lit 19015686272 10000000])) ∧
    (md = .a → ∀ r x, r < 256 → x < 320 → ∀ k ∈ [1, 322, 644],
      (scanTones s .a)[1 + 964 * r + k + x]? =
        some { freq := f64OfNat 1500, dur := f64Lit 108 100, phi := none }) ∧
    (md = .d → ∀ r x, r < 256 → x < 320 → ∀ k ∈ [2, 323, 644],
      (scanTones s .d)[965 * r + k + x]? =
        some { freq := f64OfNat 1500, dur := f64Lit 4576 10000, phi := none }) ∧
    (md = .b → ∀ r x, r < 240 → x < 320 →
      (scanTones s .b)[644 * r + 2 + x]? =
        some { freq := f64Lit 15501960784 10000000, dur := f64Lit 275 1000, phi := none } ∧
      (scanTones s .b)[644 * r + 324 + x]? =
        some { freq := f64Lit 19015686272 10000000, dur := f64Lit 1375 10000, phi := none }) ∧
    (md = .c → ∀ p x, p < 248 → x < 640 →
      (∀ k ∈ [2, 1922], (scanTones s .c)[2562 * p + k + x]? =
        some { freq := f64Lit 15501960784 10000000, dur := f64Lit 19 100, phi := none }) ∧
      (∀ k ∈ [642, 1282], (scanTones s .c)[2562 * p + k + x]? =
        some { freq := f64Lit 19015686272 10000000, dur := f64Lit 19 100, phi := none }))

/-- spec/44_scan_engines.md R98: the scan of mode A starts at phase 0, so its samples do not depend on the sine and
cosine the synthesizer held before. -/
def Obligations.ModeAStartsAtPhaseZero : Prop :=
  ∀ (s : State) (sr : Binary64) (syn syn' : Syn), syn.carry = syn'.carry →
    emitTones sr syn (scanTones s .a) = emitTones sr syn' (scanTones s .a)

/-- spec/43_image_fitter.md R94: the fit laws, for any source and target. -/
def Obligations.FitLaws : Prop :=
  ∀ tw th sw sh nw nh left top right bottom : Nat, 1 ≤ tw → 1 ≤ th → 1 ≤ sw → 1 ≤ sh →
    (nw, nh) = scaledDims tw th sw sh → left = centreOffset tw nw → top = centreOffset th nh →
    right = tw - left - nw → bottom = th - top - nh →
    1 ≤ nw ∧ nw ≤ tw ∧ 1 ≤ nh ∧ nh ≤ th ∧ left + nw + right = tw ∧ top + nh + bottom = th ∧
    left ≤ right ∧ right ≤ left + 1 ∧ top ≤ bottom ∧ bottom ≤ top + 1 ∧
    (tw * sh ≤ th * sw → left = 0 ∧ right = 0) ∧ (th * sw ≤ tw * sh → top = 0 ∧ bottom = 0)
end

