-- ==== Sys2Proof/Laws/Float.lean ====
section
/-! SUPPORT. Laws of the binary64 arithmetic: rounding is monotone and exact on magnitudes a binary64 can hold, packing
and reading a magnitude are inverse, and what the operations do on numbers that are not negative. -/

namespace Sys2Proof.Machine

/-! ### Rounding to a natural number -/

theorem div_le_rneDiv (a d : Nat) : a / d ≤ rneDiv a d := by
  unfold rneDiv; simp only []; split_ifs <;> omega

theorem rneDiv_le_succ (a d : Nat) : rneDiv a d ≤ a / d + 1 := by
  unfold rneDiv; simp only []; split_ifs <;> omega

theorem rneDiv_mul_self (k d : Nat) (hd : 0 < d) : rneDiv (k * d) d = k := by
  simp [rneDiv, Nat.mul_div_cancel _ hd, hd]

theorem rneDiv_mono {a b d : Nat} (h : a ≤ b) : rneDiv a d ≤ rneDiv b d := by
  rcases Nat.eq_zero_or_pos d with rfl | hd
  · simp [rneDiv]; split_ifs <;> omega
  have hq : a / d ≤ b / d := Nat.div_le_div_right h
  rcases Nat.lt_or_ge (a / d) (b / d) with hlt | hge
  · calc rneDiv a d ≤ a / d + 1 := rneDiv_le_succ a d
      _ ≤ b / d := hlt
      _ ≤ rneDiv b d := div_le_rneDiv b d
  · have heq : a / d = b / d := le_antisymm hq hge
    have ha := Nat.div_add_mod a d
    have hb := Nat.div_add_mod b d
    rw [heq] at ha
    have hr : a % d ≤ b % d := by omega
    unfold rneDiv
    simp only [heq]
    split_ifs <;> omega

/-! ### Magnitudes a binary64 can hold -/

/-- A magnitude (in units 2^-1074) with at most 53 significant bits. -/
def F64Rep (m : Nat) : Prop := f64Ulp m ∣ m

theorem f64LogStep_eq (k : Nat) {n : Nat} (h : n < 2 ^ 2 ^ k) : f64LogStep k n = Nat.log2 n := by
  induction k generalizing n with
  | zero =>
    have : n = 0 ∨ n = 1 := by have : n < 2 := h; omega
    rcases this with rfl | rfl <;> decide
  | succ k ih =>
    unfold f64LogStep
    rcases Nat.lt_or_ge n (2 ^ 2 ^ k) with hlt | hge
    · rw [show Nat.ble _ n = false from by rw [Bool.eq_false_iff, ne_eq, Nat.ble_eq]; omega, cond_false, ih hlt]
    · rw [show Nat.ble _ n = true from by rw [Nat.ble_eq]; exact hge, cond_true]
      have hp : 0 < 2 ^ 2 ^ k := Nat.two_pow_pos _
      have hn : n ≠ 0 := by omega
      have hd : n / 2 ^ 2 ^ k ≠ 0 := by
        have := (Nat.one_le_div_iff hp).2 hge; omega
      rw [ih (by rw [Nat.div_lt_iff_lt_mul hp, ← pow_add, ← Nat.two_mul, ← Nat.pow_succ']; exact h)]
      symm
      rw [Nat.log2_eq_iff hn]
      have h1 := Nat.log2_self_le hd
      have h2 := Nat.lt_log2_self (n := n / 2 ^ 2 ^ k)
      rw [Nat.le_div_iff_mul_le hp, ← pow_add] at h1
      rw [Nat.div_lt_iff_lt_mul hp, ← pow_add] at h2
      refine ⟨by rw [Nat.add_comm]; exact h1, ?_⟩
      calc n < _ := h2
        _ = _ := by congr 1; omega

/-- The model's logarithm is the library's. -/
theorem f64Log_eq (n : Nat) : f64Log n = Nat.log2 n := by
  unfold f64Log
  rcases Nat.lt_or_ge n (2 ^ 2 ^ 13) with hlt | hge
  · rw [show Nat.ble _ n = false from by rw [Bool.eq_false_iff, ne_eq, Nat.ble_eq]; omega, cond_false, f64LogStep_eq 13 hlt]
  · rw [show Nat.ble _ n = true from by rw [Nat.ble_eq]; exact hge, cond_true]

theorem f64Ulp_eq (q : Nat) : f64Ulp q = 2 ^ (Nat.log2 q - 52) := by rw [f64Ulp, f64Log_eq]

theorem f64Ulp_pos (q : Nat) : 0 < f64Ulp q := Nat.two_pow_pos _

theorem f64Ulp_eq_one {q : Nat} (h : q < 2 ^ 53) : f64Ulp q = 1 := by
  simp only [f64Ulp_eq]
  rcases Nat.eq_zero_or_pos q with rfl | hq
  · simp
  · have : Nat.log2 q < 53 := (Nat.log2_lt hq.ne').2 h
    have : Nat.log2 q - 52 = 0 := by omega
    simp [this]

theorem F64Rep.of_lt {m : Nat} (h : m < 2 ^ 53) : F64Rep m := by
  simp [F64Rep, f64Ulp_eq_one h]

theorem log2_eq_of_bounds {m l : Nat} (h1 : 2 ^ l ≤ m) (h2 : m < 2 ^ (l + 1)) : Nat.log2 m = l := by
  have hm : m ≠ 0 := by have := Nat.two_pow_pos l; omega
  have a := (Nat.le_log2 hm).2 h1
  have b := (Nat.log2_lt hm).2 h2
  omega

theorem two_pow_log2_le {m : Nat} (h : m ≠ 0) : 2 ^ Nat.log2 m ≤ m := (Nat.le_log2 h).1 le_rfl

theorem lt_two_pow_log2_succ (m : Nat) : m < 2 ^ (Nat.log2 m + 1) := Nat.lt_log2_self

/-- A 53-bit number times a power of two can be held. -/
theorem F64Rep.mul_pow {j : Nat} (hj : j ≤ 2 ^ 53) (e : Nat) : F64Rep (j * 2 ^ e) := by
  rcases Nat.eq_zero_or_pos j with rfl | hpos
  · exact F64Rep.of_lt (by simp)
  unfold F64Rep; rw [f64Ulp_eq]
  have hl : Nat.log2 (j * 2 ^ e) = Nat.log2 j + e := by
    apply log2_eq_of_bounds
    · rw [pow_add]; exact Nat.mul_le_mul_right _ (two_pow_log2_le hpos.ne')
    · have := lt_two_pow_log2_succ j
      calc j * 2 ^ e < 2 ^ (Nat.log2 j + 1) * 2 ^ e := Nat.mul_lt_mul_of_pos_right this (Nat.two_pow_pos e)
        _ = 2 ^ (Nat.log2 j + e + 1) := by rw [← pow_add]; congr 1; omega
  rw [hl]
  rcases Nat.lt_or_ge j (2 ^ 53) with hlt | hge
  · have : Nat.log2 j < 53 := (Nat.log2_lt hpos.ne').2 hlt
    exact Dvd.dvd.mul_left (pow_dvd_pow 2 (by omega)) j
  · have hj' : j = 2 ^ 53 := le_antisymm hj hge
    subst hj'
    rw [Nat.log2_two_pow, ← pow_add]
    exact pow_dvd_pow 2 (by omega)

/-- Every magnitude that can be held is a number of at most 53 bits times its ulp. -/
theorem F64Rep.exists_mul {m : Nat} (h : F64Rep m) : ∃ j, j < 2 ^ 53 ∧ m = j * f64Ulp m := by
  obtain ⟨j, hj⟩ := h
  refine ⟨j, ?_, by rw [Nat.mul_comm]; exact hj⟩
  rcases Nat.lt_or_ge m (2 ^ 53) with hlt | hge
  · rw [f64Ulp_eq_one hlt] at hj; omega
  · have hm : m ≠ 0 := by have := Nat.two_pow_pos 53; omega
    have hl : 53 ≤ Nat.log2 m := (Nat.le_log2 hm).2 hge
    have hlt := lt_two_pow_log2_succ m
    by_contra hcon
    have h1 : 2 ^ 53 * f64Ulp m ≤ m := by
      calc 2 ^ 53 * f64Ulp m ≤ j * f64Ulp m := Nat.mul_le_mul_right _ (by omega)
        _ = m := by rw [Nat.mul_comm]; exact hj.symm
    rw [f64Ulp_eq] at h1
    rw [← pow_add] at h1
    have : 53 + (Nat.log2 m - 52) = Nat.log2 m + 1 := by omega
    rw [this] at h1
    omega

theorem f64Ulp_le_of_le {a b : Nat} (h : a ≤ b) : f64Ulp a ≤ f64Ulp b := by
  simp only [f64Ulp_eq]
  apply Nat.pow_le_pow_right (by omega)
  have : Nat.log2 a ≤ Nat.log2 b := by
    rcases Nat.eq_zero_or_pos a with rfl | ha
    · simp
    · exact (Nat.le_log2 (by omega)).2 (le_trans (two_pow_log2_le ha.ne') h)
  omega

/-- The quotient of a magnitude by its ulp has at most 53 bits. -/
theorem div_f64Ulp_lt (q : Nat) : q / f64Ulp q < 2 ^ 53 := by
  rw [Nat.div_lt_iff_lt_mul (f64Ulp_pos q)]
  simp only [f64Ulp_eq]
  rw [← pow_add]
  calc q < 2 ^ (Nat.log2 q + 1) := lt_two_pow_log2_succ q
    _ ≤ 2 ^ (53 + (Nat.log2 q - 52)) := Nat.pow_le_pow_right (by omega) (by omega)

/-! ### Rounding to a magnitude -/

theorem f64RoundMag_rep (num den : Nat) : F64Rep (f64RoundMag num den) := by
  unfold f64RoundMag
  have hj : rneDiv num (den * f64Ulp (num / den)) ≤ 2 ^ 53 := by
    have h1 := rneDiv_le_succ num (den * f64Ulp (num / den))
    have h2 := div_f64Ulp_lt (num / den)
    rw [Nat.div_div_eq_div_mul] at h2
    omega
  exact F64Rep.mul_pow hj _

/-- Rounding is exact on a magnitude that can be held. -/
theorem f64RoundMag_exact {m den : Nat} (hm : F64Rep m) (hd : 0 < den) : f64RoundMag (m * den) den = m := by
  unfold f64RoundMag
  rw [Nat.mul_div_cancel _ hd]
  obtain ⟨j, hj⟩ := hm
  have : m * den = j * (den * f64Ulp m) := by
    calc m * den = (f64Ulp m * j) * den := by rw [← hj]
      _ = j * (den * f64Ulp m) := by ring
  rw [this, rneDiv_mul_self _ _ (Nat.mul_pos hd (f64Ulp_pos m)), Nat.mul_comm]
  exact hj.symm

theorem f64RoundMag_one {m : Nat} (hm : F64Rep m) : f64RoundMag m 1 = m := by
  simpa using f64RoundMag_exact hm Nat.one_pos

/-- Rounding is monotone in the numerator. -/
theorem f64RoundMag_mono {a b den : Nat} (h : a ≤ b) : f64RoundMag a den ≤ f64RoundMag b den := by
  rcases Nat.eq_zero_or_pos den with rfl | hd
  · unfold f64RoundMag
    simp only [Nat.div_zero, Nat.zero_mul]
    exact Nat.mul_le_mul_right _ (rneDiv_mono h)
  have hq : a / den ≤ b / den := Nat.div_le_div_right h
  rcases (f64Ulp_le_of_le hq).eq_or_lt with heq | hlt
  · unfold f64RoundMag
    rw [heq]
    exact Nat.mul_le_mul_right _ (rneDiv_mono h)
  · -- the two magnitudes lie in different binades
    unfold f64RoundMag
    have hlog : Nat.log2 (a / den) < Nat.log2 (b / den) ∧ 52 < Nat.log2 (b / den) := by
      rw [f64Ulp_eq, f64Ulp_eq] at hlt
      have := (Nat.pow_lt_pow_iff_right (by omega : 1 < 2)).1 hlt
      omega
    set qa := a / den with hqa
    set qb := b / den with hqb
    have hb0 : qb ≠ 0 := by
      intro h0; rw [h0] at hlog; simp at hlog
    have hlow : 2 ^ Nat.log2 qb ≤ rneDiv b (den * f64Ulp qb) * f64Ulp qb := by
      have h1 : 2 ^ 52 ≤ qb / f64Ulp qb := by
        rw [Nat.le_div_iff_mul_le (f64Ulp_pos qb)]
        simp only [f64Ulp_eq]
        rw [← pow_add]
        calc 2 ^ (52 + (Nat.log2 qb - 52)) = 2 ^ Nat.log2 qb := by congr 1; omega
          _ ≤ qb := two_pow_log2_le hb0
      have h2 : qb / f64Ulp qb = b / (den * f64Ulp qb) := by rw [hqb, Nat.div_div_eq_div_mul]
      have h3 := div_le_rneDiv b (den * f64Ulp qb)
      calc 2 ^ Nat.log2 qb = 2 ^ 52 * f64Ulp qb := by
            simp only [f64Ulp_eq]; rw [← pow_add]; congr 1; omega
        _ ≤ _ := Nat.mul_le_mul_right _ (by omega)
    have hhigh : rneDiv a (den * f64Ulp qa) * f64Ulp qa ≤ 2 ^ (max (Nat.log2 qa + 1) 53) := by
      have h1 := rneDiv_le_succ a (den * f64Ulp qa)
      have h2 := div_f64Ulp_lt qa
      rw [hqa, Nat.div_div_eq_div_mul, ← hqa] at h2
      calc rneDiv a (den * f64Ulp qa) * f64Ulp qa ≤ 2 ^ 53 * f64Ulp qa := Nat.mul_le_mul_right _ (by omega)
        _ = 2 ^ (53 + (Nat.log2 qa - 52)) := by simp only [f64Ulp_eq]; rw [← pow_add]
        _ ≤ 2 ^ (max (Nat.log2 qa + 1) 53) := Nat.pow_le_pow_right (by omega) (by omega)
    calc _ ≤ 2 ^ (max (Nat.log2 qa + 1) 53) := hhigh
      _ ≤ 2 ^ Nat.log2 qb := Nat.pow_le_pow_right (by omega) (by omega)
      _ ≤ _ := hlow

/-- A bound that can be held is kept by rounding. -/
theorem f64RoundMag_le {a m den : Nat} (hd : 0 < den) (hm : F64Rep m) (h : a ≤ m * den) : f64RoundMag a den ≤ m := by
  calc f64RoundMag a den ≤ f64RoundMag (m * den) den := f64RoundMag_mono h
    _ = m := f64RoundMag_exact hm hd

theorem le_f64RoundMag {a m den : Nat} (hd : 0 < den) (hm : F64Rep m) (h : m * den ≤ a) : m ≤ f64RoundMag a den := by
  calc m = f64RoundMag (m * den) den := (f64RoundMag_exact hm hd).symm
    _ ≤ f64RoundMag a den := f64RoundMag_mono h

theorem f64RoundMag_zero (den : Nat) : f64RoundMag 0 den = 0 := by
  unfold f64RoundMag rneDiv
  simp

/-! ### Reading and packing an encoding -/

theorem f64Exp_lt (x : Binary64) : f64Exp x < 2048 := Nat.mod_lt _ (by norm_num)
theorem f64Frac_lt (x : Binary64) : f64Frac x < 2 ^ 52 := Nat.mod_lt _ (by norm_num)

/-- An encoding is its sign, exponent and fraction. -/
theorem f64_toNat_eq (x : Binary64) :
    x.toNat = (if f64Sign x then 2 ^ 63 else 0) + f64Exp x * 2 ^ 52 + f64Frac x := by
  have hx := x.isLt
  simp only [f64Sign, f64Exp, f64Frac, decide_eq_true_eq]
  split_ifs <;> omega

theorem f64Mag_rep (x : Binary64) : F64Rep (f64Mag x) := by
  have hf := f64Frac_lt x
  unfold f64Mag
  split_ifs
  · exact F64Rep.of_lt (by omega)
  · exact F64Rep.mul_pow (by omega) _

theorem f64Mag_lt_top {x : Binary64} (h : f64IsFinite x = true) : f64Mag x < f64Top := by
  have hf := f64Frac_lt x
  have he := f64Exp_lt x
  have hne : f64Exp x ≠ 2047 := by simpa [f64IsFinite] using h
  unfold f64Mag f64Top
  split_ifs with h0
  · exact lt_of_lt_of_le hf (Nat.pow_le_pow_right (by omega) (by omega))
  · calc (2 ^ 52 + f64Frac x) * 2 ^ (f64Exp x - 1) < 2 ^ 53 * 2 ^ (f64Exp x - 1) :=
          Nat.mul_lt_mul_of_pos_right (by omega) (Nat.two_pow_pos _)
      _ = 2 ^ (53 + (f64Exp x - 1)) := by rw [pow_add]
      _ ≤ 2 ^ 2098 := Nat.pow_le_pow_right (by norm_num) (by omega)

theorem f64Mag_of_isInf {x : Binary64} (h : f64IsInf x = true) : f64Mag x = f64Top := by
  simp only [f64IsInf, Bool.and_eq_true, beq_iff_eq] at h
  unfold f64Mag f64Top
  rw [h.1, h.2, if_neg (by omega), Nat.add_zero, ← pow_add]

/-- The exponent and fraction bits of a magnitude below the top. -/
def f64Body (mag : Nat) : Nat :=
  if mag < 2 ^ 52 then mag else (Nat.log2 mag - 51) * 2 ^ 52 + (mag / 2 ^ (Nat.log2 mag - 52) - 2 ^ 52)

theorem f64One_def : f64One = 2 ^ 1074 := by unfold f64One; rfl
theorem f64Top_def : f64Top = 2 ^ 2098 := by unfold f64Top; rfl

theorem log2_lt_of_lt_top {m : Nat} (hm : m ≠ 0) (h : m < f64Top) : Nat.log2 m < 2098 :=
  (Nat.log2_lt hm).2 (lt_of_lt_of_eq h f64Top_def)

/-- The leading 53 bits of a magnitude with at least 53 bits. -/
theorem div_pow_log2_bounds {m : Nat} (h : 2 ^ 52 ≤ m) :
    2 ^ 52 ≤ m / 2 ^ (Nat.log2 m - 52) ∧ m / 2 ^ (Nat.log2 m - 52) < 2 ^ 53 := by
  have hm : m ≠ 0 := by have := Nat.two_pow_pos 52; omega
  have hl : 52 ≤ Nat.log2 m := (Nat.le_log2 hm).2 h
  constructor
  · rw [Nat.le_div_iff_mul_le (Nat.two_pow_pos _), ← pow_add]
    calc 2 ^ (52 + (Nat.log2 m - 52)) = 2 ^ Nat.log2 m := by congr 1; omega
      _ ≤ m := two_pow_log2_le hm
  · rw [Nat.div_lt_iff_lt_mul (Nat.two_pow_pos _), ← pow_add]
    calc m < 2 ^ (Nat.log2 m + 1) := lt_two_pow_log2_succ m
      _ = 2 ^ (53 + (Nat.log2 m - 52)) := by congr 1; omega

theorem f64Body_lt {m : Nat} (h : m < f64Top) : f64Body m < 2047 * 2 ^ 52 := by
  unfold f64Body
  split_ifs with hs
  · calc m < 2 ^ 52 := hs
      _ ≤ 2047 * 2 ^ 52 := by norm_num
  · have hm : 2 ^ 52 ≤ m := by omega
    obtain ⟨h1, h2⟩ := div_pow_log2_bounds hm
    have hl := log2_lt_of_lt_top (by have := Nat.two_pow_pos 52; omega) h
    have : (Nat.log2 m - 51) ≤ 2046 := by omega
    have := Nat.mul_le_mul_right (2 ^ 52) this
    omega

theorem f64Pack_toNat {neg : Bool} {m : Nat} (h : m < f64Top) :
    (f64Pack neg m).toNat = (if neg then 2 ^ 63 else 0) + f64Body m := by
  have hb := f64Body_lt h
  have : f64Pack neg m = BitVec.ofNat 64 (if neg then 2 ^ 63 + f64Body m else f64Body m) := by
    unfold f64Pack f64Body
    rw [if_neg (by omega), f64Log_eq]
  rw [this, BitVec.toNat_ofNat]
  cases neg
  · simp only [Bool.false_eq_true, if_false]; omega
  · simp only [if_true]; omega

theorem f64Pack_top_toNat {neg : Bool} {m : Nat} (h : f64Top ≤ m) :
    (f64Pack neg m).toNat = (if neg then 2 ^ 63 else 0) + 2047 * 2 ^ 52 := by
  unfold f64Pack
  rw [if_pos h, BitVec.toNat_ofNat]
  cases neg <;> simp

theorem f64Sign_pack (neg : Bool) (m : Nat) : f64Sign (f64Pack neg m) = neg := by
  unfold f64Sign
  rcases Nat.lt_or_ge m f64Top with h | h
  · have hb := f64Body_lt h
    rw [f64Pack_toNat h]
    cases neg
    · simp; omega
    · simp
  · rw [f64Pack_top_toNat h]
    cases neg <;> simp

theorem f64Exp_pack {neg : Bool} {m : Nat} (h : m < f64Top) :
    f64Exp (f64Pack neg m) = f64Body m / 2 ^ 52 := by
  have hb := f64Body_lt h
  unfold f64Exp
  rw [f64Pack_toNat h]
  cases neg
  · simp only [Bool.false_eq_true, if_false]; omega
  · simp only [if_true]; omega

theorem f64Frac_pack {neg : Bool} {m : Nat} (h : m < f64Top) :
    f64Frac (f64Pack neg m) = f64Body m % 2 ^ 52 := by
  have hb := f64Body_lt h
  unfold f64Frac
  rw [f64Pack_toNat h]
  cases neg
  · simp only [Bool.false_eq_true, if_false]; omega
  · simp only [if_true]; omega

theorem f64IsFinite_pack {neg : Bool} {m : Nat} (h : m < f64Top) : f64IsFinite (f64Pack neg m) = true := by
  have hb := f64Body_lt h
  unfold f64IsFinite
  rw [f64Exp_pack h]
  simp only [bne_iff_ne, ne_eq]
  omega

theorem f64IsInf_pack_top {neg : Bool} {m : Nat} (h : f64Top ≤ m) : f64IsInf (f64Pack neg m) = true := by
  unfold f64IsInf f64Exp f64Frac
  rw [f64Pack_top_toNat h]
  cases neg <;> simp

theorem f64IsNaN_pack (neg : Bool) (m : Nat) : f64IsNaN (f64Pack neg m) = false := by
  rcases Nat.lt_or_ge m f64Top with h | h
  · have := f64IsFinite_pack (neg := neg) h
    unfold f64IsFinite at this
    unfold f64IsNaN
    simp only [bne_iff_ne, ne_eq] at this
    simp [this]
  · have := f64IsInf_pack_top (neg := neg) h
    unfold f64IsInf at this
    unfold f64IsNaN
    simp only [Bool.and_eq_true, beq_iff_eq] at this
    simp [this.2]

/-- Reading back a packed magnitude. -/
theorem f64Mag_pack {neg : Bool} {m : Nat} (hr : F64Rep m) (h : m < f64Top) : f64Mag (f64Pack neg m) = m := by
  unfold f64Mag
  rw [f64Exp_pack h, f64Frac_pack h]
  unfold f64Body
  split_ifs with h1 h2 h2
  · omega
  · omega
  · exfalso
    have hm : 2 ^ 52 ≤ m := by omega
    have hl : 52 ≤ Nat.log2 m := (Nat.le_log2 (by have := Nat.two_pow_pos 52; omega)).2 hm
    have : 1 ≤ Nat.log2 m - 51 := by omega
    have := Nat.mul_le_mul_right (2 ^ 52) this
    omega
  · have hm : 2 ^ 52 ≤ m := by omega
    have hl : 52 ≤ Nat.log2 m := (Nat.le_log2 (by have := Nat.two_pow_pos 52; omega)).2 hm
    obtain ⟨b1, b2⟩ := div_pow_log2_bounds hm
    have hdvd : 2 ^ (Nat.log2 m - 52) ∣ m := by rw [← f64Ulp_eq]; exact hr
    have e1 : ((Nat.log2 m - 51) * 2 ^ 52 + (m / 2 ^ (Nat.log2 m - 52) - 2 ^ 52)) / 2 ^ 52 = Nat.log2 m - 51 := by
      omega
    have e2 : ((Nat.log2 m - 51) * 2 ^ 52 + (m / 2 ^ (Nat.log2 m - 52) - 2 ^ 52)) % 2 ^ 52
        = m / 2 ^ (Nat.log2 m - 52) - 2 ^ 52 := by omega
    rw [e1, e2]
    have e3 : 2 ^ 52 + (m / 2 ^ (Nat.log2 m - 52) - 2 ^ 52) = m / 2 ^ (Nat.log2 m - 52) := by omega
    have e4 : Nat.log2 m - 51 - 1 = Nat.log2 m - 52 := by omega
    rw [e3, e4]
    exact Nat.div_mul_cancel hdvd

theorem f64Mag_pack_top {neg : Bool} {m : Nat} (h : f64Top ≤ m) : f64Mag (f64Pack neg m) = f64Top :=
  f64Mag_of_isInf (f64IsInf_pack_top h)

/-- A finite number is the packing of its sign and magnitude. -/
theorem f64Pack_mag {x : Binary64} (h : f64IsFinite x = true) : f64Pack (f64Sign x) (f64Mag x) = x := by
  have hlt := f64Mag_lt_top h
  apply BitVec.eq_of_toNat_eq
  rw [f64Pack_toNat hlt]
  conv_rhs => rw [f64_toNat_eq x]
  have hf := f64Frac_lt x
  have he := f64Exp_lt x
  suffices hb : f64Body (f64Mag x) = f64Exp x * 2 ^ 52 + f64Frac x by rw [hb]; omega
  unfold f64Body f64Mag
  by_cases h0 : f64Exp x = 0
  · rw [if_pos h0, if_pos hf, h0]; omega
  · rw [if_neg h0]
    have hge : 2 ^ 52 ≤ (2 ^ 52 + f64Frac x) * 2 ^ (f64Exp x - 1) := by
      have := Nat.mul_le_mul (Nat.le_add_right (2 ^ 52) (f64Frac x)) (Nat.two_pow_pos (f64Exp x - 1))
      simpa using this
    rw [if_neg (by omega)]
    have hl : Nat.log2 ((2 ^ 52 + f64Frac x) * 2 ^ (f64Exp x - 1)) = 52 + (f64Exp x - 1) := by
      apply log2_eq_of_bounds
      · rw [pow_add]; exact Nat.mul_le_mul_right _ (by omega)
      · have e : 52 + (f64Exp x - 1) + 1 = 53 + (f64Exp x - 1) := by omega
        rw [e, pow_add]
        exact Nat.mul_lt_mul_of_pos_right (by omega) (Nat.two_pow_pos _)
    rw [hl]
    have e1 : 52 + (f64Exp x - 1) - 52 = f64Exp x - 1 := by omega
    have e2 : 52 + (f64Exp x - 1) - 51 = f64Exp x := by omega
    rw [e1, e2, Nat.mul_div_cancel _ (Nat.two_pow_pos _)]
    omega

/-! ### Classes of numbers -/

theorem f64IsNaN_of_finite {x : Binary64} (h : f64IsFinite x = true) : f64IsNaN x = false := by
  simp only [f64IsFinite, bne_iff_ne, ne_eq] at h
  simp [f64IsNaN, h]

theorem f64IsInf_of_finite {x : Binary64} (h : f64IsFinite x = true) : f64IsInf x = false := by
  simp only [f64IsFinite, bne_iff_ne, ne_eq] at h
  simp [f64IsInf, h]

/-- A number that is no NaN and not finite is an infinity. -/
theorem f64IsInf_of_not {x : Binary64} (h1 : f64IsNaN x = false) (h2 : f64IsFinite x = false) : f64IsInf x = true := by
  simp only [f64IsFinite, bne_eq_false_iff_eq] at h2
  simp only [f64IsNaN, h2, beq_self_eq_true, Bool.true_and, bne_eq_false_iff_eq] at h1
  simp [f64IsInf, h1, h2]

theorem f64Key_nonneg {x : Binary64} (h : f64Sign x = false) : f64Key x = (f64Mag x : Int) := by simp [f64Key, h]

theorem f64Key_pack {neg : Bool} {m : Nat} (hr : F64Rep m) (h : m < f64Top) :
    f64Key (f64Pack neg m) = if neg then -(m : Int) else (m : Int) := by
  simp [f64Key, f64Sign_pack, f64Mag_pack hr h]

/-! ### Operations on finite numbers -/

theorem f64Add_finite {x y : Binary64} (hx : f64IsFinite x = true) (hy : f64IsFinite y = true)
    (h : f64Key x + f64Key y ≠ 0) :
    f64Add x y = f64Pack (decide (f64Key x + f64Key y < 0)) (f64RoundMag (f64Key x + f64Key y).natAbs 1) := by
  simp [f64Add, f64IsNaN_of_finite hx, f64IsNaN_of_finite hy, f64IsInf_of_finite hx, f64IsInf_of_finite hy, h]

theorem f64Add_finite_zero {x y : Binary64} (hx : f64IsFinite x = true) (hy : f64IsFinite y = true)
    (h : f64Key x + f64Key y = 0) : f64Add x y = f64Pack (f64Sign x && f64Sign y) 0 := by
  simp [f64Add, f64IsNaN_of_finite hx, f64IsNaN_of_finite hy, f64IsInf_of_finite hx, f64IsInf_of_finite hy, h, f64Zero]

/-- The sum of two finite numbers that are not negative. -/
theorem f64Add_nonneg {x y : Binary64} (hx : f64IsFinite x = true) (hy : f64IsFinite y = true)
    (sx : f64Sign x = false) (sy : f64Sign y = false) :
    f64Add x y = f64Pack false (f64RoundMag (f64Mag x + f64Mag y) 1) := by
  by_cases h : f64Key x + f64Key y = 0
  · rw [f64Add_finite_zero hx hy h]
    rw [f64Key_nonneg sx, f64Key_nonneg sy] at h
    have : f64Mag x + f64Mag y = 0 := by omega
    simp [this, f64RoundMag_zero, sx]
  · rw [f64Add_finite hx hy h]
    rw [f64Key_nonneg sx, f64Key_nonneg sy] at h ⊢
    have h1 : decide ((f64Mag x : Int) + (f64Mag y : Int) < 0) = false := by
      simp only [decide_eq_false_iff_not]; omega
    have h2 : ((f64Mag x : Int) + (f64Mag y : Int)).natAbs = f64Mag x + f64Mag y := by omega
    rw [h1, h2]

theorem f64Neg_toNat (x : Binary64) :
    (f64Neg x).toNat = if f64Sign x then x.toNat - 2 ^ 63 else x.toNat + 2 ^ 63 := by
  have hx := x.isLt
  unfold f64Neg
  rw [BitVec.toNat_add]
  simp only [f64Sign, decide_eq_true_eq, BitVec.toNat_ofNat]
  split_ifs <;> omega

theorem f64Sign_neg (x : Binary64) : f64Sign (f64Neg x) = !f64Sign x := by
  have hx := x.isLt
  have h := f64Neg_toNat x
  unfold f64Sign at *
  rw [h]
  by_cases hs : 2 ^ 63 ≤ x.toNat
  · simp only [hs, decide_true, if_true, Bool.not_true, decide_eq_false_iff_not]; omega
  · simp only [hs, decide_false, Bool.false_eq_true, if_false, Bool.not_false, decide_eq_true_eq]; omega

theorem f64Exp_neg (x : Binary64) : f64Exp (f64Neg x) = f64Exp x := by
  have hx := x.isLt
  have h := f64Neg_toNat x
  unfold f64Exp f64Sign at *
  rw [h]
  split_ifs with hs
  · simp only [decide_eq_true_eq] at hs; omega
  · omega

theorem f64Frac_neg (x : Binary64) : f64Frac (f64Neg x) = f64Frac x := by
  have hx := x.isLt
  have h := f64Neg_toNat x
  unfold f64Frac f64Sign at *
  rw [h]
  split_ifs with hs
  · simp only [decide_eq_true_eq] at hs; omega
  · omega

theorem f64Mag_neg (x : Binary64) : f64Mag (f64Neg x) = f64Mag x := by simp [f64Mag, f64Exp_neg, f64Frac_neg]
theorem f64IsFinite_neg (x : Binary64) : f64IsFinite (f64Neg x) = f64IsFinite x := by simp [f64IsFinite, f64Exp_neg]
theorem f64IsNaN_neg (x : Binary64) : f64IsNaN (f64Neg x) = f64IsNaN x := by simp [f64IsNaN, f64Exp_neg, f64Frac_neg]
theorem f64Key_neg (x : Binary64) : f64Key (f64Neg x) = -f64Key x := by
  unfold f64Key; rw [f64Sign_neg, f64Mag_neg]; cases f64Sign x <;> simp

/-- The difference of two finite numbers that are not negative, the first not smaller. -/
theorem f64Sub_nonneg {x y : Binary64} (hx : f64IsFinite x = true) (hy : f64IsFinite y = true)
    (sx : f64Sign x = false) (sy : f64Sign y = false) (hle : f64Mag y ≤ f64Mag x) :
    f64Sub x y = f64Pack false (f64RoundMag (f64Mag x - f64Mag y) 1) := by
  have hy' : f64IsFinite (f64Neg y) = true := by rw [f64IsFinite_neg]; exact hy
  unfold f64Sub
  by_cases h : f64Key x + f64Key (f64Neg y) = 0
  · rw [f64Add_finite_zero hx hy' h]
    rw [f64Key_neg, f64Key_nonneg sx, f64Key_nonneg sy] at h
    have : f64Mag x - f64Mag y = 0 := by omega
    simp [this, f64RoundMag_zero, sx]
  · rw [f64Add_finite hx hy' h]
    rw [f64Key_neg, f64Key_nonneg sx, f64Key_nonneg sy] at h ⊢
    have h1 : decide ((f64Mag x : Int) + -(f64Mag y : Int) < 0) = false := by
      simp only [decide_eq_false_iff_not]; omega
    have h2 : ((f64Mag x : Int) + -(f64Mag y : Int)).natAbs = f64Mag x - f64Mag y := by omega
    rw [h1, h2]

/-- The product of two finite numbers. -/
theorem f64Mul_finite {x y : Binary64} (hx : f64IsFinite x = true) (hy : f64IsFinite y = true) :
    f64Mul x y = f64Pack (f64Sign x != f64Sign y) (f64RoundMag (f64Mag x * f64Mag y) f64One) := by
  simp [f64Mul, f64IsNaN_of_finite hx, f64IsNaN_of_finite hy, f64IsInf_of_finite hx, f64IsInf_of_finite hy]

/-- The quotient of two finite numbers, the second not zero. -/
theorem f64Div_finite {x y : Binary64} (hx : f64IsFinite x = true) (hy : f64IsFinite y = true) (h0 : f64Mag y ≠ 0) :
    f64Div x y = f64Pack (f64Sign x != f64Sign y) (f64RoundMag (f64Mag x * f64One) (f64Mag y)) := by
  simp [f64Div, f64IsNaN_of_finite hx, f64IsNaN_of_finite hy, f64IsInf_of_finite hx, f64IsInf_of_finite hy, h0]

theorem f64One_pos : 0 < f64One := by rw [f64One_def]; exact Nat.two_pow_pos _
theorem f64Top_pos : 0 < f64Top := by rw [f64Top_def]; exact Nat.two_pow_pos _
theorem f64Top_eq : f64Top = 2 ^ 1024 * f64One := by
  unfold f64Top f64One; rw [← pow_add]
theorem f64One_rep : F64Rep f64One := by
  have := F64Rep.mul_pow (j := 1) (by norm_num) 1074
  rw [Nat.one_mul] at this
  rw [f64One_def]; exact this
theorem f64Top_rep : F64Rep f64Top := by
  have := F64Rep.mul_pow (j := 1) (by norm_num) 2098
  rw [Nat.one_mul] at this
  rw [f64Top_def]; exact this

/-! ### Integers -/

/-- A natural number below 2^53 is held exactly. -/
theorem f64OfNat_rep {n : Nat} (h : n ≤ 2 ^ 53) : F64Rep (n * f64One) := by
  rw [f64One_def]; exact F64Rep.mul_pow h _

theorem nat_mul_one_lt_top {n : Nat} (h : n < 2 ^ 1024) : n * f64One < f64Top := by
  rw [f64Top_eq]; exact Nat.mul_lt_mul_of_pos_right h f64One_pos

/-- The magnitude of an integer that a binary64 can hold. -/
theorem f64OfNat_pack {n : Nat} (hr : F64Rep (n * f64One)) : f64OfNat n = f64Pack false (n * f64One) := by
  unfold f64OfNat; rw [f64RoundMag_one hr]

theorem lt_1024_of_le_53 {n : Nat} (h : n ≤ 2 ^ 53) : n < 2 ^ 1024 :=
  lt_of_le_of_lt h (Nat.pow_lt_pow_right (by omega) (by omega))

theorem f64OfNat_finite {n : Nat} (h : n ≤ 2 ^ 53) : f64IsFinite (f64OfNat n) = true := by
  rw [f64OfNat_pack (f64OfNat_rep h)]
  exact f64IsFinite_pack (nat_mul_one_lt_top (lt_1024_of_le_53 h))

theorem f64OfNat_mag {n : Nat} (h : n ≤ 2 ^ 53) : f64Mag (f64OfNat n) = n * f64One := by
  rw [f64OfNat_pack (f64OfNat_rep h)]
  exact f64Mag_pack (f64OfNat_rep h) (nat_mul_one_lt_top (lt_1024_of_le_53 h))

theorem f64OfNat_sign (n : Nat) : f64Sign (f64OfNat n) = false := by
  unfold f64OfNat; exact f64Sign_pack _ _

/-- `floor` of a finite number that is not negative. -/
theorem f64FloorNat_nonneg {x : Binary64} (hx : f64IsFinite x = true) (sx : f64Sign x = false) :
    f64FloorNat x = f64Mag x / f64One := by simp [f64FloorNat, hx, sx]

/-- The integer part of a magnitude can be held. -/
theorem F64Rep.floor {m : Nat} (hm : F64Rep m) : F64Rep (m / f64One * f64One) := by
  obtain ⟨j, hj, hjm⟩ := hm.exists_mul
  rw [f64Ulp_eq] at hjm
  set e := Nat.log2 m - 52 with he
  rcases Nat.lt_or_ge e 1074 with hlt | hge
  · -- the integer part has no more bits than `j`
    have : m / f64One ≤ 2 ^ 53 := by
      have h1 : m ≤ 2 ^ 53 * f64One := by
        rw [hjm, f64One_def]
        exact Nat.mul_le_mul hj.le (Nat.pow_le_pow_right (by omega) (by omega))
      exact Nat.div_le_of_le_mul (by rw [Nat.mul_comm]; exact h1)
    rw [f64One_def] at this ⊢
    exact F64Rep.mul_pow this _
  · -- the magnitude is an integer
    have hd : f64One ∣ m := by
      rw [hjm, f64One_def]
      exact Dvd.dvd.mul_left (pow_dvd_pow 2 hge) j
    rw [Nat.div_mul_cancel hd]
    exact hm

/-- The fractional part of a magnitude can be held. -/
theorem F64Rep.fract {m : Nat} (hm : F64Rep m) : F64Rep (m - m / f64One * f64One) := by
  obtain ⟨j, hj, hjm⟩ := hm.exists_mul
  rw [f64Ulp_eq] at hjm
  set e := Nat.log2 m - 52 with he
  rcases Nat.lt_or_ge e 1074 with hlt | hge
  · have hone : f64One = 2 ^ (1074 - e) * 2 ^ e := by
      unfold f64One; rw [← pow_add]; congr 1; omega
    have hmul : m - m / f64One * f64One = (j - m / f64One * 2 ^ (1074 - e)) * 2 ^ e := by
      rw [Nat.sub_mul, ← hjm, Nat.mul_assoc, ← hone]
    rw [hmul]
    exact F64Rep.mul_pow (by omega) _
  · have hd : f64One ∣ m := by
      rw [hjm, f64One_def]
      exact Dvd.dvd.mul_left (pow_dvd_pow 2 hge) j
    rw [Nat.div_mul_cancel hd, Nat.sub_self]
    exact F64Rep.of_lt (by norm_num)

end Sys2Proof.Machine
end

