-- ==== Sys2Proof/Laws/Emit.lean ====
section
/-! SUPPORT. Laws of the synthesizer: the number of samples known in advance is the number emitted, lists of tones
compose, the carry stays below one (spec/41_synthesizer.md R64), and a run never exceeds the buffer. -/

namespace Sys2Proof.Machine

/-! ### Counting and composing -/

@[simp] theorem emitTone_length (sr : Binary64) (syn : Syn) (t : Tone) :
    (emitTone sr syn t).2.length = (toneCount sr t.dur syn.carry).1 := by simp [emitTone]

@[simp] theorem emitTone_carry (sr : Binary64) (syn : Syn) (t : Tone) :
    (emitTone sr syn t).1.carry = (toneCount sr t.dur syn.carry).2 := rfl

/-- The number of samples emitted is the number counted in advance. -/
theorem emitTones_length (sr : Binary64) (syn : Syn) (ts : List Tone) :
    (emitTones sr syn ts).2.length = countTones sr syn.carry ts := by
  induction ts generalizing syn with
  | nil => rfl
  | cons t ts ih => simp [emitTones, countTones, ih]

/-- The carry after a list of tones. -/
def endCarry (sr carry : Binary64) : List Tone → Binary64
  | [] => carry
  | t :: ts => endCarry sr (toneCount sr t.dur carry).2 ts

theorem emitTones_carry (sr : Binary64) (syn : Syn) (ts : List Tone) :
    (emitTones sr syn ts).1.carry = endCarry sr syn.carry ts := by
  induction ts generalizing syn with
  | nil => rfl
  | cons t ts ih => simp [emitTones, endCarry, ih]

/-- A list of tones is its first tone, then the rest from the state the first leaves (R62). -/
theorem emitTones_cons (sr : Binary64) (syn : Syn) (t : Tone) (ts : List Tone) :
    emitTones sr syn (t :: ts) =
      ((emitTones sr (emitTone sr syn t).1 ts).1,
       (emitTone sr syn t).2 ++ (emitTones sr (emitTone sr syn t).1 ts).2) := (rfl)

/-- Emitting two lists one after the other threads the synthesizer state (R102). -/
theorem emitTones_append (sr : Binary64) (syn : Syn) (as bs : List Tone) :
    emitTones sr syn (as ++ bs) =
      ((emitTones sr (emitTones sr syn as).1 bs).1,
       (emitTones sr syn as).2 ++ (emitTones sr (emitTones sr syn as).1 bs).2) := by
  induction as generalizing syn with
  | nil => rfl
  | cons t ts ih => simp [emitTones, ih]

theorem countTones_append (sr carry : Binary64) (as bs : List Tone) :
    countTones sr carry (as ++ bs) = countTones sr carry as + countTones sr (endCarry sr carry as) bs := by
  induction as generalizing carry with
  | nil => simp [countTones, endCarry]
  | cons t ts ih => simp [countTones, endCarry, ih, Nat.add_assoc]

theorem endCarry_append (sr carry : Binary64) (as bs : List Tone) :
    endCarry sr carry (as ++ bs) = endCarry sr (endCarry sr carry as) bs := by
  induction as generalizing carry with
  | nil => rfl
  | cons t ts ih => simp [endCarry, ih]

/-! ### Numbers that are finite and not negative -/

/-- A finite number that is not below zero (-0.0 is one). -/
def F64Nonneg (x : Binary64) : Prop := f64IsFinite x = true ∧ 0 ≤ f64Key x

theorem F64Nonneg.key {x : Binary64} (h : F64Nonneg x) : f64Key x = (f64Mag x : Int) := by
  have := h.2
  unfold f64Key at *
  split_ifs at * <;> omega

theorem f64Nonneg_pack {m : Nat} (hr : F64Rep m) (h : m < f64Top) : F64Nonneg (f64Pack false m) :=
  ⟨f64IsFinite_pack h, by rw [f64Key_pack hr h]; simp⟩

theorem f64Nonneg_ofNat {n : Nat} (h : n ≤ 2 ^ 53) : F64Nonneg (f64OfNat n) :=
  ⟨f64OfNat_finite h, by rw [f64Key_nonneg (f64OfNat_sign n)]; omega⟩

theorem f64Nonneg_zero_pack (neg : Bool) : F64Nonneg (f64Pack neg 0) ∧ f64Mag (f64Pack neg 0) = 0 := by
  have hr : F64Rep 0 := F64Rep.of_lt (by norm_num)
  refine ⟨⟨f64IsFinite_pack f64Top_pos, ?_⟩, f64Mag_pack hr f64Top_pos⟩
  rw [f64Key_pack hr f64Top_pos]; simp

/-- The sum of two numbers that are not negative. -/
theorem F64Nonneg.add {x y : Binary64} (hx : F64Nonneg x) (hy : F64Nonneg y)
    (h : f64RoundMag (f64Mag x + f64Mag y) 1 < f64Top) :
    F64Nonneg (f64Add x y) ∧ f64Mag (f64Add x y) = f64RoundMag (f64Mag x + f64Mag y) 1 := by
  by_cases hz : f64Key x + f64Key y = 0
  · rw [f64Add_finite_zero hx.1 hy.1 hz]
    rw [hx.key, hy.key] at hz
    have h0 : f64Mag x + f64Mag y = 0 := by omega
    rw [h0, f64RoundMag_zero]
    exact f64Nonneg_zero_pack _
  · rw [f64Add_finite hx.1 hy.1 hz]
    rw [hx.key, hy.key] at hz ⊢
    have h1 : decide ((f64Mag x : Int) + (f64Mag y : Int) < 0) = false := by
      simp only [decide_eq_false_iff_not]; omega
    have h2 : ((f64Mag x : Int) + (f64Mag y : Int)).natAbs = f64Mag x + f64Mag y := by omega
    rw [h1, h2]
    exact ⟨f64Nonneg_pack (f64RoundMag_rep _ _) h, f64Mag_pack (f64RoundMag_rep _ _) h⟩

/-- The difference of two numbers that are not negative, the first not smaller. -/
theorem F64Nonneg.sub {x y : Binary64} (hx : F64Nonneg x) (hy : F64Nonneg y) (hle : f64Mag y ≤ f64Mag x) :
    F64Nonneg (f64Sub x y) ∧ f64Mag (f64Sub x y) = f64RoundMag (f64Mag x - f64Mag y) 1 := by
  have hy' : f64IsFinite (f64Neg y) = true := by rw [f64IsFinite_neg]; exact hy.1
  have hlt : f64RoundMag (f64Mag x - f64Mag y) 1 < f64Top := by
    refine lt_of_le_of_lt ?_ (f64Mag_lt_top hx.1)
    exact f64RoundMag_le Nat.one_pos (f64Mag_rep x) (by omega)
  unfold f64Sub
  by_cases hz : f64Key x + f64Key (f64Neg y) = 0
  · rw [f64Add_finite_zero hx.1 hy' hz]
    rw [f64Key_neg, hx.key, hy.key] at hz
    have h0 : f64Mag x - f64Mag y = 0 := by omega
    rw [h0, f64RoundMag_zero]
    exact f64Nonneg_zero_pack _
  · rw [f64Add_finite hx.1 hy' hz]
    rw [f64Key_neg, hx.key, hy.key] at hz ⊢
    have h1 : decide ((f64Mag x : Int) + -(f64Mag y : Int) < 0) = false := by
      simp only [decide_eq_false_iff_not]; omega
    have h2 : ((f64Mag x : Int) + -(f64Mag y : Int)).natAbs = f64Mag x - f64Mag y := by omega
    rw [h1, h2]
    exact ⟨f64Nonneg_pack (f64RoundMag_rep _ _) hlt, f64Mag_pack (f64RoundMag_rep _ _) hlt⟩

theorem F64Nonneg.floor {x : Binary64} (hx : F64Nonneg x) : f64FloorNat x = f64Mag x / f64One := by
  have hk := hx.2
  unfold f64FloorNat
  rw [if_neg (by simp [hx.1])]
  split_ifs with hs
  · have : f64Mag x = 0 := by unfold f64Key at hk; rw [if_pos hs] at hk; omega
    simp [this]
  · rfl

/-- The product of two numbers that are not negative. -/
theorem F64Nonneg.mul {x y : Binary64} (hx : F64Nonneg x) (hy : F64Nonneg y)
    (h : f64RoundMag (f64Mag x * f64Mag y) f64One < f64Top) :
    F64Nonneg (f64Mul x y) ∧ f64Mag (f64Mul x y) = f64RoundMag (f64Mag x * f64Mag y) f64One := by
  have hr := f64RoundMag_rep (f64Mag x * f64Mag y) f64One
  rw [f64Mul_finite hx.1 hy.1]
  refine ⟨⟨f64IsFinite_pack h, ?_⟩, f64Mag_pack hr h⟩
  rw [f64Key_pack hr h]
  split_ifs with hs
  · have : f64Mag x * f64Mag y = 0 := by
      have hkx := hx.2
      have hky := hy.2
      unfold f64Key at hkx hky
      cases hsx : f64Sign x <;> cases hsy : f64Sign y <;> simp [hsx, hsy] at hs hkx hky <;> simp [hkx, hky]
    rw [this, f64RoundMag_zero]; simp
  · omega

/-- The quotient of two numbers that are not negative, the second not zero. -/
theorem F64Nonneg.div {x y : Binary64} (hx : F64Nonneg x) (hy : F64Nonneg y) (h0 : f64Mag y ≠ 0)
    (h : f64RoundMag (f64Mag x * f64One) (f64Mag y) < f64Top) :
    F64Nonneg (f64Div x y) ∧ f64Mag (f64Div x y) = f64RoundMag (f64Mag x * f64One) (f64Mag y) := by
  have hr := f64RoundMag_rep (f64Mag x * f64One) (f64Mag y)
  rw [f64Div_finite hx.1 hy.1 h0]
  refine ⟨⟨f64IsFinite_pack h, ?_⟩, f64Mag_pack hr h⟩
  rw [f64Key_pack hr h]
  split_ifs with hs
  · have : f64Mag x = 0 := by
      have hkx := hx.2
      have hky := hy.2
      unfold f64Key at hkx hky
      cases hsx : f64Sign x <;> cases hsy : f64Sign y <;> simp [hsx, hsy] at hs hkx hky <;> omega
    rw [this, Nat.zero_mul, f64RoundMag_zero]; simp
  · omega

/-! ### The carry (R63, R64) -/

theorem f64Mag_unit : f64Mag f64Unit = f64One := by
  have : f64Unit = f64OfNat 1 := by decide +kernel
  rw [this, f64OfNat_mag (by norm_num), Nat.one_mul]

theorem f64Nonneg_unit : F64Nonneg f64Unit := by
  have : f64Unit = f64OfNat 1 := by decide +kernel
  rw [this]; exact f64Nonneg_ofNat (by norm_num)

theorem f64Key_zero : f64Key 0#64 = 0 := by decide +kernel
theorem f64IsNaN_zero : f64IsNaN 0#64 = false := by decide +kernel

/-- The carry of R64: `0 <= carry < 1`. -/
def CarryOk (c : Binary64) : Prop := f64Le 0#64 c = true ∧ f64Lt c f64Unit = true

theorem carryOk_iff {c : Binary64} : CarryOk c ↔ F64Nonneg c ∧ f64Mag c < f64One := by
  unfold CarryOk f64Le f64Lt F64Nonneg
  simp only [f64IsNaN_zero, f64Key_zero, f64IsNaN_of_finite f64Nonneg_unit.1, f64Nonneg_unit.key, f64Mag_unit,
    Bool.not_false, Bool.true_and, Bool.and_true, Bool.and_eq_true, Bool.not_eq_true', decide_eq_true_eq]
  constructor
  · rintro ⟨⟨h1, h2⟩, -, h3⟩
    have hk : f64Key c = (f64Mag c : Int) := by
      unfold f64Key at *
      split_ifs at * <;> omega
    refine ⟨⟨?_, h2⟩, by omega⟩
    by_contra hf
    have := f64Mag_of_isInf (f64IsInf_of_not h1 (by simpa using hf))
    rw [hk, this, f64Top_eq] at h3
    have h4 := f64One_pos
    have h5 : 1 * f64One ≤ 2 ^ 1024 * f64One := Nat.mul_le_mul_right _ (Nat.two_pow_pos _)
    omega
  · rintro ⟨h, hlt⟩
    have hk : f64Key c = (f64Mag c : Int) := F64Nonneg.key h
    exact ⟨⟨f64IsNaN_of_finite h.1, h.2⟩, f64IsNaN_of_finite h.1, by omega⟩

/-- A magnitude below one that can be held is at most 1 - 2^-53. -/
theorem F64Rep.le_of_lt_one {m : Nat} (hr : F64Rep m) (h : m < f64One) : m + 2 ^ 1021 ≤ f64One := by
  unfold f64One at *
  have e : (2 : Nat) ^ 1074 = 2 ^ 53 * 2 ^ 1021 := by rw [← pow_add]
  rcases Nat.lt_or_ge m (2 ^ 1073) with hlt | hge
  · have e2 : (2 : Nat) ^ 1074 = 2 ^ 1073 + 2 ^ 1073 := by rw [← Nat.two_mul, ← pow_succ']
    have e3 : (2 : Nat) ^ 1021 ≤ 2 ^ 1073 := Nat.pow_le_pow_right (by omega) (by omega)
    omega
  · have hl : Nat.log2 m = 1073 := log2_eq_of_bounds hge h
    obtain ⟨j, hj⟩ := hr
    rw [f64Ulp_eq] at hj
    rw [hl] at hj
    have hj' : m = j * 2 ^ 1021 := by rw [hj]; exact Nat.mul_comm _ _
    rw [hj', e] at h
    have := Nat.lt_of_mul_lt_mul_right h
    rw [hj', e]
    calc j * 2 ^ 1021 + 2 ^ 1021 = (j + 1) * 2 ^ 1021 := by ring
      _ ≤ 2 ^ 53 * 2 ^ 1021 := Nat.mul_le_mul_right _ this

/-- Two magnitudes below one sum to less than two, rounded. -/
theorem roundMag_add_lt_two {a b : Nat} (ha : F64Rep a) (hb : F64Rep b) (h1 : a < f64One) (h2 : b < f64One) :
    f64RoundMag (a + b) 1 < 2 * f64One := by
  have ha' := ha.le_of_lt_one h1
  have hb' := hb.le_of_lt_one h2
  have e : (2 ^ 53 - 1) * 2 ^ 1022 + 2 ^ 1022 = 2 * f64One := by
    unfold f64One
    rw [← Nat.succ_mul]
    have : (2 ^ 53 - 1).succ = 2 ^ 53 := by norm_num
    rw [this, ← pow_add, ← pow_succ']
  have e2 : (2 : Nat) ^ 1022 = 2 ^ 1021 + 2 ^ 1021 := by rw [← Nat.two_mul, ← pow_succ']
  have hr : F64Rep ((2 ^ 53 - 1) * 2 ^ 1022) := F64Rep.mul_pow (by norm_num) _
  have := f64RoundMag_le (a := a + b) Nat.one_pos hr (by omega)
  have hp := Nat.two_pow_pos 1022
  omega

theorem f64Le_unit_iff {c : Binary64} (h : F64Nonneg c) : f64Le f64Unit c = true ↔ f64One ≤ f64Mag c := by
  unfold f64Le
  simp only [f64IsNaN_of_finite f64Nonneg_unit.1, f64IsNaN_of_finite h.1, f64Nonneg_unit.key, f64Mag_unit, h.key,
    Bool.not_false, Bool.true_and, decide_eq_true_eq]
  omega

/-- One tone of finite length keeps the carry in [0, 1) and emits floor(x) or floor(x) + 1 samples (R63, R64). -/
theorem toneCount_spec {sr d carry : Binary64} (hx : F64Nonneg (toneLength sr d)) (hc : CarryOk carry) :
    CarryOk (toneCount sr d carry).2 ∧
      (toneCount sr d carry).1 = f64Mag (toneLength sr d) / f64One ∨
    CarryOk (toneCount sr d carry).2 ∧
      (toneCount sr d carry).1 = f64Mag (toneLength sr d) / f64One + 1 := by
  obtain ⟨hcn, hcl⟩ := carryOk_iff.1 hc
  set x := toneLength sr d with hxdef
  have hfl := hx.floor
  have hrf : F64Rep (f64Mag x / f64One * f64One) := (f64Mag_rep x).floor
  have hle : f64Mag x / f64One * f64One ≤ f64Mag x := Nat.div_mul_le_self _ _
  have hltop : f64Mag x / f64One * f64One < f64Top := lt_of_le_of_lt hle (f64Mag_lt_top hx.1)
  have hN : f64OfNat (f64Mag x / f64One) = f64Pack false (f64Mag x / f64One * f64One) := f64OfNat_pack hrf
  have hNn : F64Nonneg (f64OfNat (f64Mag x / f64One)) := by rw [hN]; exact f64Nonneg_pack hrf hltop
  have hNm : f64Mag (f64OfNat (f64Mag x / f64One)) = f64Mag x / f64One * f64One := by
    rw [hN]; exact f64Mag_pack hrf hltop
  -- the fractional part
  obtain ⟨hyn, hym⟩ := hx.sub hNn (by rw [hNm]; exact hle)
  rw [hNm, f64RoundMag_one (f64Mag_rep x).fract] at hym
  have hylt : f64Mag x - f64Mag x / f64One * f64One < f64One := by
    have h1 := Nat.div_add_mod (f64Mag x) f64One
    have h2 := Nat.mod_lt (f64Mag x) f64One_pos
    rw [Nat.mul_comm] at h1
    omega
  -- the new carry before the test
  have hsum := roundMag_add_lt_two (f64Mag_rep carry) (f64Mag_rep x).fract hcl hylt
  have htop2 : 2 * f64One ≤ f64Top := by
    rw [f64Top_eq]; exact Nat.mul_le_mul_right _ (by
      calc 2 = 2 ^ 1 := rfl
        _ ≤ 2 ^ 1024 := Nat.pow_le_pow_right (by omega) (by omega))
  obtain ⟨hzn, hzm⟩ := hcn.add hyn (by rw [hym]; omega)
  rw [hym] at hzm
  have hdef : toneCount sr d carry =
      if f64Le f64Unit (f64Add carry (f64Sub x (f64OfNat (f64Mag x / f64One)))) then
        (f64Mag x / f64One + f64FloorNat (f64Add carry (f64Sub x (f64OfNat (f64Mag x / f64One)))),
          f64Sub (f64Add carry (f64Sub x (f64OfNat (f64Mag x / f64One))))
            (f64OfNat (f64FloorNat (f64Add carry (f64Sub x (f64OfNat (f64Mag x / f64One)))))))
      else (f64Mag x / f64One, f64Add carry (f64Sub x (f64OfNat (f64Mag x / f64One)))) := by
    rw [← hfl]; rfl
  rw [hdef]
  set z := f64Add carry (f64Sub x (f64OfNat (f64Mag x / f64One))) with hz
  by_cases hge : f64One ≤ f64Mag z
  · right
    rw [if_pos ((f64Le_unit_iff hzn).2 hge)]
    have hk : f64Mag z / f64One = 1 := by
      apply Nat.div_eq_of_lt_le <;> omega
    have hfz : f64FloorNat z = 1 := by rw [hzn.floor, hk]
    rw [hfz]
    have hone : f64Mag (f64OfNat 1) = f64One := by rw [f64OfNat_mag (by norm_num), Nat.one_mul]
    obtain ⟨hwn, hwm⟩ := hzn.sub (f64Nonneg_ofNat (n := 1) (by norm_num)) (by rw [hone]; exact hge)
    have hfr : F64Rep (f64Mag z - f64One) := by
      have := (f64Mag_rep z).fract
      rwa [hk, Nat.one_mul] at this
    rw [hone, f64RoundMag_one hfr] at hwm
    refine ⟨carryOk_iff.2 ⟨hwn, ?_⟩, rfl⟩
    rw [hwm]; omega
  · left
    rw [if_neg (fun h => hge ((f64Le_unit_iff hzn).1 h))]
    exact ⟨carryOk_iff.2 ⟨hzn, Nat.lt_of_not_le hge⟩, rfl⟩

theorem toneCount_carryOk {sr d carry : Binary64} (hx : F64Nonneg (toneLength sr d)) (hc : CarryOk carry) :
    CarryOk (toneCount sr d carry).2 := by
  rcases toneCount_spec hx hc with h | h <;> exact h.1

theorem toneCount_le {sr d carry : Binary64} (hx : F64Nonneg (toneLength sr d)) (hc : CarryOk carry) :
    (toneCount sr d carry).1 ≤ f64Mag (toneLength sr d) / f64One + 1 := by
  rcases toneCount_spec hx hc with h | h <;> omega

/-! ### A bound on the length of a run -/

/-- The length of a tone grows with the sample rate. -/
theorem toneLength_mono {a b : Nat} {d : Binary64} (hab : a ≤ b) (hb : b ≤ 2 ^ 53) (hd : F64Nonneg d)
    (h1 : f64RoundMag (b * f64One * f64Mag d) f64One < f64Top)
    (h2 : f64RoundMag (f64RoundMag (b * f64One * f64Mag d) f64One * f64One) (1000 * f64One) < f64Top) :
    F64Nonneg (toneLength (f64OfNat a) d) ∧
      f64Mag (toneLength (f64OfNat a) d) ≤
        f64RoundMag (f64RoundMag (b * f64One * f64Mag d) f64One * f64One) (1000 * f64One) := by
  have ha : a ≤ 2 ^ 53 := le_trans hab hb
  have hm1 : f64RoundMag (a * f64One * f64Mag d) f64One ≤ f64RoundMag (b * f64One * f64Mag d) f64One :=
    f64RoundMag_mono (Nat.mul_le_mul_right _ (Nat.mul_le_mul_right _ hab))
  have hk : f64Mag (f64OfNat 1000) = 1000 * f64One := f64OfNat_mag (by norm_num)
  have hk0 : f64Mag (f64OfNat 1000) ≠ 0 := by rw [hk]; have := f64One_pos; omega
  obtain ⟨p1, p2⟩ := (f64Nonneg_ofNat ha).mul hd (by rw [f64OfNat_mag ha]; omega)
  rw [f64OfNat_mag ha] at p2
  have hm2 : f64RoundMag (f64RoundMag (a * f64One * f64Mag d) f64One * f64One) (1000 * f64One) ≤
      f64RoundMag (f64RoundMag (b * f64One * f64Mag d) f64One * f64One) (1000 * f64One) :=
    f64RoundMag_mono (Nat.mul_le_mul_right _ hm1)
  obtain ⟨q1, q2⟩ := p1.div (f64Nonneg_ofNat (n := 1000) (by norm_num)) hk0 (by rw [p2, hk]; omega)
  rw [p2, hk] at q2
  exact ⟨q1, by unfold toneLength; rw [q2]; exact hm2⟩

/-- A tone whose count at the highest legal rate is at most `n`. -/
def ToneWithin (n : Nat) (d : Binary64) : Prop :=
  F64Nonneg d ∧ f64RoundMag (192000 * f64One * f64Mag d) f64One < f64Top ∧
    f64RoundMag (f64RoundMag (192000 * f64One * f64Mag d) f64One * f64One) (1000 * f64One) < f64Top ∧
    f64RoundMag (f64RoundMag (192000 * f64One * f64Mag d) f64One * f64One) (1000 * f64One) / f64One + 1 ≤ n

theorem ToneWithin.count {n r : Nat} {d carry : Binary64} (h : ToneWithin n d) (hr : r ≤ 192000) (hc : CarryOk carry) :
    CarryOk (toneCount (f64OfNat r) d carry).2 ∧ (toneCount (f64OfNat r) d carry).1 ≤ n := by
  obtain ⟨h0, h1, h2, h3⟩ := h
  obtain ⟨hx, hle⟩ := toneLength_mono hr (by norm_num) h0 h1 h2
  refine ⟨toneCount_carryOk hx hc, ?_⟩
  have := toneCount_le hx hc
  have := Nat.div_le_div_right (c := f64One) hle
  omega

/-- A list of tones whose total count at any legal rate is at most `n`. -/
def TonesWithin : Nat → List Tone → Prop
  | n, ts => ∀ r, r ≤ 192000 → ∀ carry, CarryOk carry →
      CarryOk (endCarry (f64OfNat r) carry ts) ∧ countTones (f64OfNat r) carry ts ≤ n

theorem TonesWithin.nil : TonesWithin 0 [] := fun _ _ _ hc => ⟨hc, Nat.le_refl 0⟩

theorem TonesWithin.append {n k : Nat} {as bs : List Tone} (ha : TonesWithin n as) (hb : TonesWithin k bs) :
    TonesWithin (n + k) (as ++ bs) := by
  intro r hr carry hc
  obtain ⟨a1, a2⟩ := ha r hr carry hc
  obtain ⟨b1, b2⟩ := hb r hr _ a1
  rw [endCarry_append, countTones_append]
  exact ⟨b1, by omega⟩

theorem TonesWithin.mono {n k : Nat} {ts : List Tone} (h : TonesWithin n ts) (hk : n ≤ k) : TonesWithin k ts :=
  fun r hr carry hc => ⟨(h r hr carry hc).1, le_trans (h r hr carry hc).2 hk⟩

theorem TonesWithin.one {n : Nat} {t : Tone} (h : ToneWithin n t.dur) : TonesWithin n [t] :=
  fun _ hr _ hc => ⟨(h.count hr hc).1, (h.count hr hc).2⟩

/-- Tones of one duration. -/
theorem TonesWithin.map {α : Type} {n : Nat} (f : α → Tone) (xs : List α) (h : ∀ x, ToneWithin n (f x).dur) :
    TonesWithin (xs.length * n) (xs.map f) := by
  induction xs with
  | nil => simpa using TonesWithin.nil
  | cons x xs ih =>
    have := (TonesWithin.one (h x)).append ih
    simpa [Nat.succ_mul, Nat.add_comm] using this

/-- Rows of tones. -/
theorem TonesWithin.rows {α : Type} {n : Nat} (f : α → List Tone) (xs : List α) (h : ∀ x, TonesWithin n (f x)) :
    TonesWithin (xs.length * n) (xs.map f).flatten := by
  induction xs with
  | nil => simpa using TonesWithin.nil
  | cons x xs ih =>
    have := (h x).append ih
    simpa [Nat.succ_mul, Nat.add_comm] using this

/-- The check of `ToneWithin` that the kernel can run. -/
def toneWithinB (n : Nat) (d : Binary64) : Bool :=
  f64IsFinite d && decide (0 ≤ f64Key d)
    && decide (f64RoundMag (192000 * f64One * f64Mag d) f64One < f64Top)
    && decide (f64RoundMag (f64RoundMag (192000 * f64One * f64Mag d) f64One * f64One) (1000 * f64One) < f64Top)
    && decide (f64RoundMag (f64RoundMag (192000 * f64One * f64Mag d) f64One * f64One) (1000 * f64One) / f64One + 1 ≤ n)

theorem toneWithin_of_check {n : Nat} {d : Binary64} (h : toneWithinB n d = true) : ToneWithin n d := by
  simp only [toneWithinB, Bool.and_eq_true, decide_eq_true_eq] at h
  exact ⟨⟨h.1.1.1.1, h.1.1.1.2⟩, h.1.1.2, h.1.2, h.2⟩

theorem within_108 : ToneWithin 208 (f64Lit 108 100) := toneWithin_of_check (by decide +kernel)
theorem within_275 : ToneWithin 53 (f64Lit 275 1000) := toneWithin_of_check (by decide +kernel)
theorem within_1375 : ToneWithin 27 (f64Lit 1375 10000) := toneWithin_of_check (by decide +kernel)
theorem within_19 : ToneWithin 37 (f64Lit 19 100) := toneWithin_of_check (by decide +kernel)
theorem within_4576 : ToneWithin 88 (f64Lit 4576 10000) := toneWithin_of_check (by decide +kernel)
theorem within_15 : ToneWithin 289 (f64Lit 15 10) := toneWithin_of_check (by decide +kernel)
theorem within_9 : ToneWithin 1729 (f64Lit 9 1) := toneWithin_of_check (by decide +kernel)
theorem within_3 : ToneWithin 577 (f64Lit 3 1) := toneWithin_of_check (by decide +kernel)
theorem within_45 : ToneWithin 865 (f64Lit 45 10) := toneWithin_of_check (by decide +kernel)
theorem within_20 : ToneWithin 3841 (f64Lit 20 1) := toneWithin_of_check (by decide +kernel)
theorem within_208 : ToneWithin 400 (f64Lit 208 100) := toneWithin_of_check (by decide +kernel)
theorem within_4862 : ToneWithin 934 (f64Lit 4862 1000) := toneWithin_of_check (by decide +kernel)
theorem within_572 : ToneWithin 110 (f64Lit 572 1000) := toneWithin_of_check (by decide +kernel)
theorem within_10 : ToneWithin 1921 (f64Lit 10 1) := toneWithin_of_check (by decide +kernel)
theorem within_30 : ToneWithin 5761 (f64Lit 30 1) := toneWithin_of_check (by decide +kernel)
theorem within_100 : ToneWithin 19201 (f64Lit 100 1) := toneWithin_of_check (by decide +kernel)
theorem within_200 : ToneWithin 38401 (f64Lit 200 1) := toneWithin_of_check (by decide +kernel)
theorem within_300 : ToneWithin 57601 (f64Lit 300 1) := toneWithin_of_check (by decide +kernel)
theorem within_500 : ToneWithin 96001 (f64Lit 500 1) := toneWithin_of_check (by decide +kernel)

/-- The check of a literal list of tones that the kernel can run, every tone within `n`. -/
theorem TonesWithin.of_check {n : Nat} (ts : List Tone) (h : ts.all (fun t => toneWithinB n t.dur) = true) :
    TonesWithin (ts.length * n) ts := by
  induction ts with
  | nil => simpa using TonesWithin.nil
  | cons t ts ih =>
    simp only [List.all_cons, Bool.and_eq_true] at h
    have := (TonesWithin.one (toneWithin_of_check h.1)).append (ih h.2)
    simpa [Nat.succ_mul, Nat.add_comm] using this

theorem pixelTones_within {n : Nat} (w r : Nat) (v : Nat → Nat → Binary64) {dn dd : Nat}
    (h : ToneWithin n (f64Lit dn dd)) : TonesWithin (w * n) (pixelTones w r v dn dd) := by
  have := TonesWithin.map (fun x => ({ freq := freqMap (v x r), dur := f64Lit dn dd, phi := none } : Tone))
    (List.range w) (fun _ => h)
  simpa [pixelTones] using this

theorem visTones_within (m : Mode) : TonesWithin (21 * 57601) (visTones m) := by
  have h : ∀ m, (visTones m).all (fun t => toneWithinB 57601 t.dur) = true := by
    intro m; cases m <;> decide +kernel
  have hl : (visTones m).length = 21 := by cases m <;> decide +kernel
  simpa [hl] using TonesWithin.of_check _ (h m)

theorem endTones_within : TonesWithin (5 * 96001) endTones :=
  TonesWithin.of_check _ (by decide +kernel)

theorem runSilence_within : TonesWithin 38401 [runSilence] := TonesWithin.one within_200

theorem rowA_within (s : State) (r : Nat) : TonesWithin 202276 (rowA s 320 r) := by
  have p := fun v => pixelTones_within 320 r v within_108
  have s15 : TonesWithin 289 [toneLit 1500 15 10] := TonesWithin.one within_15
  have s9 : TonesWithin (1729 + 289) [toneLit 1200 9 1, toneLit 1500 15 10] :=
    (TonesWithin.one (t := toneLit 1200 9 1) within_9).append s15
  exact (((((s15.append (p (chanG s))).append s15).append (p (chanB s))).append s9).append (p (chanR s))).mono
    (by norm_num)

theorem rowB_within (s : State) (h r : Nat) : TonesWithin 29100 (rowB s 320 h r) := by
  have l : TonesWithin (1729 + 577) [toneLit 1200 9 1, toneLit 1500 3 1] :=
    (TonesWithin.one (t := toneLit 1200 9 1) within_9).append (TonesWithin.one (t := toneLit 1500 3 1) within_3)
  have e : ∀ f, TonesWithin (865 + 289) [toneLit f 45 10, toneLit 1900 15 10] := fun f =>
    (TonesWithin.one (t := toneLit f 45 10) within_45).append (TonesWithin.one (t := toneLit 1900 15 10) within_15)
  have py := pixelTones_within 320 r (chanY s) within_275
  unfold rowB
  split_ifs
  · exact ((l.append py).append ((e 1500).append (pixelTones_within 320 r (chanRYa s h) within_1375))).mono
      (by norm_num)
  · exact ((l.append py).append ((e 2300).append (pixelTones_within 320 r (chanBYa s h) within_1375))).mono
      (by norm_num)

theorem pairC_within (s : State) (h r : Nat) : TonesWithin 98961 (pairC s 640 h r) := by
  have l : TonesWithin (3841 + 400) [toneLit 1200 20 1, toneLit 1500 208 100] :=
    (TonesWithin.one (t := toneLit 1200 20 1) within_20).append
      (TonesWithin.one (t := toneLit 1500 208 100) within_208)
  have p := fun r v => pixelTones_within 640 r v within_19
  unfold pairC
  split_ifs
  · exact ((((l.append (p r (chanY s))).append (p r (chanRYa s h))).append (p r (chanBYa s h))).append
      (p (r + 1) (chanY s))).mono (by norm_num)
  · exact ((((l.append (p r (chanY s))).append (p r (chanRYa s h))).append (p r (chanBYa s h))).append
      TonesWithin.nil).mono (by norm_num)

theorem rowD_within (s : State) (r : Nat) : TonesWithin 85854 (rowD s 320 r) := by
  have l : TonesWithin (934 + 110) [toneLit 1200 4862 1000, toneLit 1500 572 1000] :=
    (TonesWithin.one (t := toneLit 1200 4862 1000) within_4862).append
      (TonesWithin.one (t := toneLit 1500 572 1000) within_572)
  have e : TonesWithin 110 [toneLit 1500 572 1000] := TonesWithin.one within_572
  have p := fun v => pixelTones_within 320 r v within_4576
  exact ((((((l.append (p (chanG s))).append e).append (p (chanB s))).append e).append (p (chanR s))).append e).mono
    (by norm_num)

/-- No scan at a legal rate needs 52 million samples. -/
theorem scanTones_within (s : State) (m : Mode) : TonesWithin 51784385 (scanTones s m) := by
  unfold scanTones
  cases m
  · have h := TonesWithin.rows (rowA s 320) (List.range 256) (rowA_within s)
    have l : TonesWithin 1729 [initialSync] := TonesWithin.one within_9
    exact (l.append h).mono (by simp)
  · have h := TonesWithin.rows (rowB s 320 240) (List.range 240) (rowB_within s 240)
    exact (TonesWithin.nil.append h).mono (by simp)
  · have h := TonesWithin.rows (fun p => pairC s 640 496 (2 * p)) (List.range 248) (fun p => pairC_within s 496 (2 * p))
    exact (TonesWithin.nil.append h).mono (by simp)
  · have h := TonesWithin.rows (rowD s 320) (List.range 256) (rowD_within s)
    exact (TonesWithin.nil.append h).mono (by simp)

theorem runTones_within (s : State) (m : Mode) : TonesWithin 134217728 (runTones s m) :=
  ((((runSilence_within.append (visTones_within m)).append (scanTones_within s m)).append endTones_within).append
    runSilence_within).mono (by norm_num)

theorem carryOk_fresh : CarryOk Syn.fresh.carry := by
  unfold CarryOk; decide +kernel

/-- A run at a legal rate never exceeds the buffer (spec/20_memory.md R28, decision D23). -/
theorem runCount_le_bufCap (s : State) (m : Mode) (h : s.sampleRate.toNat ≤ 192000) :
    runCount s m ≤ Config.bufCap :=
  (runTones_within (applyFit s m) m _ h _ carryOk_fresh).2

end Sys2Proof.Machine
end

