-- ==== Sys2Proof/Laws/State.lean ====
section
/-! SUPPORT. One lemma per field per update of State, so that no later proof unfolds a record update.
The proofs stand in parentheses, (rfl), so that simp rewrites with the lemmas and does not leave the equation to a
definitional check: comparing two whole states would evaluate the tones and the arithmetic inside them. For the same
reason no goal about a state that holds a tone list or a canvas should be closed by a bare rfl. -/

namespace Sys2Proof.Machine

/-! ### raiseErr -/

@[simp] theorem raiseErr_sampleRate (s : State) (e : ErrRecord) : (raiseErr s e).sampleRate = s.sampleRate := (rfl)
@[simp] theorem raiseErr_bitDepth (s : State) (e : ErrRecord) : (raiseErr s e).bitDepth = s.bitDepth := (rfl)
@[simp] theorem raiseErr_srcW (s : State) (e : ErrRecord) : (raiseErr s e).srcW = s.srcW := (rfl)
@[simp] theorem raiseErr_srcH (s : State) (e : ErrRecord) : (raiseErr s e).srcH = s.srcH := (rfl)
@[simp] theorem raiseErr_hostTime (s : State) (e : ErrRecord) : (raiseErr s e).hostTime = s.hostTime := (rfl)
@[simp] theorem raiseErr_opf (s : State) (e : ErrRecord) : (raiseErr s e).opf = s.opf := (rfl)
@[simp] theorem raiseErr_opd (s : State) (e : ErrRecord) : (raiseErr s e).opd = s.opd := (rfl)
@[simp] theorem raiseErr_opp (s : State) (e : ErrRecord) : (raiseErr s e).opp = s.opp := (rfl)
@[simp] theorem raiseErr_syn (s : State) (e : ErrRecord) : (raiseErr s e).syn = s.syn := (rfl)
@[simp] theorem raiseErr_buf (s : State) (e : ErrRecord) : (raiseErr s e).buf = s.buf := (rfl)
@[simp] theorem raiseErr_outValid (s : State) (e : ErrRecord) : (raiseErr s e).outValid = s.outValid := (rfl)
@[simp] theorem raiseErr_outSr (s : State) (e : ErrRecord) : (raiseErr s e).outSr = s.outSr := (rfl)
@[simp] theorem raiseErr_fitValid (s : State) (e : ErrRecord) : (raiseErr s e).fitValid = s.fitValid := (rfl)
@[simp] theorem raiseErr_fitMode (s : State) (e : ErrRecord) : (raiseErr s e).fitMode = s.fitMode := (rfl)
@[simp] theorem raiseErr_fit (s : State) (e : ErrRecord) : (raiseErr s e).fit = s.fit := (rfl)
@[simp] theorem raiseErr_canvas (s : State) (e : ErrRecord) : (raiseErr s e).canvas = s.canvas := (rfl)
@[simp] theorem raiseErr_warnOversize (s : State) (e : ErrRecord) : (raiseErr s e).warnOversize = s.warnOversize := (rfl)
@[simp] theorem raiseErr_err (s : State) (e : ErrRecord) : (raiseErr s e).err = e := (rfl)
@[simp] theorem raiseErr_src (s : State) (e : ErrRecord) : (raiseErr s e).src = s.src := (rfl)
@[simp] theorem raiseErr_script (s : State) (e : ErrRecord) : (raiseErr s e).script = s.script := (rfl)
@[simp] theorem raiseErr_rdata (s : State) (e : ErrRecord) : (raiseErr s e).rdata = s.rdata := (rfl)
@[simp] theorem raiseErr_draws (s : State) (e : ErrRecord) : (raiseErr s e).draws = s.draws := (rfl)

/-! ### clearErr -/

@[simp] theorem clearErr_sampleRate (s : State) : (clearErr s).sampleRate = s.sampleRate := (rfl)
@[simp] theorem clearErr_bitDepth (s : State) : (clearErr s).bitDepth = s.bitDepth := (rfl)
@[simp] theorem clearErr_srcW (s : State) : (clearErr s).srcW = s.srcW := (rfl)
@[simp] theorem clearErr_srcH (s : State) : (clearErr s).srcH = s.srcH := (rfl)
@[simp] theorem clearErr_hostTime (s : State) : (clearErr s).hostTime = s.hostTime := (rfl)
@[simp] theorem clearErr_opf (s : State) : (clearErr s).opf = s.opf := (rfl)
@[simp] theorem clearErr_opd (s : State) : (clearErr s).opd = s.opd := (rfl)
@[simp] theorem clearErr_opp (s : State) : (clearErr s).opp = s.opp := (rfl)
@[simp] theorem clearErr_syn (s : State) : (clearErr s).syn = s.syn := (rfl)
@[simp] theorem clearErr_buf (s : State) : (clearErr s).buf = s.buf := (rfl)
@[simp] theorem clearErr_outValid (s : State) : (clearErr s).outValid = s.outValid := (rfl)
@[simp] theorem clearErr_outSr (s : State) : (clearErr s).outSr = s.outSr := (rfl)
@[simp] theorem clearErr_fitValid (s : State) : (clearErr s).fitValid = s.fitValid := (rfl)
@[simp] theorem clearErr_fitMode (s : State) : (clearErr s).fitMode = s.fitMode := (rfl)
@[simp] theorem clearErr_fit (s : State) : (clearErr s).fit = s.fit := (rfl)
@[simp] theorem clearErr_canvas (s : State) : (clearErr s).canvas = s.canvas := (rfl)
@[simp] theorem clearErr_warnOversize (s : State) : (clearErr s).warnOversize = s.warnOversize := (rfl)
@[simp] theorem clearErr_err (s : State) : (clearErr s).err = ErrRecord.ok := (rfl)
@[simp] theorem clearErr_src (s : State) : (clearErr s).src = s.src := (rfl)
@[simp] theorem clearErr_script (s : State) : (clearErr s).script = s.script := (rfl)
@[simp] theorem clearErr_rdata (s : State) : (clearErr s).rdata = s.rdata := (rfl)
@[simp] theorem clearErr_draws (s : State) : (clearErr s).draws = s.draws := (rfl)

/-! ### appendOutput -/

@[simp] theorem appendOutput_sampleRate (s : State) (out : Syn × List Sample) : (appendOutput s out).sampleRate = s.sampleRate := (rfl)
@[simp] theorem appendOutput_bitDepth (s : State) (out : Syn × List Sample) : (appendOutput s out).bitDepth = s.bitDepth := (rfl)
@[simp] theorem appendOutput_srcW (s : State) (out : Syn × List Sample) : (appendOutput s out).srcW = s.srcW := (rfl)
@[simp] theorem appendOutput_srcH (s : State) (out : Syn × List Sample) : (appendOutput s out).srcH = s.srcH := (rfl)
@[simp] theorem appendOutput_hostTime (s : State) (out : Syn × List Sample) : (appendOutput s out).hostTime = s.hostTime := (rfl)
@[simp] theorem appendOutput_opf (s : State) (out : Syn × List Sample) : (appendOutput s out).opf = s.opf := (rfl)
@[simp] theorem appendOutput_opd (s : State) (out : Syn × List Sample) : (appendOutput s out).opd = s.opd := (rfl)
@[simp] theorem appendOutput_opp (s : State) (out : Syn × List Sample) : (appendOutput s out).opp = s.opp := (rfl)
@[simp] theorem appendOutput_syn (s : State) (out : Syn × List Sample) : (appendOutput s out).syn = out.1 := (rfl)
@[simp] theorem appendOutput_buf (s : State) (out : Syn × List Sample) : (appendOutput s out).buf = s.buf ++ out.2 := (rfl)
@[simp] theorem appendOutput_outValid (s : State) (out : Syn × List Sample) : (appendOutput s out).outValid = false := (rfl)
@[simp] theorem appendOutput_outSr (s : State) (out : Syn × List Sample) : (appendOutput s out).outSr = s.outSr := (rfl)
@[simp] theorem appendOutput_fitValid (s : State) (out : Syn × List Sample) : (appendOutput s out).fitValid = s.fitValid := (rfl)
@[simp] theorem appendOutput_fitMode (s : State) (out : Syn × List Sample) : (appendOutput s out).fitMode = s.fitMode := (rfl)
@[simp] theorem appendOutput_fit (s : State) (out : Syn × List Sample) : (appendOutput s out).fit = s.fit := (rfl)
@[simp] theorem appendOutput_canvas (s : State) (out : Syn × List Sample) : (appendOutput s out).canvas = s.canvas := (rfl)
@[simp] theorem appendOutput_warnOversize (s : State) (out : Syn × List Sample) : (appendOutput s out).warnOversize = s.warnOversize := (rfl)
@[simp] theorem appendOutput_err (s : State) (out : Syn × List Sample) : (appendOutput s out).err = ErrRecord.ok := (rfl)
@[simp] theorem appendOutput_src (s : State) (out : Syn × List Sample) : (appendOutput s out).src = s.src := (rfl)
@[simp] theorem appendOutput_script (s : State) (out : Syn × List Sample) : (appendOutput s out).script = s.script := (rfl)
@[simp] theorem appendOutput_rdata (s : State) (out : Syn × List Sample) : (appendOutput s out).rdata = s.rdata := (rfl)
@[simp] theorem appendOutput_draws (s : State) (out : Syn × List Sample) : (appendOutput s out).draws = s.draws := (rfl)

/-! ### finishRun -/

@[simp] theorem finishRun_sampleRate (s : State) (out : Syn × List Sample) : (finishRun s out).sampleRate = s.sampleRate := (rfl)
@[simp] theorem finishRun_bitDepth (s : State) (out : Syn × List Sample) : (finishRun s out).bitDepth = s.bitDepth := (rfl)
@[simp] theorem finishRun_srcW (s : State) (out : Syn × List Sample) : (finishRun s out).srcW = s.srcW := (rfl)
@[simp] theorem finishRun_srcH (s : State) (out : Syn × List Sample) : (finishRun s out).srcH = s.srcH := (rfl)
@[simp] theorem finishRun_hostTime (s : State) (out : Syn × List Sample) : (finishRun s out).hostTime = s.hostTime := (rfl)
@[simp] theorem finishRun_opf (s : State) (out : Syn × List Sample) : (finishRun s out).opf = s.opf := (rfl)
@[simp] theorem finishRun_opd (s : State) (out : Syn × List Sample) : (finishRun s out).opd = s.opd := (rfl)
@[simp] theorem finishRun_opp (s : State) (out : Syn × List Sample) : (finishRun s out).opp = s.opp := (rfl)
@[simp] theorem finishRun_syn (s : State) (out : Syn × List Sample) : (finishRun s out).syn = out.1 := (rfl)
@[simp] theorem finishRun_buf (s : State) (out : Syn × List Sample) : (finishRun s out).buf = out.2 := (rfl)
@[simp] theorem finishRun_outValid (s : State) (out : Syn × List Sample) : (finishRun s out).outValid = true := (rfl)
@[simp] theorem finishRun_outSr (s : State) (out : Syn × List Sample) : (finishRun s out).outSr = s.sampleRate := (rfl)
@[simp] theorem finishRun_fitValid (s : State) (out : Syn × List Sample) : (finishRun s out).fitValid = s.fitValid := (rfl)
@[simp] theorem finishRun_fitMode (s : State) (out : Syn × List Sample) : (finishRun s out).fitMode = s.fitMode := (rfl)
@[simp] theorem finishRun_fit (s : State) (out : Syn × List Sample) : (finishRun s out).fit = s.fit := (rfl)
@[simp] theorem finishRun_canvas (s : State) (out : Syn × List Sample) : (finishRun s out).canvas = s.canvas := (rfl)
@[simp] theorem finishRun_warnOversize (s : State) (out : Syn × List Sample) : (finishRun s out).warnOversize = s.warnOversize := (rfl)
@[simp] theorem finishRun_err (s : State) (out : Syn × List Sample) : (finishRun s out).err = ErrRecord.ok := (rfl)
@[simp] theorem finishRun_src (s : State) (out : Syn × List Sample) : (finishRun s out).src = s.src := (rfl)
@[simp] theorem finishRun_script (s : State) (out : Syn × List Sample) : (finishRun s out).script = s.script := (rfl)
@[simp] theorem finishRun_rdata (s : State) (out : Syn × List Sample) : (finishRun s out).rdata = s.rdata := (rfl)
@[simp] theorem finishRun_draws (s : State) (out : Syn × List Sample) : (finishRun s out).draws = s.draws := (rfl)

/-! ### freshSyn -/

@[simp] theorem freshSyn_sampleRate (s : State) : (freshSyn s).sampleRate = s.sampleRate := (rfl)
@[simp] theorem freshSyn_bitDepth (s : State) : (freshSyn s).bitDepth = s.bitDepth := (rfl)
@[simp] theorem freshSyn_srcW (s : State) : (freshSyn s).srcW = s.srcW := (rfl)
@[simp] theorem freshSyn_srcH (s : State) : (freshSyn s).srcH = s.srcH := (rfl)
@[simp] theorem freshSyn_hostTime (s : State) : (freshSyn s).hostTime = s.hostTime := (rfl)
@[simp] theorem freshSyn_opf (s : State) : (freshSyn s).opf = s.opf := (rfl)
@[simp] theorem freshSyn_opd (s : State) : (freshSyn s).opd = s.opd := (rfl)
@[simp] theorem freshSyn_opp (s : State) : (freshSyn s).opp = s.opp := (rfl)
@[simp] theorem freshSyn_syn (s : State) : (freshSyn s).syn = Syn.fresh := (rfl)
@[simp] theorem freshSyn_buf (s : State) : (freshSyn s).buf = s.buf := (rfl)
@[simp] theorem freshSyn_outValid (s : State) : (freshSyn s).outValid = s.outValid := (rfl)
@[simp] theorem freshSyn_outSr (s : State) : (freshSyn s).outSr = s.outSr := (rfl)
@[simp] theorem freshSyn_fitValid (s : State) : (freshSyn s).fitValid = s.fitValid := (rfl)
@[simp] theorem freshSyn_fitMode (s : State) : (freshSyn s).fitMode = s.fitMode := (rfl)
@[simp] theorem freshSyn_fit (s : State) : (freshSyn s).fit = s.fit := (rfl)
@[simp] theorem freshSyn_canvas (s : State) : (freshSyn s).canvas = s.canvas := (rfl)
@[simp] theorem freshSyn_warnOversize (s : State) : (freshSyn s).warnOversize = s.warnOversize := (rfl)
@[simp] theorem freshSyn_err (s : State) : (freshSyn s).err = s.err := (rfl)
@[simp] theorem freshSyn_src (s : State) : (freshSyn s).src = s.src := (rfl)
@[simp] theorem freshSyn_script (s : State) : (freshSyn s).script = s.script := (rfl)
@[simp] theorem freshSyn_rdata (s : State) : (freshSyn s).rdata = s.rdata := (rfl)
@[simp] theorem freshSyn_draws (s : State) : (freshSyn s).draws = s.draws := (rfl)

/-! ### emptyBuf -/

@[simp] theorem emptyBuf_sampleRate (s : State) : (emptyBuf s).sampleRate = s.sampleRate := (rfl)
@[simp] theorem emptyBuf_bitDepth (s : State) : (emptyBuf s).bitDepth = s.bitDepth := (rfl)
@[simp] theorem emptyBuf_srcW (s : State) : (emptyBuf s).srcW = s.srcW := (rfl)
@[simp] theorem emptyBuf_srcH (s : State) : (emptyBuf s).srcH = s.srcH := (rfl)
@[simp] theorem emptyBuf_hostTime (s : State) : (emptyBuf s).hostTime = s.hostTime := (rfl)
@[simp] theorem emptyBuf_opf (s : State) : (emptyBuf s).opf = s.opf := (rfl)
@[simp] theorem emptyBuf_opd (s : State) : (emptyBuf s).opd = s.opd := (rfl)
@[simp] theorem emptyBuf_opp (s : State) : (emptyBuf s).opp = s.opp := (rfl)
@[simp] theorem emptyBuf_syn (s : State) : (emptyBuf s).syn = s.syn := (rfl)
@[simp] theorem emptyBuf_buf (s : State) : (emptyBuf s).buf = [] := (rfl)
@[simp] theorem emptyBuf_outValid (s : State) : (emptyBuf s).outValid = false := (rfl)
@[simp] theorem emptyBuf_outSr (s : State) : (emptyBuf s).outSr = s.outSr := (rfl)
@[simp] theorem emptyBuf_fitValid (s : State) : (emptyBuf s).fitValid = s.fitValid := (rfl)
@[simp] theorem emptyBuf_fitMode (s : State) : (emptyBuf s).fitMode = s.fitMode := (rfl)
@[simp] theorem emptyBuf_fit (s : State) : (emptyBuf s).fit = s.fit := (rfl)
@[simp] theorem emptyBuf_canvas (s : State) : (emptyBuf s).canvas = s.canvas := (rfl)
@[simp] theorem emptyBuf_warnOversize (s : State) : (emptyBuf s).warnOversize = s.warnOversize := (rfl)
@[simp] theorem emptyBuf_err (s : State) : (emptyBuf s).err = s.err := (rfl)
@[simp] theorem emptyBuf_src (s : State) : (emptyBuf s).src = s.src := (rfl)
@[simp] theorem emptyBuf_script (s : State) : (emptyBuf s).script = s.script := (rfl)
@[simp] theorem emptyBuf_rdata (s : State) : (emptyBuf s).rdata = s.rdata := (rfl)
@[simp] theorem emptyBuf_draws (s : State) : (emptyBuf s).draws = s.draws := (rfl)

/-! ### clearOutputs -/

@[simp] theorem clearOutputs_sampleRate (s : State) : (clearOutputs s).sampleRate = s.sampleRate := (rfl)
@[simp] theorem clearOutputs_bitDepth (s : State) : (clearOutputs s).bitDepth = s.bitDepth := (rfl)
@[simp] theorem clearOutputs_srcW (s : State) : (clearOutputs s).srcW = s.srcW := (rfl)
@[simp] theorem clearOutputs_srcH (s : State) : (clearOutputs s).srcH = s.srcH := (rfl)
@[simp] theorem clearOutputs_hostTime (s : State) : (clearOutputs s).hostTime = s.hostTime := (rfl)
@[simp] theorem clearOutputs_opf (s : State) : (clearOutputs s).opf = s.opf := (rfl)
@[simp] theorem clearOutputs_opd (s : State) : (clearOutputs s).opd = s.opd := (rfl)
@[simp] theorem clearOutputs_opp (s : State) : (clearOutputs s).opp = s.opp := (rfl)
@[simp] theorem clearOutputs_syn (s : State) : (clearOutputs s).syn = Syn.fresh := (rfl)
@[simp] theorem clearOutputs_buf (s : State) : (clearOutputs s).buf = [] := (rfl)
@[simp] theorem clearOutputs_outValid (s : State) : (clearOutputs s).outValid = false := (rfl)
@[simp] theorem clearOutputs_outSr (s : State) : (clearOutputs s).outSr = 0#32 := (rfl)
@[simp] theorem clearOutputs_fitValid (s : State) : (clearOutputs s).fitValid = false := (rfl)
@[simp] theorem clearOutputs_fitMode (s : State) : (clearOutputs s).fitMode = .a := (rfl)
@[simp] theorem clearOutputs_fit (s : State) : (clearOutputs s).fit = FitMeta.zero := (rfl)
@[simp] theorem clearOutputs_canvas (s : State) : (clearOutputs s).canvas = [] := (rfl)
@[simp] theorem clearOutputs_warnOversize (s : State) : (clearOutputs s).warnOversize = false := (rfl)
@[simp] theorem clearOutputs_err (s : State) : (clearOutputs s).err = s.err := (rfl)
@[simp] theorem clearOutputs_src (s : State) : (clearOutputs s).src = s.src := (rfl)
@[simp] theorem clearOutputs_script (s : State) : (clearOutputs s).script = s.script := (rfl)
@[simp] theorem clearOutputs_rdata (s : State) : (clearOutputs s).rdata = s.rdata := (rfl)
@[simp] theorem clearOutputs_draws (s : State) : (clearOutputs s).draws = s.draws := (rfl)

/-! ### hardReset -/

@[simp] theorem hardReset_sampleRate (s : State) : (hardReset s).sampleRate = State.reset.sampleRate := (rfl)
@[simp] theorem hardReset_bitDepth (s : State) : (hardReset s).bitDepth = State.reset.bitDepth := (rfl)
@[simp] theorem hardReset_srcW (s : State) : (hardReset s).srcW = State.reset.srcW := (rfl)
@[simp] theorem hardReset_srcH (s : State) : (hardReset s).srcH = State.reset.srcH := (rfl)
@[simp] theorem hardReset_hostTime (s : State) : (hardReset s).hostTime = State.reset.hostTime := (rfl)
@[simp] theorem hardReset_opf (s : State) : (hardReset s).opf = State.reset.opf := (rfl)
@[simp] theorem hardReset_opd (s : State) : (hardReset s).opd = State.reset.opd := (rfl)
@[simp] theorem hardReset_opp (s : State) : (hardReset s).opp = State.reset.opp := (rfl)
@[simp] theorem hardReset_syn (s : State) : (hardReset s).syn = State.reset.syn := (rfl)
@[simp] theorem hardReset_buf (s : State) : (hardReset s).buf = State.reset.buf := (rfl)
@[simp] theorem hardReset_outValid (s : State) : (hardReset s).outValid = State.reset.outValid := (rfl)
@[simp] theorem hardReset_outSr (s : State) : (hardReset s).outSr = State.reset.outSr := (rfl)
@[simp] theorem hardReset_fitValid (s : State) : (hardReset s).fitValid = State.reset.fitValid := (rfl)
@[simp] theorem hardReset_fitMode (s : State) : (hardReset s).fitMode = State.reset.fitMode := (rfl)
@[simp] theorem hardReset_fit (s : State) : (hardReset s).fit = State.reset.fit := (rfl)
@[simp] theorem hardReset_canvas (s : State) : (hardReset s).canvas = State.reset.canvas := (rfl)
@[simp] theorem hardReset_warnOversize (s : State) : (hardReset s).warnOversize = State.reset.warnOversize := (rfl)
@[simp] theorem hardReset_err (s : State) : (hardReset s).err = State.reset.err := (rfl)
@[simp] theorem hardReset_src (s : State) : (hardReset s).src = State.reset.src := (rfl)
@[simp] theorem hardReset_script (s : State) : (hardReset s).script = s.script := (rfl)
@[simp] theorem hardReset_rdata (s : State) : (hardReset s).rdata = s.rdata := (rfl)
@[simp] theorem hardReset_draws (s : State) : (hardReset s).draws = s.draws := (rfl)

/-! ### takeEvent -/

@[simp] theorem takeEvent_sampleRate (s : State) (rest : List HostEvent) : (takeEvent s rest).sampleRate = s.sampleRate := (rfl)
@[simp] theorem takeEvent_bitDepth (s : State) (rest : List HostEvent) : (takeEvent s rest).bitDepth = s.bitDepth := (rfl)
@[simp] theorem takeEvent_srcW (s : State) (rest : List HostEvent) : (takeEvent s rest).srcW = s.srcW := (rfl)
@[simp] theorem takeEvent_srcH (s : State) (rest : List HostEvent) : (takeEvent s rest).srcH = s.srcH := (rfl)
@[simp] theorem takeEvent_hostTime (s : State) (rest : List HostEvent) : (takeEvent s rest).hostTime = s.hostTime := (rfl)
@[simp] theorem takeEvent_opf (s : State) (rest : List HostEvent) : (takeEvent s rest).opf = s.opf := (rfl)
@[simp] theorem takeEvent_opd (s : State) (rest : List HostEvent) : (takeEvent s rest).opd = s.opd := (rfl)
@[simp] theorem takeEvent_opp (s : State) (rest : List HostEvent) : (takeEvent s rest).opp = s.opp := (rfl)
@[simp] theorem takeEvent_syn (s : State) (rest : List HostEvent) : (takeEvent s rest).syn = s.syn := (rfl)
@[simp] theorem takeEvent_buf (s : State) (rest : List HostEvent) : (takeEvent s rest).buf = s.buf := (rfl)
@[simp] theorem takeEvent_outValid (s : State) (rest : List HostEvent) : (takeEvent s rest).outValid = s.outValid := (rfl)
@[simp] theorem takeEvent_outSr (s : State) (rest : List HostEvent) : (takeEvent s rest).outSr = s.outSr := (rfl)
@[simp] theorem takeEvent_fitValid (s : State) (rest : List HostEvent) : (takeEvent s rest).fitValid = s.fitValid := (rfl)
@[simp] theorem takeEvent_fitMode (s : State) (rest : List HostEvent) : (takeEvent s rest).fitMode = s.fitMode := (rfl)
@[simp] theorem takeEvent_fit (s : State) (rest : List HostEvent) : (takeEvent s rest).fit = s.fit := (rfl)
@[simp] theorem takeEvent_canvas (s : State) (rest : List HostEvent) : (takeEvent s rest).canvas = s.canvas := (rfl)
@[simp] theorem takeEvent_warnOversize (s : State) (rest : List HostEvent) : (takeEvent s rest).warnOversize = s.warnOversize := (rfl)
@[simp] theorem takeEvent_err (s : State) (rest : List HostEvent) : (takeEvent s rest).err = s.err := (rfl)
@[simp] theorem takeEvent_src (s : State) (rest : List HostEvent) : (takeEvent s rest).src = s.src := (rfl)
@[simp] theorem takeEvent_script (s : State) (rest : List HostEvent) : (takeEvent s rest).script = rest := (rfl)
@[simp] theorem takeEvent_rdata (s : State) (rest : List HostEvent) : (takeEvent s rest).rdata = s.rdata := (rfl)
@[simp] theorem takeEvent_draws (s : State) (rest : List HostEvent) : (takeEvent s rest).draws = s.draws + 1 := (rfl)

/-! ### returnRead -/

@[simp] theorem returnRead_sampleRate (s : State) (v : Word) : (returnRead s v).sampleRate = s.sampleRate := (rfl)
@[simp] theorem returnRead_bitDepth (s : State) (v : Word) : (returnRead s v).bitDepth = s.bitDepth := (rfl)
@[simp] theorem returnRead_srcW (s : State) (v : Word) : (returnRead s v).srcW = s.srcW := (rfl)
@[simp] theorem returnRead_srcH (s : State) (v : Word) : (returnRead s v).srcH = s.srcH := (rfl)
@[simp] theorem returnRead_hostTime (s : State) (v : Word) : (returnRead s v).hostTime = s.hostTime := (rfl)
@[simp] theorem returnRead_opf (s : State) (v : Word) : (returnRead s v).opf = s.opf := (rfl)
@[simp] theorem returnRead_opd (s : State) (v : Word) : (returnRead s v).opd = s.opd := (rfl)
@[simp] theorem returnRead_opp (s : State) (v : Word) : (returnRead s v).opp = s.opp := (rfl)
@[simp] theorem returnRead_syn (s : State) (v : Word) : (returnRead s v).syn = s.syn := (rfl)
@[simp] theorem returnRead_buf (s : State) (v : Word) : (returnRead s v).buf = s.buf := (rfl)
@[simp] theorem returnRead_outValid (s : State) (v : Word) : (returnRead s v).outValid = s.outValid := (rfl)
@[simp] theorem returnRead_outSr (s : State) (v : Word) : (returnRead s v).outSr = s.outSr := (rfl)
@[simp] theorem returnRead_fitValid (s : State) (v : Word) : (returnRead s v).fitValid = s.fitValid := (rfl)
@[simp] theorem returnRead_fitMode (s : State) (v : Word) : (returnRead s v).fitMode = s.fitMode := (rfl)
@[simp] theorem returnRead_fit (s : State) (v : Word) : (returnRead s v).fit = s.fit := (rfl)
@[simp] theorem returnRead_canvas (s : State) (v : Word) : (returnRead s v).canvas = s.canvas := (rfl)
@[simp] theorem returnRead_warnOversize (s : State) (v : Word) : (returnRead s v).warnOversize = s.warnOversize := (rfl)
@[simp] theorem returnRead_err (s : State) (v : Word) : (returnRead s v).err = s.err := (rfl)
@[simp] theorem returnRead_src (s : State) (v : Word) : (returnRead s v).src = s.src := (rfl)
@[simp] theorem returnRead_script (s : State) (v : Word) : (returnRead s v).script = s.script := (rfl)
@[simp] theorem returnRead_rdata (s : State) (v : Word) : (returnRead s v).rdata = v := (rfl)
@[simp] theorem returnRead_draws (s : State) (v : Word) : (returnRead s v).draws = s.draws := (rfl)

/-! ### storeSource -/

@[simp] theorem storeSource_sampleRate (s : State) (a n : Nat) (d : Word) : (storeSource s a n d).sampleRate = s.sampleRate := (rfl)
@[simp] theorem storeSource_bitDepth (s : State) (a n : Nat) (d : Word) : (storeSource s a n d).bitDepth = s.bitDepth := (rfl)
@[simp] theorem storeSource_srcW (s : State) (a n : Nat) (d : Word) : (storeSource s a n d).srcW = s.srcW := (rfl)
@[simp] theorem storeSource_srcH (s : State) (a n : Nat) (d : Word) : (storeSource s a n d).srcH = s.srcH := (rfl)
@[simp] theorem storeSource_hostTime (s : State) (a n : Nat) (d : Word) : (storeSource s a n d).hostTime = s.hostTime := (rfl)
@[simp] theorem storeSource_opf (s : State) (a n : Nat) (d : Word) : (storeSource s a n d).opf = s.opf := (rfl)
@[simp] theorem storeSource_opd (s : State) (a n : Nat) (d : Word) : (storeSource s a n d).opd = s.opd := (rfl)
@[simp] theorem storeSource_opp (s : State) (a n : Nat) (d : Word) : (storeSource s a n d).opp = s.opp := (rfl)
@[simp] theorem storeSource_syn (s : State) (a n : Nat) (d : Word) : (storeSource s a n d).syn = s.syn := (rfl)
@[simp] theorem storeSource_buf (s : State) (a n : Nat) (d : Word) : (storeSource s a n d).buf = s.buf := (rfl)
@[simp] theorem storeSource_outValid (s : State) (a n : Nat) (d : Word) : (storeSource s a n d).outValid = s.outValid := (rfl)
@[simp] theorem storeSource_outSr (s : State) (a n : Nat) (d : Word) : (storeSource s a n d).outSr = s.outSr := (rfl)
@[simp] theorem storeSource_fitValid (s : State) (a n : Nat) (d : Word) : (storeSource s a n d).fitValid = s.fitValid := (rfl)
@[simp] theorem storeSource_fitMode (s : State) (a n : Nat) (d : Word) : (storeSource s a n d).fitMode = s.fitMode := (rfl)
@[simp] theorem storeSource_fit (s : State) (a n : Nat) (d : Word) : (storeSource s a n d).fit = s.fit := (rfl)
@[simp] theorem storeSource_canvas (s : State) (a n : Nat) (d : Word) : (storeSource s a n d).canvas = s.canvas := (rfl)
@[simp] theorem storeSource_warnOversize (s : State) (a n : Nat) (d : Word) : (storeSource s a n d).warnOversize = s.warnOversize := (rfl)
@[simp] theorem storeSource_err (s : State) (a n : Nat) (d : Word) : (storeSource s a n d).err = s.err := (rfl)
@[simp] theorem storeSource_src (s : State) (a n : Nat) (d : Word) : (storeSource s a n d).src = memStoreList s.src a (bytesOf d n) := (rfl)
@[simp] theorem storeSource_script (s : State) (a n : Nat) (d : Word) : (storeSource s a n d).script = s.script := (rfl)
@[simp] theorem storeSource_rdata (s : State) (a n : Nat) (d : Word) : (storeSource s a n d).rdata = s.rdata := (rfl)
@[simp] theorem storeSource_draws (s : State) (a n : Nat) (d : Word) : (storeSource s a n d).draws = s.draws := (rfl)

/-! ### applyFit -/

@[simp] theorem applyFit_sampleRate (s : State) (m : Mode) : (applyFit s m).sampleRate = s.sampleRate := (rfl)
@[simp] theorem applyFit_bitDepth (s : State) (m : Mode) : (applyFit s m).bitDepth = s.bitDepth := (rfl)
@[simp] theorem applyFit_srcW (s : State) (m : Mode) : (applyFit s m).srcW = s.srcW := (rfl)
@[simp] theorem applyFit_srcH (s : State) (m : Mode) : (applyFit s m).srcH = s.srcH := (rfl)
@[simp] theorem applyFit_hostTime (s : State) (m : Mode) : (applyFit s m).hostTime = s.hostTime := (rfl)
@[simp] theorem applyFit_opf (s : State) (m : Mode) : (applyFit s m).opf = s.opf := (rfl)
@[simp] theorem applyFit_opd (s : State) (m : Mode) : (applyFit s m).opd = s.opd := (rfl)
@[simp] theorem applyFit_opp (s : State) (m : Mode) : (applyFit s m).opp = s.opp := (rfl)
@[simp] theorem applyFit_syn (s : State) (m : Mode) : (applyFit s m).syn = s.syn := (rfl)
@[simp] theorem applyFit_buf (s : State) (m : Mode) : (applyFit s m).buf = s.buf := (rfl)
@[simp] theorem applyFit_outValid (s : State) (m : Mode) : (applyFit s m).outValid = s.outValid := (rfl)
@[simp] theorem applyFit_outSr (s : State) (m : Mode) : (applyFit s m).outSr = s.outSr := (rfl)
@[simp] theorem applyFit_fitValid (s : State) (m : Mode) : (applyFit s m).fitValid = true := (rfl)
@[simp] theorem applyFit_fitMode (s : State) (m : Mode) : (applyFit s m).fitMode = m := (rfl)
@[simp] theorem applyFit_fit (s : State) (m : Mode) : (applyFit s m).fit = fitRecord s m := (rfl)
@[simp] theorem applyFit_canvas (s : State) (m : Mode) : (applyFit s m).canvas = fittedCanvas s m := (rfl)
@[simp] theorem applyFit_warnOversize (s : State) (m : Mode) : (applyFit s m).warnOversize = oversize m s.srcW.toNat s.srcH.toNat := (rfl)
@[simp] theorem applyFit_err (s : State) (m : Mode) : (applyFit s m).err = ErrRecord.ok := (rfl)
@[simp] theorem applyFit_src (s : State) (m : Mode) : (applyFit s m).src = s.src := (rfl)
@[simp] theorem applyFit_script (s : State) (m : Mode) : (applyFit s m).script = s.script := (rfl)
@[simp] theorem applyFit_rdata (s : State) (m : Mode) : (applyFit s m).rdata = s.rdata := (rfl)
@[simp] theorem applyFit_draws (s : State) (m : Mode) : (applyFit s m).draws = s.draws := (rfl)

/-! ### writeReg: what no register write changes -/

@[simp] theorem writeReg_syn (s : State) (r : Reg) (v : Word) : (writeReg s r v).syn = s.syn := by
  cases r <;> rfl
@[simp] theorem writeRegAt_syn (s : State) (off : Nat) (v : Word) : (writeRegAt s off v).syn = s.syn := by
  unfold writeRegAt; split <;> simp
@[simp] theorem writeReg_buf (s : State) (r : Reg) (v : Word) : (writeReg s r v).buf = s.buf := by
  cases r <;> rfl
@[simp] theorem writeRegAt_buf (s : State) (off : Nat) (v : Word) : (writeRegAt s off v).buf = s.buf := by
  unfold writeRegAt; split <;> simp
@[simp] theorem writeReg_outValid (s : State) (r : Reg) (v : Word) : (writeReg s r v).outValid = s.outValid := by
  cases r <;> rfl
@[simp] theorem writeRegAt_outValid (s : State) (off : Nat) (v : Word) : (writeRegAt s off v).outValid = s.outValid := by
  unfold writeRegAt; split <;> simp
@[simp] theorem writeReg_outSr (s : State) (r : Reg) (v : Word) : (writeReg s r v).outSr = s.outSr := by
  cases r <;> rfl
@[simp] theorem writeRegAt_outSr (s : State) (off : Nat) (v : Word) : (writeRegAt s off v).outSr = s.outSr := by
  unfold writeRegAt; split <;> simp
@[simp] theorem writeReg_fitValid (s : State) (r : Reg) (v : Word) : (writeReg s r v).fitValid = s.fitValid := by
  cases r <;> rfl
@[simp] theorem writeRegAt_fitValid (s : State) (off : Nat) (v : Word) : (writeRegAt s off v).fitValid = s.fitValid := by
  unfold writeRegAt; split <;> simp
@[simp] theorem writeReg_fitMode (s : State) (r : Reg) (v : Word) : (writeReg s r v).fitMode = s.fitMode := by
  cases r <;> rfl
@[simp] theorem writeRegAt_fitMode (s : State) (off : Nat) (v : Word) : (writeRegAt s off v).fitMode = s.fitMode := by
  unfold writeRegAt; split <;> simp
@[simp] theorem writeReg_fit (s : State) (r : Reg) (v : Word) : (writeReg s r v).fit = s.fit := by
  cases r <;> rfl
@[simp] theorem writeRegAt_fit (s : State) (off : Nat) (v : Word) : (writeRegAt s off v).fit = s.fit := by
  unfold writeRegAt; split <;> simp
@[simp] theorem writeReg_canvas (s : State) (r : Reg) (v : Word) : (writeReg s r v).canvas = s.canvas := by
  cases r <;> rfl
@[simp] theorem writeRegAt_canvas (s : State) (off : Nat) (v : Word) : (writeRegAt s off v).canvas = s.canvas := by
  unfold writeRegAt; split <;> simp
@[simp] theorem writeReg_warnOversize (s : State) (r : Reg) (v : Word) : (writeReg s r v).warnOversize = s.warnOversize := by
  cases r <;> rfl
@[simp] theorem writeRegAt_warnOversize (s : State) (off : Nat) (v : Word) : (writeRegAt s off v).warnOversize = s.warnOversize := by
  unfold writeRegAt; split <;> simp
@[simp] theorem writeReg_err (s : State) (r : Reg) (v : Word) : (writeReg s r v).err = s.err := by
  cases r <;> rfl
@[simp] theorem writeRegAt_err (s : State) (off : Nat) (v : Word) : (writeRegAt s off v).err = s.err := by
  unfold writeRegAt; split <;> simp
@[simp] theorem writeReg_src (s : State) (r : Reg) (v : Word) : (writeReg s r v).src = s.src := by
  cases r <;> rfl
@[simp] theorem writeRegAt_src (s : State) (off : Nat) (v : Word) : (writeRegAt s off v).src = s.src := by
  unfold writeRegAt; split <;> simp
@[simp] theorem writeReg_script (s : State) (r : Reg) (v : Word) : (writeReg s r v).script = s.script := by
  cases r <;> rfl
@[simp] theorem writeRegAt_script (s : State) (off : Nat) (v : Word) : (writeRegAt s off v).script = s.script := by
  unfold writeRegAt; split <;> simp
@[simp] theorem writeReg_rdata (s : State) (r : Reg) (v : Word) : (writeReg s r v).rdata = s.rdata := by
  cases r <;> rfl
@[simp] theorem writeRegAt_rdata (s : State) (off : Nat) (v : Word) : (writeRegAt s off v).rdata = s.rdata := by
  unfold writeRegAt; split <;> simp
@[simp] theorem writeReg_draws (s : State) (r : Reg) (v : Word) : (writeReg s r v).draws = s.draws := by
  cases r <;> rfl
@[simp] theorem writeRegAt_draws (s : State) (off : Nat) (v : Word) : (writeRegAt s off v).draws = s.draws := by
  unfold writeRegAt; split <;> simp

/-! ### Equality of states -/

/-- Two states are equal when every field is. -/
@[ext] theorem State.ext_fields {s t : State} (sampleRate : s.sampleRate = t.sampleRate)
    (bitDepth : s.bitDepth = t.bitDepth) (srcW : s.srcW = t.srcW) (srcH : s.srcH = t.srcH)
    (hostTime : s.hostTime = t.hostTime) (opf : s.opf = t.opf) (opd : s.opd = t.opd) (opp : s.opp = t.opp)
    (syn : s.syn = t.syn) (buf : s.buf = t.buf) (outValid : s.outValid = t.outValid) (outSr : s.outSr = t.outSr)
    (fitValid : s.fitValid = t.fitValid) (fitMode : s.fitMode = t.fitMode) (fit : s.fit = t.fit)
    (canvas : s.canvas = t.canvas) (warnOversize : s.warnOversize = t.warnOversize) (err : s.err = t.err)
    (src : s.src = t.src) (script : s.script = t.script) (rdata : s.rdata = t.rdata) (draws : s.draws = t.draws) :
    s = t := by
  cases s; cases t; simp_all

end Sys2Proof.Machine
end

