-- ==== Sys2Proof/Laws/Memory.lean ====
section
/-! SUPPORT. Laws of memory: reading after writing, the canonical form kept by every operation, and what the fitted
canvas holds at each address. -/

namespace Sys2Proof.Machine

/-! ### Reading after writing -/

@[simp] theorem memLookup_memStore_same (m : Memory) (k : Nat) (v : Byte) : memLookup (memStore m k v) k = some v := by
  induction m with
  | nil => simp [memStore, memLookup]
  | cons c rest ih =>
    obtain ⟨a, b⟩ := c
    unfold memStore
    split_ifs with h1 h2
    · simp [memLookup]
    · simp [memLookup]
    · simp [memLookup, Ne.symm h2, ih]

theorem memLookup_memStore_other (m : Memory) {k j : Nat} (v : Byte) (h : j ≠ k) :
    memLookup (memStore m k v) j = memLookup m j := by
  induction m with
  | nil => simp [memStore, memLookup, Ne.symm h]
  | cons c rest ih =>
    obtain ⟨a, b⟩ := c
    unfold memStore
    split_ifs with h1 h2
    · simp [memLookup, Ne.symm h]
    · subst h2; simp [memLookup, Ne.symm h]
    · simp [memLookup, ih]

/-- Bytes stored at consecutive addresses are read back, every other address is left alone. -/
theorem memLookup_memStoreList (m : Memory) (k : Nat) (vs : List Byte) (j : Nat) :
    memLookup (memStoreList m k vs) j = if k ≤ j ∧ j < k + vs.length then vs[j - k]? else memLookup m j := by
  induction vs generalizing m k with
  | nil =>
    simp only [memStoreList, List.length_nil, Nat.add_zero]
    rw [if_neg (by omega)]
  | cons v vs ih =>
    simp only [memStoreList, List.length_cons]
    rw [ih]
    by_cases h1 : k + 1 ≤ j ∧ j < k + 1 + vs.length
    · rw [if_pos h1, if_pos (by omega)]
      have : j - k = (j - (k + 1)) + 1 := by omega
      rw [this, List.getElem?_cons_succ]
    · rw [if_neg h1]
      by_cases h2 : j = k
      · subst h2
        rw [memLookup_memStore_same, if_pos (by omega)]
        simp
      · rw [memLookup_memStore_other _ _ h2, if_neg (by omega)]

/-! ### The canonical form -/

theorem rising_of_le {lo lo' : Nat} {m : Memory} (h : lo' ≤ lo) (hm : Memory.rising lo m = true) :
    Memory.rising lo' m = true := by
  cases m with
  | nil => rfl
  | cons c rest =>
    obtain ⟨a, b⟩ := c
    simp only [Memory.rising, Bool.and_eq_true, decide_eq_true_eq] at hm ⊢
    exact ⟨by omega, hm.2⟩

theorem rising_memStore {lo k : Nat} {m : Memory} (v : Byte) (hk : lo ≤ k) (hm : Memory.rising lo m = true) :
    Memory.rising lo (memStore m k v) = true := by
  induction m generalizing lo with
  | nil => simp [memStore, Memory.rising, hk]
  | cons c rest ih =>
    obtain ⟨a, b⟩ := c
    simp only [Memory.rising, Bool.and_eq_true, decide_eq_true_eq] at hm
    unfold memStore
    split_ifs with h1 h2
    · simp only [Memory.rising, Bool.and_eq_true, decide_eq_true_eq]
      exact ⟨hk, by omega, hm.2⟩
    · subst h2
      simp only [Memory.rising, Bool.and_eq_true, decide_eq_true_eq]
      exact ⟨hk, hm.2⟩
    · simp only [Memory.rising, Bool.and_eq_true, decide_eq_true_eq]
      exact ⟨hm.1, ih (by omega) hm.2⟩

theorem wf_memStore {m : Memory} (k : Nat) (v : Byte) (hm : m.wf = true) : Memory.wf (memStore m k v) = true :=
  rising_memStore v (Nat.zero_le k) hm

theorem wf_memStoreList {m : Memory} (k : Nat) (vs : List Byte) (hm : m.wf = true) :
    Memory.wf (memStoreList m k vs) = true := by
  induction vs generalizing m k with
  | nil => exact hm
  | cons v vs ih => exact ih (k + 1) (wf_memStore k v hm)

/-- The addresses of a store are those before it and the one stored to. -/
theorem mem_memStore {m : Memory} {k : Nat} {v : Byte} {c : Host.Cell} (h : c ∈ memStore m k v) :
    c = (k, v) ∨ c ∈ m := by
  induction m with
  | nil => simpa [memStore] using h
  | cons d rest ih =>
    obtain ⟨a, b⟩ := d
    unfold memStore at h
    split_ifs at h with h1 h2
    · simpa using h
    · simp only [List.mem_cons] at h ⊢; tauto
    · simp only [List.mem_cons] at h ⊢
      rcases h with h | h
      · tauto
      · have := ih h; tauto

theorem mem_memStoreList {m : Memory} {k : Nat} {vs : List Byte} {c : Host.Cell} (h : c ∈ memStoreList m k vs) :
    (k ≤ c.1 ∧ c.1 < k + vs.length) ∨ c ∈ m := by
  induction vs generalizing m k with
  | nil => exact Or.inr h
  | cons v vs ih =>
    rcases ih h with h | h
    · left; simp only [List.length_cons]; omega
    · rcases mem_memStore h with h | h
      · left; subst h; simp
      · exact Or.inr h

/-! ### The fitted canvas -/

theorem rising_map_range' (f : Nat → Byte) (b lo k n : Nat) (h : lo ≤ b + k) :
    Memory.rising lo ((List.range' k n).map (fun j => (b + j, f j))) = true := by
  induction n generalizing k lo with
  | zero => rfl
  | succ n ih =>
    simp only [List.range'_succ, List.map_cons, Memory.rising, Bool.and_eq_true, decide_eq_true_eq]
    exact ⟨h, ih (b + k + 1) (k + 1) (by omega)⟩

theorem wf_canvasOf (img : List Byte) (sw sh : Nat) (m : Mode) : Memory.wf (canvasOf img sw sh m) = true :=
  rising_map_range' _ _ _ _ _ (by omega)

theorem memLookup_map_range' (f : Nat → Byte) (b k n j : Nat) :
    memLookup ((List.range' k n).map (fun i => (b + i, f i))) (b + j)
      = if k ≤ j ∧ j < k + n then some (f j) else none := by
  induction n generalizing k with
  | zero =>
    simp only [List.range'_zero, List.map_nil, memLookup, Nat.add_zero]
    rw [if_neg (by omega)]
  | succ n ih =>
    simp only [List.range'_succ, List.map_cons, memLookup]
    by_cases h : k = j
    · subst h; rw [if_pos rfl, if_pos (by omega)]
    · rw [if_neg (by omega), ih]
      by_cases h2 : k + 1 ≤ j ∧ j < k + 1 + n
      · rw [if_pos h2, if_pos (by omega)]
      · rw [if_neg h2, if_neg (by omega)]

/-- Byte `k` of a fitted canvas (R91). -/
theorem memLookup_canvasOf (img : List Byte) (sw sh : Nat) (m : Mode) {k : Nat} (h : k < canvasBytes m) :
    memLookup (canvasOf img sw sh m) (canvasBase + k)
      = some (fittedByte img sw sh m (k / 3 % Config.modeW m) (k / 3 / Config.modeW m) (k % 3)) := by
  unfold canvasOf
  rw [memLookup_map_range' (fun k => fittedByte img sw sh m (k / 3 % Config.modeW m) (k / 3 / Config.modeW m) (k % 3))]
  rw [if_pos (by omega)]

/-- Channel `c` of pixel (x, y) of a fitted canvas (R91, spec/20_memory.md R29). -/
theorem memLookup_canvasOf_pixel (img : List Byte) (sw sh : Nat) (m : Mode) {x y c : Nat} (hx : x < Config.modeW m)
    (hy : y < Config.modeH m) (hc : c < 3) :
    memLookup (canvasOf img sw sh m) (canvasBase + 3 * (y * Config.modeW m + x) + c)
      = some (fittedByte img sw sh m x y c) := by
  have hlt : 3 * (y * Config.modeW m + x) + c < canvasBytes m := by
    have : y * Config.modeW m + x < Config.modeW m * Config.modeH m := by
      calc y * Config.modeW m + x < y * Config.modeW m + Config.modeW m := by omega
        _ = (y + 1) * Config.modeW m := by ring
        _ ≤ Config.modeH m * Config.modeW m := Nat.mul_le_mul_right _ hy
        _ = _ := by ring
    unfold canvasBytes; omega
  rw [Nat.add_assoc, memLookup_canvasOf _ _ _ _ hlt]
  have h3 : (3 * (y * Config.modeW m + x) + c) / 3 = y * Config.modeW m + x := by omega
  have hm : (3 * (y * Config.modeW m + x) + c) % 3 = c := by omega
  have hp : 0 < Config.modeW m := by omega
  rw [h3, hm, Nat.add_comm (y * _), Nat.add_mul_mod_self_right, Nat.mod_eq_of_lt hx, Nat.add_mul_div_right _ _ hp,
    Nat.div_eq_of_lt hx, Nat.zero_add]

theorem canvasOf_addresses (img : List Byte) (sw sh : Nat) (m : Mode) :
    (canvasOf img sw sh m).map Prod.fst = List.range' canvasBase (canvasBytes m) := by
  unfold canvasOf
  rw [List.map_map, List.range'_eq_map_range, List.range'_eq_map_range, List.map_map]
  apply List.map_congr_left
  intro k _
  simp

/-! ### What the host and the core read -/

theorem memByte_source (s : State) {b : Nat} (h1 : srcBase ≤ b) (h2 : b < srcBase + srcSize) :
    memByte s b = srcByte s b := if_pos ⟨h1, h2⟩

/-- Below the size of a fitted canvas the host reads what the core reads (spec/20_memory.md R26, R34). -/
theorem memByte_canvas {s : State} {k : Nat} (hv : s.fitValid = true) (hk : k < canvasBytes s.fitMode) :
    memByte s (canvasBase + k) = canvasCell s (canvasBase + k) := by
  have hs : canvasBytes s.fitMode ≤ canvasSize := by cases s.fitMode <;> decide
  have h1 : ¬ (srcBase ≤ canvasBase + k ∧ canvasBase + k < srcBase + srcSize) := by
    unfold srcBase canvasBase srcSize; omega
  unfold memByte canvasHostByte
  rw [if_neg h1, if_pos (by omega), if_pos ⟨hv, by omega⟩]

/-- Outside the source window a byte does not depend on the source memory. -/
theorem memByte_of_src (s : State) (m : Memory) {b : Nat} (h : ¬ (srcBase ≤ b ∧ b < srcBase + srcSize)) :
    memByte { s with src := m } b = memByte s b := by
  unfold memByte
  rw [if_neg h, if_neg h]
  rfl

@[simp] theorem bytesOf_length (d : Word) (n : Nat) : (bytesOf d n).length = n := by simp [bytesOf]

theorem bytesOf_getElem? (d : Word) {n i : Nat} (h : i < n) : (bytesOf d n)[i]? = some (byteOf d i) := by
  simp [bytesOf, h]

/-- Byte `i` of a word is its bits 8i + 7 to 8i (spec/20_memory.md R31). -/
theorem byteOf_eq_extract (d : Word) (i : Nat) : byteOf d i = d.extractLsb' (8 * i) 8 := by
  apply BitVec.eq_of_toNat_eq
  simp [byteOf, Nat.shiftRight_eq_div_pow]

/-- The source memory after a source write: the stored bytes, and every other byte as before. -/
theorem memLookup_storeSource (s : State) (a n : Nat) (d : Word) (b : Nat) :
    memLookup (storeSource s a n d).src b =
      if a ≤ b ∧ b < a + n then some (byteOf d (b - a)) else memLookup s.src b := by
  show memLookup (memStoreList s.src a (bytesOf d n)) b = _
  rw [memLookup_memStoreList, bytesOf_length]
  by_cases h : a ≤ b ∧ b < a + n
  · rw [if_pos h, if_pos h, bytesOf_getElem? d (by omega)]
  · rw [if_neg h, if_neg h]

end Sys2Proof.Machine
end

