-- ==== Sys2Proof/Laws/Commands.lean ====
section
/-! SUPPORT. What the shared operations of the commands can do, said once for each: the checks, the end of an emitting
command, a run, and the commands themselves. -/

namespace Sys2Proof.Machine

/-! ### The checks (R114, R115) -/

theorem checked_cases (cs : List (Option ErrRecord)) (s effect : State) :
    (∃ e, firstErr cs = some e ∧ checked cs s effect = raiseErr s e) ∨
    (firstErr cs = none ∧ checked cs s effect = effect) := by
  unfold checked
  cases h : firstErr cs
  · exact Or.inr ⟨rfl, rfl⟩
  · exact Or.inl ⟨_, rfl, rfl⟩

theorem withMode_cases (m : Nat) (s : State) (effect : Mode → State) :
    (modeOf m = none ∧ withMode m s effect = raiseErr s (errMode m)) ∨
    (∃ md, modeOf m = some md ∧ withMode m s effect = effect md) := by
  unfold withMode
  cases h : modeOf m
  · exact Or.inl ⟨rfl, rfl⟩
  · exact Or.inr ⟨_, rfl, rfl⟩

theorem modeOf_eq_none_iff {m : Nat} : modeOf m = none ↔ 4 ≤ m := by
  unfold modeOf; split <;> (simp_all; try omega)

theorem modeOf_eq_some_iff {m : Nat} {md : Mode} : modeOf m = some md ↔ m = Config.modeNumber md := by
  unfold modeOf
  split <;> cases md <;> simp_all [Config.modeNumber]

/-- The checks answer none exactly when all of them do. -/
theorem firstErr_none_iff {cs : List (Option ErrRecord)} : firstErr cs = none ↔ ∀ c ∈ cs, c = none := by
  induction cs with
  | nil => simp [firstErr]
  | cons c cs ih => cases c <;> simp [firstErr, ih]

theorem firstErr_mem {cs : List (Option ErrRecord)} {e : ErrRecord} (h : firstErr cs = some e) : some e ∈ cs := by
  induction cs with
  | nil => simp [firstErr] at h
  | cons c cs ih =>
    cases c with
    | none => exact List.mem_cons_of_mem _ (ih h)
    | some a => simp only [firstErr, Option.some.injEq] at h; subst h; exact List.mem_cons_self

theorem checkRate_none_iff {s : State} : checkRate s = none ↔ rateLegal s.sampleRate := by
  unfold checkRate rateLegal; split_ifs with h <;> simp <;> omega

theorem checkDepth_none_iff {s : State} : checkDepth s = none ↔ s.bitDepth = 16#32 := by
  unfold checkDepth
  split_ifs with h
  · simp only [true_iff]; exact BitVec.eq_of_toNat_eq (by simpa [Config.bitDepthLegal] using h)
  · simp only [false_iff]
    rintro h2; exact h (by rw [h2]; rfl)

theorem checkSource_none_iff {s : State} :
    checkSource s = none ↔ 1 ≤ srcPixels s ∧ srcPixels s ≤ srcMaxPixels := by
  unfold checkSource; split_ifs with h <;> simp <;> omega

theorem checkFitted_none_iff {m : Mode} {s : State} :
    checkFitted m s = none ↔ s.fitValid = true ∧ s.fitMode = m := by
  unfold checkFitted; split_ifs with h <;> simp [h]

theorem checkFreq_none_iff {f : Binary64} : checkFreq f = none ↔ f64IsFinite f = true := by
  unfold checkFreq; split_ifs with h <;> simp [h]

theorem checkPhase_none_iff {f : Binary64} : checkPhase f = none ↔ f64IsFinite f = true := by
  unfold checkPhase; split_ifs with h <;> simp [h]

theorem checkDur_none_iff {d : Binary64} : checkDur d = none ↔ F64Nonneg d := by
  unfold checkDur F64Nonneg f64Lt
  split_ifs with h
  · simp only [Bool.and_eq_true, Bool.not_eq_true', Bool.and_eq_false_iff, decide_eq_false_iff_not, f64Key_zero] at h
    simp only [true_iff]
    refine ⟨h.1, ?_⟩
    rcases h.2 with h2 | h2
    · rw [f64IsNaN_of_finite h.1, f64IsNaN_zero] at h2; simp at h2
    · omega
  · simp only [false_iff]
    rintro ⟨h1, h2⟩
    apply h
    simp [h1, f64IsNaN_of_finite h1, f64IsNaN_zero, f64Key_zero, h2]

/-! ### Error records -/

/-- A record that some check can raise. -/
def raisable (e : ErrRecord) : Prop := e.code ≠ 0#8 ∧ e.code.toNat ≤ 8

theorem raisable_errMode (m : Nat) : raisable (errMode m) := ⟨by simp [errMode, mkErr], by simp [errMode, mkErr]⟩
theorem raisable_errCap (n : Nat) : raisable (errCap n) := ⟨by simp [errCap, mkErr], by simp [errCap, mkErr]⟩
theorem raisable_errIllegal (w : Word) : raisable (errIllegal w) :=
  ⟨by simp [errIllegal, mkErr], by simp [errIllegal, mkErr]⟩

theorem raisable_checkRate {s : State} {e : ErrRecord} (h : checkRate s = some e) : raisable e := by
  unfold checkRate at h; split_ifs at h; cases h
  exact ⟨by simp [errRate, mkErr], by simp [errRate, mkErr]⟩
theorem raisable_checkDepth {s : State} {e : ErrRecord} (h : checkDepth s = some e) : raisable e := by
  unfold checkDepth at h; split_ifs at h; cases h
  exact ⟨by simp [errDepth, mkErr], by simp [errDepth, mkErr]⟩
theorem raisable_checkSource {s : State} {e : ErrRecord} (h : checkSource s = some e) : raisable e := by
  unfold checkSource at h; split_ifs at h; cases h
  exact ⟨by simp [errSource, mkErr], by simp [errSource, mkErr]⟩
theorem raisable_checkFitted {m : Mode} {s : State} {e : ErrRecord} (h : checkFitted m s = some e) : raisable e := by
  unfold checkFitted at h; split_ifs at h; cases h
  exact ⟨by simp [errNoImage, mkErr], by simp [errNoImage, mkErr]⟩
theorem raisable_checkFreq {f : Binary64} {e : ErrRecord} (h : checkFreq f = some e) : raisable e := by
  unfold checkFreq at h; split_ifs at h; cases h
  exact ⟨by simp [errOperand, mkErr], by simp [errOperand, mkErr]⟩
theorem raisable_checkDur {f : Binary64} {e : ErrRecord} (h : checkDur f = some e) : raisable e := by
  unfold checkDur at h; split_ifs at h; cases h
  exact ⟨by simp [errOperand, mkErr], by simp [errOperand, mkErr]⟩
theorem raisable_checkPhase {f : Binary64} {e : ErrRecord} (h : checkPhase f = some e) : raisable e := by
  unfold checkPhase at h; split_ifs at h; cases h
  exact ⟨by simp [errOperand, mkErr], by simp [errOperand, mkErr]⟩

/-! ### Emitting -/

theorem emitPending_cases (s : State) (ts : List Tone) :
    (Config.bufCap < s.buf.length + countTones (rateF s) s.syn.carry ts ∧
      emitPending s ts = raiseErr s (errCap (s.buf.length + countTones (rateF s) s.syn.carry ts))) ∨
    (s.buf.length + countTones (rateF s) s.syn.carry ts ≤ Config.bufCap ∧
      emitPending s ts = appendOutput s (emitTones (rateF s) s.syn ts)) := by
  unfold emitPending
  split_ifs with h
  · exact Or.inl ⟨h, rfl⟩
  · exact Or.inr ⟨by omega, rfl⟩

theorem runSequence_legal {s : State} (m : Mode) (h : rateLegal s.sampleRate) :
    runSequence s m = finishRun (applyFit s m) (emitTones (rateF s) Syn.fresh (runTones (applyFit s m) m)) := by
  unfold runSequence
  rw [if_neg]
  have := runCount_le_bufCap s m h.2
  omega

/-! ### What a command can do -/

/-- The outcome of a command that succeeds. -/
inductive Effect (s : State) : Instr → State → Prop where
  | nop : Effect s .nop (clearErr s)
  | emit (h : s.buf.length + countTones (rateF s) s.syn.carry [⟨s.opf, s.opd, none⟩] ≤ Config.bufCap)
      (hr : rateLegal s.sampleRate) (hd : F64Nonneg s.opd) (hf : f64IsFinite s.opf = true) :
      Effect s .emit (appendOutput s (emitTones (rateF s) s.syn [⟨s.opf, s.opd, none⟩]))
  | emitPhi (h : s.buf.length + countTones (rateF s) s.syn.carry [⟨s.opf, s.opd, some s.opp⟩] ≤ Config.bufCap)
      (hr : rateLegal s.sampleRate) (hd : F64Nonneg s.opd) (hf : f64IsFinite s.opf = true)
      (hp : f64IsFinite s.opp = true) :
      Effect s .emitPhi (appendOutput s (emitTones (rateF s) s.syn [⟨s.opf, s.opd, some s.opp⟩]))
  | synthClear : Effect s .synthClear (freshSyn (clearErr s))
  | bufClear : Effect s .bufClear (emptyBuf (clearErr s))
  | vis (m : Nat) (md : Mode) (hm : modeOf m = some md)
      (h : s.buf.length + countTones (rateF s) s.syn.carry (visTones md) ≤ Config.bufCap)
      (hr : rateLegal s.sampleRate) :
      Effect s (.vis m) (appendOutput s (emitTones (rateF s) s.syn (visTones md)))
  | fit (m : Nat) (md : Mode) (hm : modeOf m = some md) (h1 : 1 ≤ srcPixels s) (h2 : srcPixels s ≤ srcMaxPixels) :
      Effect s (.fit m) (applyFit s md)
  | scan (m : Nat) (md : Mode) (hm : modeOf m = some md)
      (h : s.buf.length + countTones (rateF s) s.syn.carry (scanTones s md) ≤ Config.bufCap)
      (hr : rateLegal s.sampleRate) (hv : s.fitValid = true) (hmd : s.fitMode = md) :
      Effect s (.scan m) (appendOutput s (emitTones (rateF s) s.syn (scanTones s md)))
  | endTones (h : s.buf.length + countTones (rateF s) s.syn.carry endTones ≤ Config.bufCap)
      (hr : rateLegal s.sampleRate) :
      Effect s .endTones (appendOutput s (emitTones (rateF s) s.syn endTones))
  | run (m : Nat) (md : Mode) (hm : modeOf m = some md) (hr : rateLegal s.sampleRate) (h1 : 1 ≤ srcPixels s)
      (h2 : srcPixels s ≤ srcMaxPixels) :
      Effect s (.run m)
        (finishRun (applyFit s md) (emitTones (rateF s) Syn.fresh (runTones (applyFit s md) md)))
  | clear : Effect s .clear (clearOutputs (clearErr s))

/-- Every command answers a next state: the state it found with an error record, or its effect. -/
theorem exec_cases (i : Instr) (s : State) :
    ∃ t, exec i s = .next t ∧ ((∃ e, raisable e ∧ t = raiseErr s e) ∨ Effect s i t) := by
  cases i with
  | nop => exact ⟨_, rfl, Or.inr .nop⟩
  | synthClear => exact ⟨_, rfl, Or.inr .synthClear⟩
  | bufClear => exact ⟨_, rfl, Or.inr .bufClear⟩
  | clear => exact ⟨_, rfl, Or.inr .clear⟩
  | emit =>
    refine ⟨_, rfl, ?_⟩
    rcases checked_cases [checkRate s, checkDepth s, checkFreq s.opf, checkDur s.opd] s
      (emitPending s [⟨s.opf, s.opd, none⟩]) with ⟨e, he, h⟩ | ⟨hn, h⟩
    · refine Or.inl ⟨e, ?_, h⟩
      have := firstErr_mem he
      simp only [List.mem_cons, List.not_mem_nil, or_false] at this
      rcases this with h | h | h | h
      · exact raisable_checkRate h.symm
      · exact raisable_checkDepth h.symm
      · exact raisable_checkFreq h.symm
      · exact raisable_checkDur h.symm
    · rw [h]
      have hall := firstErr_none_iff.1 hn
      rcases emitPending_cases s [⟨s.opf, s.opd, none⟩] with ⟨hc, h⟩ | ⟨hc, h⟩
      · exact Or.inl ⟨_, raisable_errCap _, h⟩
      · rw [h]
        exact Or.inr (.emit hc (checkRate_none_iff.1 (hall _ (by simp))) (checkDur_none_iff.1 (hall _ (by simp)))
          (checkFreq_none_iff.1 (hall _ (by simp))))
  | emitPhi =>
    refine ⟨_, rfl, ?_⟩
    rcases checked_cases [checkRate s, checkDepth s, checkFreq s.opf, checkDur s.opd, checkPhase s.opp] s
      (emitPending s [⟨s.opf, s.opd, some s.opp⟩]) with ⟨e, he, h⟩ | ⟨hn, h⟩
    · refine Or.inl ⟨e, ?_, h⟩
      have := firstErr_mem he
      simp only [List.mem_cons, List.not_mem_nil, or_false] at this
      rcases this with h | h | h | h | h
      · exact raisable_checkRate h.symm
      · exact raisable_checkDepth h.symm
      · exact raisable_checkFreq h.symm
      · exact raisable_checkDur h.symm
      · exact raisable_checkPhase h.symm
    · rw [h]
      have hall := firstErr_none_iff.1 hn
      rcases emitPending_cases s [⟨s.opf, s.opd, some s.opp⟩] with ⟨hc, h⟩ | ⟨hc, h⟩
      · exact Or.inl ⟨_, raisable_errCap _, h⟩
      · rw [h]
        exact Or.inr (.emitPhi hc (checkRate_none_iff.1 (hall _ (by simp))) (checkDur_none_iff.1 (hall _ (by simp)))
          (checkFreq_none_iff.1 (hall _ (by simp))) (checkPhase_none_iff.1 (hall _ (by simp))))
  | vis m =>
    refine ⟨_, rfl, ?_⟩
    rcases withMode_cases m s (fun md => checked [checkRate s, checkDepth s] s (emitPending s (visTones md)))
      with ⟨_, h⟩ | ⟨md, hm, h⟩
    · exact Or.inl ⟨_, raisable_errMode m, h⟩
    rw [h]
    rcases checked_cases [checkRate s, checkDepth s] s (emitPending s (visTones md)) with ⟨e, he, h⟩ | ⟨hn, h⟩
    · refine Or.inl ⟨e, ?_, h⟩
      have := firstErr_mem he
      simp only [List.mem_cons, List.not_mem_nil, or_false] at this
      rcases this with h | h
      · exact raisable_checkRate h.symm
      · exact raisable_checkDepth h.symm
    · rw [h]
      have hall := firstErr_none_iff.1 hn
      rcases emitPending_cases s (visTones md) with ⟨hc, h⟩ | ⟨hc, h⟩
      · exact Or.inl ⟨_, raisable_errCap _, h⟩
      · rw [h]
        exact Or.inr (.vis m md hm hc (checkRate_none_iff.1 (hall _ (by simp))))
  | fit m =>
    refine ⟨_, rfl, ?_⟩
    rcases withMode_cases m s (fun md => checked [checkSource s] s (applyFit s md)) with ⟨_, h⟩ | ⟨md, hm, h⟩
    · exact Or.inl ⟨_, raisable_errMode m, h⟩
    rw [h]
    rcases checked_cases [checkSource s] s (applyFit s md) with ⟨e, he, h⟩ | ⟨hn, h⟩
    · refine Or.inl ⟨e, ?_, h⟩
      have := firstErr_mem he
      simp only [List.mem_cons, List.not_mem_nil, or_false] at this
      exact raisable_checkSource this.symm
    · rw [h]
      have := checkSource_none_iff.1 (firstErr_none_iff.1 hn (checkSource s) (by simp))
      exact Or.inr (.fit m md hm this.1 this.2)
  | scan m =>
    refine ⟨_, rfl, ?_⟩
    rcases withMode_cases m s (fun md => checked [checkRate s, checkDepth s, checkFitted md s] s
      (emitPending s (scanTones s md))) with ⟨_, h⟩ | ⟨md, hm, h⟩
    · exact Or.inl ⟨_, raisable_errMode m, h⟩
    rw [h]
    rcases checked_cases [checkRate s, checkDepth s, checkFitted md s] s (emitPending s (scanTones s md))
      with ⟨e, he, h⟩ | ⟨hn, h⟩
    · refine Or.inl ⟨e, ?_, h⟩
      have := firstErr_mem he
      simp only [List.mem_cons, List.not_mem_nil, or_false] at this
      rcases this with h | h | h
      · exact raisable_checkRate h.symm
      · exact raisable_checkDepth h.symm
      · exact raisable_checkFitted h.symm
    · rw [h]
      have hall := firstErr_none_iff.1 hn
      have hfit := checkFitted_none_iff.1 (hall (checkFitted md s) (by simp))
      rcases emitPending_cases s (scanTones s md) with ⟨hc, h⟩ | ⟨hc, h⟩
      · exact Or.inl ⟨_, raisable_errCap _, h⟩
      · rw [h]
        exact Or.inr (.scan m md hm hc (checkRate_none_iff.1 (hall _ (by simp))) hfit.1 hfit.2)
  | endTones =>
    refine ⟨_, rfl, ?_⟩
    rcases checked_cases [checkRate s, checkDepth s] s (emitPending s endTones) with ⟨e, he, h⟩ | ⟨hn, h⟩
    · refine Or.inl ⟨e, ?_, h⟩
      have := firstErr_mem he
      simp only [List.mem_cons, List.not_mem_nil, or_false] at this
      rcases this with h | h
      · exact raisable_checkRate h.symm
      · exact raisable_checkDepth h.symm
    · rw [h]
      have hall := firstErr_none_iff.1 hn
      rcases emitPending_cases s endTones with ⟨hc, h⟩ | ⟨hc, h⟩
      · exact Or.inl ⟨_, raisable_errCap _, h⟩
      · rw [h]
        exact Or.inr (.endTones hc (checkRate_none_iff.1 (hall _ (by simp))))
  | run m =>
    refine ⟨_, rfl, ?_⟩
    rcases withMode_cases m s (fun md => checked [checkRate s, checkDepth s, checkSource s] s (runSequence s md))
      with ⟨_, h⟩ | ⟨md, hm, h⟩
    · exact Or.inl ⟨_, raisable_errMode m, h⟩
    rw [h]
    rcases checked_cases [checkRate s, checkDepth s, checkSource s] s (runSequence s md) with ⟨e, he, h⟩ | ⟨hn, h⟩
    · refine Or.inl ⟨e, ?_, h⟩
      have := firstErr_mem he
      simp only [List.mem_cons, List.not_mem_nil, or_false] at this
      rcases this with h | h | h
      · exact raisable_checkRate h.symm
      · exact raisable_checkDepth h.symm
      · exact raisable_checkSource h.symm
    · have hall := firstErr_none_iff.1 hn
      have hr := checkRate_none_iff.1 (hall (checkRate s) (by simp))
      have hs := checkSource_none_iff.1 (hall (checkSource s) (by simp))
      rw [h, runSequence_legal md hr]
      exact Or.inr (.run m md hm hr hs.1 hs.2)

/-- What a command can have done, from its outcome. -/
theorem exec_next {i : Instr} {s t : State} (h : exec i s = .next t) :
    (∃ e, raisable e ∧ t = raiseErr s e) ∨ Effect s i t := by
  obtain ⟨u, hu, h2⟩ := exec_cases i s
  rw [hu] at h; cases h; exact h2

/-- A command that succeeds leaves the host registers, the source window and the model's own fields alone. -/
theorem Effect.keeps {i : Instr} {s t : State} (he : Effect s i t) :
    t = { s with err := ErrRecord.ok, syn := t.syn, buf := t.buf, outValid := t.outValid, outSr := t.outSr,
                 fitValid := t.fitValid, fitMode := t.fitMode, fit := t.fit, canvas := t.canvas,
                 warnOversize := t.warnOversize } := by
  cases he <;> apply State.ext_fields <;> simp

/-- An emitting command other than RUN writes only the error record, the synthesizer, the buffer and OUT_VALID. -/
theorem appendOutput_eq (s : State) (out : Syn × List Sample) :
    appendOutput s out = { s with err := ErrRecord.ok, syn := out.1, buf := s.buf ++ out.2, outValid := false } := (rfl)

end Sys2Proof.Machine
end

