-- ==== Sys2Proof/Laws/PerInstr.lean ====
section
/-! SUPPORT. The family Fields of LAWS.json: for every command as syntax, the fields of its word are the opcode and the
mode of its row (spec/30_encoding.md R45, R48), and its word belongs to that row. -/

namespace Sys2Proof.Laws

/-- The OP column of R48. -/
def Fields.op : Instr → Nat
  | .nop => 0x00
  | .emit => 0x01
  | .emitPhi => 0x02
  | .synthClear => 0x03
  | .bufClear => 0x04
  | .vis _ => 0x05
  | .fit _ => 0x06
  | .scan _ => 0x07
  | .endTones => 0x08
  | .run _ => 0x09
  | .clear => 0x0A

/-- The MODE operand of a command; 0 where it has none. -/
def Fields.mode : Instr → Nat
  | .nop => 0
  | .emit => 0
  | .emitPhi => 0
  | .synthClear => 0
  | .bufClear => 0
  | .vis m => m
  | .fit m => m
  | .scan m => m
  | .endTones => 0
  | .run m => m
  | .clear => 0

/-- The word of a well-formed command holds its opcode, its mode and zeros, and matches the row of its opcode. -/
def Fields.Statement (i : Instr) : Prop :=
  i.wf = true →
    opField (encode i) = Fields.op i ∧ modeField (encode i) = Fields.mode i ∧ rsvField (encode i) = 0 ∧
    (opcodeRows[Fields.op i]?).any (rowMatches (encode i)) = true

/-- A fact of each of the eight values of a MODE operand holds of every well-formed one. -/
theorem Fields.modes {p : Nat → Prop} (h : ∀ k < 8, p k) {m : Nat} (hm : wfModeField m = true) : p m :=
  h m (by simpa [wfModeField] using hm)

theorem Fields.nop : Fields.Statement .nop := fun _ => by decide
theorem Fields.emit : Fields.Statement .emit := fun _ => by decide
theorem Fields.emitPhi : Fields.Statement .emitPhi := fun _ => by decide
theorem Fields.synthClear : Fields.Statement .synthClear := fun _ => by decide
theorem Fields.bufClear : Fields.Statement .bufClear := fun _ => by decide
theorem Fields.vis (m : Nat) : Fields.Statement (.vis m) := fun h =>
  Fields.modes (p := fun m => opField (encode (.vis m)) = 0x05 ∧ modeField (encode (.vis m)) = m ∧
    rsvField (encode (.vis m)) = 0 ∧ (opcodeRows[0x05]?).any (rowMatches (encode (.vis m))) = true)
    (by decide +kernel) h
theorem Fields.fit (m : Nat) : Fields.Statement (.fit m) := fun h =>
  Fields.modes (p := fun m => opField (encode (.fit m)) = 0x06 ∧ modeField (encode (.fit m)) = m ∧
    rsvField (encode (.fit m)) = 0 ∧ (opcodeRows[0x06]?).any (rowMatches (encode (.fit m))) = true)
    (by decide +kernel) h
theorem Fields.scan (m : Nat) : Fields.Statement (.scan m) := fun h =>
  Fields.modes (p := fun m => opField (encode (.scan m)) = 0x07 ∧ modeField (encode (.scan m)) = m ∧
    rsvField (encode (.scan m)) = 0 ∧ (opcodeRows[0x07]?).any (rowMatches (encode (.scan m))) = true)
    (by decide +kernel) h
theorem Fields.endTones : Fields.Statement .endTones := fun _ => by decide
theorem Fields.run (m : Nat) : Fields.Statement (.run m) := fun h =>
  Fields.modes (p := fun m => opField (encode (.run m)) = 0x09 ∧ modeField (encode (.run m)) = m ∧
    rsvField (encode (.run m)) = 0 ∧ (opcodeRows[0x09]?).any (rowMatches (encode (.run m))) = true)
    (by decide +kernel) h
theorem Fields.clear : Fields.Statement .clear := fun _ => by decide

end Sys2Proof.Laws
end

