-- ==== Sys2Proof/Laws/Step.lean ====
section
/-! SUPPORT. What one step can do, said once: it holds, returns a read, stores, ignores a write, resets, runs a command,
rejects an illegal word, or stops at an access outside the table. -/

namespace Sys2Proof.Machine

/-! ### The host port -/

/-- An access is in the table of R32 exactly when the port performs it, and it then performs it on its window. -/
theorem portAccess_cases (w a : Nat) (act : Window → PortResult) :
    (∃ win, windowOf a = some win ∧ (windowWidths win).contains w = true ∧ a % w = 0 ∧
      portAccess w a act = act win) ∨
    (windowOf a = none ∧ portAccess w a act = .stopFault .unmappedAddress) ∨
    (∃ win, windowOf a = some win ∧ (windowWidths win).contains w = true ∧ a % w ≠ 0 ∧
      portAccess w a act = .stopRefused .misalignedAccess) ∨
    (∃ win, windowOf a = some win ∧ (windowWidths win).contains w = false ∧
      portAccess w a act = .stopRefused .widthNotTaken) := by
  unfold portAccess
  cases hw : windowOf a with
  | none => exact Or.inr (Or.inl ⟨rfl, rfl⟩)
  | some win =>
    simp only []
    by_cases hc : (windowWidths win).contains w = true
    · by_cases ha : a % w = 0
      · exact Or.inl ⟨win, rfl, hc, ha, by rw [if_pos hc, if_pos ha]⟩
      · exact Or.inr (Or.inr (Or.inl ⟨win, rfl, hc, ha, by rw [if_pos hc, if_neg ha]⟩))
    · have hc' : (windowWidths win).contains w = false := by simpa using hc
      exact Or.inr (Or.inr (Or.inr ⟨win, rfl, hc', by rw [if_neg hc]⟩))

theorem windowOf_source {a : Nat} : windowOf a = some .source ↔ srcBase ≤ a ∧ a < srcBase + srcSize := by
  unfold windowOf regSize srcBase srcSize canvasBase canvasSize sampleBase sampleSize
  split_ifs <;> simp <;> omega

/-- A legal source access stays inside the source window. -/
theorem source_access_inside {a w : Nat} (h : windowOf a = some .source) (hw : (windowWidths .source).contains w = true)
    (ha : a % w = 0) : srcBase ≤ a ∧ a + w ≤ srcBase + srcSize := by
  obtain ⟨h1, h2⟩ := windowOf_source.1 h
  have hw' : w = 1 ∨ w = 2 ∨ w = 4 := by
    simpa [windowWidths] using hw
  unfold srcBase srcSize at *
  rcases hw' with rfl | rfl | rfl <;> omega

/-! ### Register writes -/

/-- A register write changes nothing but host registers. -/
theorem writeRegAt_frame (s : State) (k : Nat) (v : Word) :
    writeRegAt s k v = { s with
      sampleRate := (writeRegAt s k v).sampleRate, bitDepth := (writeRegAt s k v).bitDepth,
      srcW := (writeRegAt s k v).srcW, srcH := (writeRegAt s k v).srcH, hostTime := (writeRegAt s k v).hostTime,
      opf := (writeRegAt s k v).opf, opd := (writeRegAt s k v).opd, opp := (writeRegAt s k v).opp } := by
  unfold writeRegAt
  cases regAt k with
  | none => rfl
  | some r => cases r <;> rfl

/-- A register found in the table stands there at its offset. -/
theorem regAt_mem {k : Nat} {r : Reg} (h : regAt k = some r) : (k, r) ∈ regTable := by
  unfold regAt at h
  rw [Option.map_eq_some_iff] at h
  obtain ⟨⟨a, b⟩, h1, h2⟩ := h
  have hp := List.find?_some h1
  have hm := List.mem_of_find?_eq_some h1
  simp only [beq_iff_eq] at hp h2
  subst hp; subst h2; exact hm

/-- The registers a host write changes stand at offsets 0x018 to 0x044. -/
theorem writeRegAt_ignored (s : State) {k : Nat} (v : Word) (h : ¬ (0x18 ≤ k ∧ k ≤ 0x44)) : writeRegAt s k v = s := by
  have hall : ∀ row ∈ regTable, (0x18 ≤ row.1 ∧ row.1 ≤ 0x44) ∨ row.2 ∈ [Reg.cmd, .status, .errCode, .errValue,
      .errMin, .errMax, .synValueLo, .synValueHi, .synCosLo, .synCosHi, .synCarryLo, .synCarryHi, .bufLen, .outSr,
      .fitMode, .fitSrcW, .fitSrcH, .fitTgtW, .fitTgtH, .fitScaledW, .fitScaledH, .fitLeft, .fitTop, .fitRight,
      .fitBottom, .fitScaleLo, .fitScaleHi, .fitTimeLo, .fitTimeHi] := by decide
  unfold writeRegAt
  cases hr : regAt k with
  | none => rfl
  | some r =>
    rcases hall _ (regAt_mem hr) with hk | hm
    · exact absurd hk h
    · cases r <;> first | rfl | simp at hm

/-! ### The step -/

theorem step_idle {s : State} (h : s.script = []) : step s = .next s := by simp [step, h]

/-- A step on a host event is what the port makes of it. -/
theorem step_event {s : State} {e : HostEvent} {rest : List HostEvent} (h : s.script = e :: rest) :
    step s = match hostPort (takeEvent s rest) e with
      | .command w => issue w (takeEvent s rest)
      | .done t => .next t
      | .stopFault f => .fault f
      | .stopRefused r => .refused r := by
  first | (simp only [step, h]; done) | (simp only [step, h]; rfl)

/-- Issuing a word answers a next state: the error record of a word that does not decode, or what its command does. -/
theorem issue_cases (w : Word) (s : State) :
    (decode w = none ∧ issue w s = .next (raiseErr s (errIllegal w))) ∨
    (∃ i, decode w = some i ∧ issue w s = exec i s) := by
  unfold issue
  cases h : decode w with
  | none => exact Or.inl ⟨rfl, rfl⟩
  | some i => exact Or.inr ⟨i, rfl, rfl⟩

/-- Every way a step can end in a next state. -/
theorem step_next_cases {s t : State} (h : step s = .next t) :
    (s.script = [] ∧ t = s) ∨
    (∃ rest, s.script = .reset :: rest ∧ t = hardReset (takeEvent s rest)) ∨
    (∃ rest w a v, s.script = .read w a :: rest ∧ t = returnRead (takeEvent s rest) v) ∨
    (∃ rest w a d, s.script = .write w a d :: rest ∧ t = writeRegAt (takeEvent s rest) a.toNat d ∧ a.toNat ≠ 0) ∨
    (∃ rest w a d, s.script = .write w a d :: rest ∧ t = storeSource (takeEvent s rest) a.toNat w d ∧
      srcBase ≤ a.toNat ∧ a.toNat + w ≤ srcBase + srcSize) ∨
    (∃ rest w a d, s.script = .write w a d :: rest ∧ t = takeEvent s rest) ∨
    (∃ rest w d, s.script = .write w 0#32 d :: rest ∧ decode d = none ∧
      t = raiseErr (takeEvent s rest) (errIllegal d)) ∨
    (∃ rest w d i, s.script = .write w 0#32 d :: rest ∧ decode d = some i ∧ exec i (takeEvent s rest) = .next t) := by
  cases hs : s.script with
  | nil =>
    rw [step_idle hs] at h
    left; exact ⟨rfl, by injection h with h; exact h.symm⟩
  | cons e rest =>
    rw [step_event hs] at h
    cases e with
    | reset =>
      right; left
      simp only [hostPort] at h
      exact ⟨rest, rfl, by injection h with h; exact h.symm⟩
    | read w a =>
      right; right; left
      simp only [hostPort] at h
      rcases portAccess_cases w a.toNat
        (fun win => .done (returnRead (takeEvent s rest) (readValue (takeEvent s rest) w a.toNat win)))
        with ⟨win, _, _, _, hp⟩ | ⟨_, hp⟩ | ⟨win, _, _, _, hp⟩ | ⟨win, _, _, hp⟩ <;> rw [hp] at h <;>
        simp only [reduceCtorEq, Host.Outcome.next.injEq] at h
      exact ⟨rest, w, a, _, rfl, h.symm⟩
    | write w a d =>
      right; right; right
      simp only [hostPort] at h
      rcases portAccess_cases w a.toNat (portWrite (takeEvent s rest) w a.toNat d)
        with ⟨win, hw, hc, ha, hp⟩ | ⟨_, hp⟩ | ⟨_, _, _, _, hp⟩ | ⟨_, _, _, hp⟩ <;> rw [hp] at h
      rotate_left
      · simp only [reduceCtorEq] at h
      · simp only [reduceCtorEq] at h
      · simp only [reduceCtorEq] at h
      cases win with
      | registers =>
        by_cases h0 : a.toNat = 0
        · simp only [portWrite, if_pos h0] at h
          have ha0 : a = 0#32 := BitVec.eq_of_toNat_eq (by simpa using h0)
          subst ha0
          rcases issue_cases d (takeEvent s rest) with ⟨hd, hi⟩ | ⟨i, hd, hi⟩
          · right; right; right; left
            simp only [hi] at h
            exact ⟨rest, w, d, rfl, hd, by injection h with h; exact h.symm⟩
          · right; right; right; right
            simp only [hi] at h
            exact ⟨rest, w, d, i, rfl, hd, h⟩
        · simp only [portWrite, if_neg h0] at h
          left
          exact ⟨rest, w, a, d, rfl, by injection h with h; exact h.symm, h0⟩
      | source =>
        right; left
        simp only [portWrite] at h
        have := source_access_inside hw hc ha
        exact ⟨rest, w, a, d, rfl, by injection h with h; exact h.symm, this.1, this.2⟩
      | canvas =>
        right; right; left
        exact ⟨rest, w, a, d, rfl, by injection h with h; exact h.symm⟩
      | samples =>
        right; right; left
        exact ⟨rest, w, a, d, rfl, by injection h with h; exact h.symm⟩

/-- A legal write to the source window stores its bytes, inside the window. -/
theorem step_source_write {s : State} {w : Nat} {a d : Word} {rest : List HostEvent}
    (hs : s.script = .write w a d :: rest) (hw : (HostEvent.write w a d).wf = true)
    (h1 : srcBase ≤ a.toNat) (h2 : a.toNat < srcBase + srcSize) :
    step s = .next (storeSource (takeEvent s rest) a.toNat w d) ∧ a.toNat + w ≤ srcBase + srcSize := by
  have hwin : windowOf a.toNat = some .source := windowOf_source.2 ⟨h1, h2⟩
  have hcon : (windowWidths .source).contains w = true ∧ a.toNat % w = 0 := by
    unfold srcBase srcSize at *
    simp only [HostEvent.wf, wfMapped, wfWidth, wfAligned, windowRows, WindowRow.holds, List.any_cons, List.any_nil,
      Bool.and_eq_true, Bool.or_eq_true, beq_iff_eq, decide_eq_true_eq, Bool.or_false] at hw
    refine ⟨?_, hw.2⟩
    rcases hw.1.2 with h | h | h | h
    · omega
    · exact h.2
    · omega
    · omega
  refine ⟨?_, (source_access_inside hwin hcon.1 hcon.2).2⟩
  rw [step_event hs]
  simp only [hostPort, portAccess, hwin, hcon.1, hcon.2, if_true, portWrite]

/-- No register shows the model's own fields. -/
@[simp] theorem readRegAt_takeEvent (s : State) (rest : List HostEvent) (k : Nat) :
    readRegAt (takeEvent s rest) k = readRegAt s k := by
  unfold readRegAt
  cases regAt k with
  | none => rfl
  | some r => cases r <;> rfl

/-- A legal register read returns the register and changes no core state. -/
theorem step_register_read {s : State} {a : Word} {rest : List HostEvent} (hs : s.script = .read 4 a :: rest)
    (h1 : a.toNat < regSize) (h2 : a.toNat % 4 = 0) :
    step s = .next (returnRead (takeEvent s rest) (readRegAt s a.toNat)) := by
  have hwin : windowOf a.toNat = some .registers := if_pos h1
  have hcon : (windowWidths .registers).contains 4 = true := by decide
  rw [step_event hs]
  simp only [hostPort, portAccess, hwin, hcon, h2, if_true, readValue, readRegAt_takeEvent]

/-- A write to the register window that steps is 32 bits wide. -/
theorem step_register_width {s t : State} {w : Nat} {a d : Word} {rest : List HostEvent}
    (hs : s.script = .write w a d :: rest) (h : step s = .next t) (ha : a.toNat < 0x1000) : w = 4 := by
  rw [step_event hs] at h
  simp only [hostPort] at h
  rcases portAccess_cases w a.toNat (portWrite (takeEvent s rest) w a.toNat d)
    with ⟨win, hw, hc, _, hp⟩ | ⟨_, hp⟩ | ⟨_, _, _, _, hp⟩ | ⟨_, _, _, hp⟩ <;> rw [hp] at h
  · rw [show windowOf a.toNat = some .registers from by unfold windowOf regSize; rw [if_pos ha]] at hw
    cases hw; simpa [windowWidths] using hc
  · simp at h
  · simp at h
  · simp at h

end Sys2Proof.Machine
end

