-- ==== Sys2Proof/Machine/Script.lean ====
section
/-! DEFINITION. Host command scripts: the statements of spec/30_encoding.md R51 and the pseudo-instructions of R52, as the
host events they stand for. The text of a statement (comments, numerals) is no part of the machine. -/

namespace Sys2Proof.Machine

/-- The binary64 operand registers that `WR64` names (R52). -/
inductive Operand64 where
  | opf | opd | opp
deriving DecidableEq, Repr

/-- The statements of R51 and R52. `command` is a bare mnemonic with its MODE operand (`NOP`, `VIS <m>`, ...); `emitTone`
and `emitToneAt` are the pseudo-instructions `EMIT <f>, <d>` and `EMIT_PHI <f>, <d>, <phi>`. -/
inductive Stmt where
  | wr (r : Reg) (v : Word)
  | rd (r : Reg)
  | wrb (addr : Word) (v : Byte)
  | wrw (addr : Word) (v : Word)
  | command (i : Instr)
  | wr64 (x : Operand64) (v : Binary64)
  | emitTone (f d : Binary64)
  | emitToneAt (f d phi : Binary64)
  | silence (d : Binary64)
  | setsr (n : Word)
  | wait
deriving DecidableEq, Repr

/-- The offset of a register (spec/10_state.md R19). -/
def regOffset (r : Reg) : Word := BitVec.ofNat 32 (((regTable.find? (fun row => row.2 == r)).map (·.1)).getD 0)

/-- `WR <reg>, <u32>`. -/
def wrEvent (r : Reg) (v : Word) : HostEvent := .write 4 (regOffset r) v

/-- `WR64 <X>, v`: the low half, then the high half (R52). -/
def wr64Events (x : Operand64) (v : Binary64) : List HostEvent :=
  match x with
  | .opf => [wrEvent .opfLo (loHalf v), wrEvent .opfHi (hiHalf v)]
  | .opd => [wrEvent .opdLo (loHalf v), wrEvent .opdHi (hiHalf v)]
  | .opp => [wrEvent .oppLo (loHalf v), wrEvent .oppHi (hiHalf v)]

/-- A command: a write of its word to CMD (R51). -/
def commandEvent (i : Instr) : HostEvent := wrEvent .cmd (encode i)

/-- The host events of a statement. `WAIT` is one read of STATUS, since BUSY reads 0 (R52, log 12). -/
def stmtEvents : Stmt → List HostEvent
  | .wr r v => [wrEvent r v]
  | .rd r => [.read 4 (regOffset r)]
  | .wrb a v => [.write 1 a (v.setWidth 32)]
  | .wrw a v => [.write 4 a v]
  | .command i => [commandEvent i]
  | .wr64 x v => wr64Events x v
  | .emitTone f d => wr64Events .opf f ++ wr64Events .opd d ++ [commandEvent .emit]
  | .emitToneAt f d phi =>
    wr64Events .opf f ++ wr64Events .opd d ++ wr64Events .opp phi ++ [commandEvent .emitPhi]
  | .silence d => wr64Events .opf (f64Zero false) ++ wr64Events .opd d ++ [commandEvent .emit]
  | .setsr n => [wrEvent .sampleRate n]
  | .wait => [.read 4 (regOffset .status)]

/-- A script loaded behind the events still to come (log 9). -/
def loadScript (s : State) (p : List Stmt) : State := { s with script := s.script ++ p.flatMap stmtEvents }

end Sys2Proof.Machine
end

