-- ==== Sys2Proof/Tests/Slice0.lean ====
section
/-! SUPPORT. Tests of the model, their expected results taken from spec/ (the tables of spec/95_test_vectors.md, the words of
spec/30_encoding.md, the cases of spec/43_image_fitter.md), and for every obligation with hypotheses a witness that meets
them. -/

namespace Sys2Proof.Tests

open Sys2Proof Sys2Proof.Machine

/-! ### Small states -/

/-- The next state of an outcome; the tests use it only where there is one. -/
def after : Host.Outcome State Fault Refusal → State
  | .next t => t
  | .fault _ => State.reset
  | .refused _ => State.reset

/-- Reset with SAMPLE_RATE written. -/
def atRate (r : Nat) : State := { State.reset with sampleRate := BitVec.ofNat 32 r }

/-- A state with host events to come. -/
def withEvents (s : State) (es : List HostEvent) : State := { s with script := es }

/-- The state after one command word is written to CMD. -/
def issued (s : State) (w : Nat) : State := after (step (s.withFetchWord 32 w))

/-- The record of a code and its three words. -/
def rec4 (c v lo hi : Nat) : ErrRecord := mkErr c v lo hi

/-! ### Well-formedness: an ill-formed term for each check -/

theorem test_wf_refuses_vis_8 : (Instr.vis 8).wf = false := by decide
theorem test_wf_refuses_fit_8 : (Instr.fit 8).wf = false := by decide
theorem test_wf_refuses_scan_9 : (Instr.scan 9).wf = false := by decide
theorem test_wf_refuses_run_8 : (Instr.run 8).wf = false := by decide
theorem test_wf_accepts_run_7 : (Instr.run 7).wf = true := by decide
theorem test_wf_refuses_unmapped : (HostEvent.read 4 0x1000#32).wf = false := by decide
theorem test_wf_refuses_register_byte : (HostEvent.read 1 0x4#32).wf = false := by decide
theorem test_wf_refuses_sample_byte : (HostEvent.read 1 0x10000000#32).wf = false := by decide
theorem test_wf_refuses_misaligned : (HostEvent.write 4 0x01000002#32 0#32).wf = false := by decide
theorem test_wf_accepts_halfword : (HostEvent.write 2 0x01000002#32 0#32).wf = true := by decide

/-! ### Decoding: the words of spec/30_encoding.md R48, written out bit by bit (reserved 21, MODE 3, OP 8) -/

theorem test_decode_nop : decode 0b000000000000000000000_000_00000000#32 = some .nop := by decide
theorem test_decode_emit : decode 0b000000000000000000000_000_00000001#32 = some .emit := by decide
theorem test_decode_emit_phi : decode 0b000000000000000000000_000_00000010#32 = some .emitPhi := by decide
theorem test_decode_synth_clear : decode 0b000000000000000000000_000_00000011#32 = some .synthClear := by decide
theorem test_decode_buf_clear : decode 0b000000000000000000000_000_00000100#32 = some .bufClear := by decide
theorem test_decode_vis_b : decode 0b000000000000000000000_001_00000101#32 = some (.vis 1) := by decide
theorem test_decode_fit_c : decode 0b000000000000000000000_010_00000110#32 = some (.fit 2) := by decide
theorem test_decode_scan_d : decode 0b000000000000000000000_011_00000111#32 = some (.scan 3) := by decide
theorem test_decode_end_tones : decode 0b000000000000000000000_000_00001000#32 = some .endTones := by decide
theorem test_decode_run_5 : decode 0b000000000000000000000_101_00001001#32 = some (.run 5) := by decide
theorem test_decode_clear : decode 0b000000000000000000000_000_00001010#32 = some .clear := by decide
theorem test_decode_reserved_bit_11 : decode 0x00000800#32 = none := by decide
theorem test_decode_reserved_bit_31 : decode 0x80000009#32 = none := by decide
theorem test_decode_op_0B : decode 0x0000000B#32 = none := by decide
theorem test_decode_op_FF : decode 0x000000FF#32 = none := by decide
theorem test_decode_mode_on_emit : decode 0x00000101#32 = none := by decide
theorem test_decode_table_row : decodeTableWord 32 0x00000307 = some (.scan 3) := by decide

/-! ### Decode and error vectors (spec/95_test_vectors.md section 3) -/

theorem test_illegal_0x101 : (issued (atRate 8000) 0x101).err = rec4 1 0x101 0 0 := by decide
theorem test_illegal_0x800 : (issued (atRate 8000) 0x800).err = rec4 1 0x800 0 0 := by decide
theorem test_run_mode_5 : (issued (atRate 8000) 0x509).err = rec4 4 5 0 3 := by decide
theorem test_scan_mode_before_rate : (issued (atRate 500) 0x707).err = rec4 4 7 0 3 := by decide
theorem test_vis_rate_500 : (issued (atRate 500) 0x105).err = rec4 2 500 8000 192000 := by decide
theorem test_run_rate_250000 : (issued (atRate 250000) 0x109).err = rec4 2 250000 8000 192000 := by decide
theorem test_vis_depth_24 : (issued { atRate 8000 with bitDepth := 24#32 } 0x105).err = rec4 3 24 16 16 := by decide
theorem test_scan_without_canvas : (issued (atRate 8000) 0x107).err = rec4 6 1 0 0 := by decide
theorem test_scan_of_mode_a_canvas : (issued { atRate 8000 with fitValid := true } 0x107).err = rec4 6 1 1 0 := by decide
theorem test_fit_without_source : (issued (atRate 8000) 0x106).err = rec4 5 0 1 srcMaxPixels := rfl
theorem test_emit_nan : (issued { atRate 8000 with opf := 0x7FF8000000000000#64 } 0x001).err = rec4 7 1 0 0 := by
  decide +kernel
theorem test_emit_negative_duration : (issued { atRate 8000 with opd := 0xBFF0000000000000#64 } 0x001).err
    = rec4 7 2 0 0 := by decide +kernel
theorem test_emit_phi_infinite_phase : (issued { atRate 8000 with opp := 0x7FF0000000000000#64 } 0x002).err
    = rec4 7 3 0 0 := by decide +kernel
/-- 1e9 ms at 192000 Hz. -/
theorem test_emit_overflow : (issued { atRate 192000 with opf := 0x408F400000000000#64, opd := 0x41CDCD6500000000#64 }
    0x001).err = rec4 8 4294967295 0 134217728 := by decide +kernel

/-! ### The commands -/

/-- RUN 5, then NOP (spec/95_test_vectors.md 2.7). -/
theorem test_nop_clears : (issued { atRate 8000 with err := rec4 4 5 0 3 } 0x000).err = rec4 0 0 0 0 := by decide
/-- OPD = -0.0: no samples, no error. -/
theorem test_emit_minus_zero : (issued { atRate 8000 with opd := 0x8000000000000000#64 } 0x001).err = rec4 0 0 0 0 ∧
    (issued { atRate 8000 with opd := 0x8000000000000000#64 } 0x001).buf.length = 0 := by decide +kernel
/-- The first of the six tones of the carry series: 2000.0 Hz, 0.275 ms, x = 2.2 (spec/95_test_vectors.md 2.2). -/
theorem test_emit_carry : (issued { atRate 8000 with opf := 0x409F400000000000#64, opd := 0x3FD199999999999A#64 }
    0x001).syn.carry = 0x3FC99999999999A0#64 := by decide +kernel
/-- EMIT_PHI 1000.0, 0.5 appends four samples. -/
theorem test_emit_phi_count : (issued { atRate 8000 with opf := 0x408F400000000000#64, opd := 0x3FE0000000000000#64 }
    0x002).buf.length = 4 := by decide +kernel
theorem test_synth_clear_cos : readRegAt (issued { atRate 8000 with syn := ⟨1#64, 2#64, 3#64⟩ } 0x003) 0x054
    = 0x3FF00000#32 := by decide
theorem test_buf_clear_len : readRegAt (issued { atRate 8000 with buf := [1#16, 2#16] } 0x004) 0x060 = 0#32 := by decide
/-- The header of mode B is 13 680 samples at 8000 Hz, and its data bit 3 (index 6 first) is 1100 Hz. -/
theorem test_vis_b_count : countTones (f64OfNat 8000) 0#64 (visTones .b) = 13680 := by decide +kernel
theorem test_vis_b_bit : (visTones .b)[15]?.map Tone.freq = some 0x4091300000000000#64 := by decide +kernel
theorem test_end_tones_count : countTones (f64OfNat 8000) 0#64 endTones = 7200 := by decide +kernel
/-- The table of spec/43_image_fitter.md R95: mode B 7x1, mode A 640x480, mode C 100x400, mode B 10000x1. -/
theorem test_fit_dimensions : scaledDims 320 240 7 1 = (320, 45) ∧ scaledDims 320 256 640 480 = (320, 240) ∧
    scaledDims 640 496 100 400 = (124, 496) ∧ scaledDims 320 240 10000 1 = (320, 1) := by decide
/-- Mode B, 1281x960: scale 0.2498048399687744, bottom margin 1, the warning. -/
theorem test_fit_record : (fitRecord { State.reset with srcW := 1281#32, srcH := 960#32 } .b).scale
      = 0x3FCFF99AE10631F6#64 ∧
    (fitRecord { State.reset with srcW := 1281#32, srcH := 960#32 } .b).bottom = 1#32 ∧
    oversize .b 1281 960 = true ∧ oversize .b 1280 960 = false := by decide +kernel
theorem test_clear_out_sr : readRegAt (issued { atRate 8000 with outSr := 8000#32, fitMode := .c } 0x00A) 0x064 = 0#32 ∧
    (issued { atRate 8000 with outSr := 8000#32, fitMode := .c } 0x00A).sampleRate = 8000#32 := by decide

/-! ### Colour (spec/95_test_vectors.md 2.1) -/

theorem test_luma : lumaY (f64OfNat 200) (f64OfNat 100) (f64OfNat 50) = 0x405EAA30270F3883#64 := by decide +kernel
theorem test_grey_114 : chromaRY (f64OfNat 114) (f64OfNat 114) (f64OfNat 114) = 0x405FFFFFFFFFFFFF#64 := by
  decide +kernel
theorem test_freq_map : freqMap (lumaY (f64OfNat 200) (f64OfNat 100) (f64OfNat 50)) = 0x409D7340A8391E66#64 := by
  decide +kernel

/-! ### The host port (spec/10_state.md R19, spec/20_memory.md R30 to R35) -/

theorem test_read_bit_depth : (after (step (withEvents State.reset [.read 4 0x01C#32]))).rdata = 16#32 := by decide
theorem test_read_cmd_is_zero : (after (step (withEvents State.reset [.read 4 0x000#32]))).rdata = 0#32 := by decide
theorem test_write_opf_hi : (after (step (withEvents State.reset [.write 4 0x034#32 0x4092C000#32]))).opf
    = 0x4092C00000000000#64 := by decide
theorem test_write_status_ignored : readRegAt (after (step (withEvents State.reset [.write 4 0x004#32 0xFF#32]))) 0x004
    = 0#32 := by decide
/-- A 32-bit read of the sample window: sample 0 in bits 15:0, sample 1 in bits 31:16. -/
theorem test_read_samples : (after (step (withEvents { State.reset with buf := [0x1122#16, 0x3344#16] }
    [.read 4 0x10000000#32]))).rdata = 0x33441122#32 := by decide
theorem test_write_source : (after (step (withEvents State.reset [.write 2 0x01000004#32 0xBBAA#32]))).src
    = [(0x01000004, 0xAA#8), (0x01000005, 0xBB#8)] := by decide
theorem test_reset_event : (after (step (withEvents { atRate 8000 with buf := [1#16] } [.reset]))).sampleRate = 0#32 := by
  decide
theorem test_stop_unmapped : step (withEvents State.reset [.read 4 0x00001000#32]) = .fault .unmappedAddress := rfl
theorem test_stop_width : step (withEvents State.reset [.read 2 0x00000004#32]) = .refused .widthNotTaken := rfl
theorem test_stop_misaligned : step (withEvents State.reset [.write 4 0x01000001#32 0#32])
    = .refused .misalignedAccess := rfl

/-! ### Scripts (spec/30_encoding.md R51, R52): the first EMIT of program P1, and the commands of P5 -/

theorem test_script_emit : stmtEvents (.emitTone 0x4092C00000000000#64 0x3FF0000000000000#64)
    = [.write 4 0x030#32 0x00000000#32, .write 4 0x034#32 0x4092C000#32, .write 4 0x038#32 0x00000000#32,
       .write 4 0x03C#32 0x3FF00000#32, .write 4 0x000#32 0x00000001#32] := by decide
theorem test_script_commands : [Stmt.command (.scan 1), .command .endTones, .setsr 8000#32, .wait].flatMap stmtEvents
    = [.write 4 0x000#32 0x00000107#32, .write 4 0x000#32 0x00000008#32, .write 4 0x018#32 0x00001F40#32,
       .read 4 0x004#32] := by decide

/-! ### Witnesses: for each obligation with hypotheses, a state and operands that meet them -/

/-- 8000 Hz, 16 bits, a 1 x 1 source, OPF = 0.0, OPD = 200.0 ms. -/
def onePixel : State := { atRate 8000 with srcW := 1#32, srcH := 1#32, opd := 0x4069000000000000#64 }

theorem onePixel_source : sourceOk onePixel := by
  refine ⟨by decide, ?_⟩
  show 1 * 1 ≤ srcMaxPixels
  unfold srcMaxPixels; exact le_max_left 1 _

theorem onePixel_ready : readyToEmit onePixel := by unfold readyToEmit; decide
theorem atRate_ready : readyToEmit (atRate 8000) ∧ readyToEmit (atRate 192000) := by unfold readyToEmit; decide

/-- FIT of a mode completes on a state whose source is good. -/
theorem fit_completes {s : State} (md : Mode) (h : sourceOk s) :
    exec (.fit (Config.modeNumber md)) s = .next (applyFit s md) := by
  have hm : modeOf (Config.modeNumber md) = some md := modeOf_eq_some_iff.2 rfl
  simp only [exec, execFit, withMode, hm, checked, firstErr, checkSource_none_iff.2 h]

/-- RUN of a mode completes on a state whose rate, depth and source are good. -/
theorem run_completes {s : State} (md : Mode) (hr : readyToEmit s) (h : sourceOk s) :
    exec (.run (Config.modeNumber md)) s
      = .next (finishRun (applyFit s md) (emitTones (rateF s) Syn.fresh (runTones (applyFit s md) md))) := by
  have hl : rateLegal s.sampleRate := ⟨hr.1, hr.2.1⟩
  have hm : modeOf (Config.modeNumber md) = some md := modeOf_eq_some_iff.2 rfl
  simp only [exec, execRun, withMode, hm, checked, firstErr, checkRate_none_iff.2 hl, checkDepth_none_iff.2 hr.2.2, checkSource_none_iff.2 h,
    runSequence_legal md hl]

/-- The fitted canvas of a scan, and that the scan fits an empty buffer. -/
theorem fitted_scan_fits (md : Mode) : (emitTones (f64OfNat 8000) Syn.fresh (scanTones (applyFit onePixel md) md)).2.length
    ≤ 134217728 := by
  rw [emitTones_length]
  exact (scanTones_within (applyFit onePixel md) md 8000 (by norm_num) Syn.fresh.carry carryOk_fresh).2.trans
    (by norm_num)

theorem witness_EncodeThenDecode : (Instr.scan 7).wf = true := by decide
theorem witness_DecodeThenEncode : decode 0x00000709#32 = some (.run 7) := by decide
/-- One word for each reason to be illegal, a legal word, and MODE 4 and 7. -/
theorem witness_IllegalWords :
    (0x00000800#32).extractLsb' 11 21 ≠ 0#21 ∧ 0x0B ≤ ((0x0000000B#32).extractLsb' 0 8).toNat ∧
    (((0x00000100#32).extractLsb' 0 8).toNat ∈ [0x00, 0x01, 0x02, 0x03, 0x04, 0x08, 0x0A] ∧
      (0x00000100#32).extractLsb' 8 3 ≠ 0#3) ∧
    (¬ ((0x0000000A#32).extractLsb' 11 21 ≠ 0#21 ∨ 0x0B ≤ ((0x0000000A#32).extractLsb' 0 8).toNat ∨
      (((0x0000000A#32).extractLsb' 0 8).toNat ∈ [0x00, 0x01, 0x02, 0x03, 0x04, 0x08, 0x0A] ∧
        (0x0000000A#32).extractLsb' 8 3 ≠ 0#3))) ∧
    ((0x00000405#32).extractLsb' 11 21 = 0#21 ∧ ((0x00000405#32).extractLsb' 0 8).toNat ∈ [0x05, 0x06, 0x07, 0x09] ∧
      4 ≤ ((0x00000405#32).extractLsb' 8 3).toNat) ∧
    ((0x00000709#32).extractLsb' 11 21 = 0#21 ∧ ((0x00000709#32).extractLsb' 0 8).toNat ∈ [0x05, 0x06, 0x07, 0x09] ∧
      4 ≤ ((0x00000709#32).extractLsb' 8 3).toNat) := by decide
theorem witness_StepRunsDecodedCommand :
    (withEvents State.reset [.write 4 0#32 0x00000008#32]).script = .write 4 0#32 0x00000008#32 :: [] ∧
    decode 0x00000008#32 = some .endTones ∧ State.reset.script = [] := by decide
/-- The boundaries of the windows: the last register, the first address past it, a byte and an odd address. -/
theorem witness_StepStopsExactlyOutsideTable :
    (HostEvent.read 4 0xFFC#32).wf = true ∧ wfMapped 0x1000#32 = false ∧
    (wfMapped 0x10000000#32 = true ∧ wfWidth 1 0x10000000#32 = false) ∧
    (wfMapped 0x01000001#32 = true ∧ wfWidth 2 0x01000001#32 = true ∧ wfAligned 2 0x01000001#32 = false) := by decide
/-- Each clause of the host port: a read, the RO and reserved offsets next to the RW ones, the last canvas word and the
first sample, the first and the last source bytes; a listed and an unlisted source byte. -/
theorem witness_HostAccessSideEffects :
    (∃ t, step (withEvents State.reset [.read 4 0x004#32]) = .next t) ∧
    ((0x014#32).toNat < 0x1000 ∧ (0x014#32).toNat % 4 = 0 ∧ ¬ (0x18 ≤ (0x014#32).toNat ∧ (0x014#32).toNat ≤ 0x44)) ∧
    ((0x048#32).toNat < 0x1000 ∧ (0x048#32).toNat % 4 = 0 ∧ ¬ (0x18 ≤ (0x048#32).toNat ∧ (0x048#32).toNat ≤ 0x44)) ∧
    (HostEvent.write 4 0x02FFFFFC#32 1#32).wf = true ∧ (HostEvent.write 2 0x10000000#32 1#32).wf = true ∧
    (HostEvent.write 1 0x01000000#32 1#32).wf = true ∧ (HostEvent.write 4 0x01FFFFFC#32 1#32).wf = true ∧
    memLookup ({ State.reset with src := [(0x01FFFFFF, 9#8)] } : State).src 0x01FFFFFF = some 9#8 ∧
    memLookup ({ State.reset with src := [(0x01FFFFFF, 9#8)] } : State).src 0x01000000 = none :=
  ⟨⟨_, rfl⟩, by decide, by decide, by decide, by decide, by decide, by decide, by decide, by decide⟩
theorem witness_HostRegistersStoreAndReadBack :
    (0x18 ≤ (0x018#32).toNat ∧ (0x018#32).toNat ≤ 0x44 ∧ (0x018#32).toNat % 4 = 0) ∧
    (0x18 ≤ (0x044#32).toNat ∧ (0x044#32).toNat ≤ 0x44 ∧ (0x044#32).toNat % 4 = 0) ∧
    (withEvents State.reset [.write 4 0x044#32 7#32, .read 4 0x044#32]).script
      = [.write 4 0x044#32 7#32, .read 4 0x044#32] := by decide
theorem witness_RegisterResetColumn : (0xFFC : Nat) < 0x1000 ∧ (0xFFC : Nat) ≠ 0x01C ∧ (0xFFC : Nat) ≠ 0x054 := by decide
theorem witness_ReadsAreLittleEndian :
    0x01000000 ≤ (0x01000000#32).toNat ∧ (HostEvent.read 1 0x01000000#32).wf = true ∧
    (HostEvent.read 2 0x01000000#32).wf = true ∧ (HostEvent.read 4 0x1FFFFFFC#32).wf = true := by decide
theorem witness_SampleWindowLayout : ({ State.reset with buf := [0x1122#16] } : State).buf[0]? = some 0x1122#16 ∧
    (0 : Nat) < 134217728 ∧ (withEvents State.reset [.read 2 (BitVec.ofNat 32 (0x10000000 + 2 * 0))]).script
      = .read 2 (BitVec.ofNat 32 (0x10000000 + 2 * 0)) :: [] := by decide
/-- STATUS, the first and last named registers, the first and last reserved offsets. -/
theorem witness_StatusReadsTheFlags : (withEvents State.reset [.read 4 4#32]).script = .read 4 4#32 :: [] ∧
    (0x000, 0#32) ∈ registerRows State.reset ∧ (0x0A0, 0#32) ∈ registerRows State.reset ∧
    (withEvents State.reset [.read 4 (BitVec.ofNat 32 0x0A0)]).script = .read 4 (BitVec.ofNat 32 0x0A0) :: [] ∧
    (0x0A4 ≤ (0x0A4#32).toNat ∧ (0x0A4#32).toNat % 4 = 0) ∧ ((0xFFC#32).toNat ≤ 0xFFC ∧ (0xFFC#32).toNat % 4 = 0) := by
  decide
theorem witness_HardwareResetValues : (withEvents (atRate 8000) [.reset]).script = .reset :: [] ∧
    0x01000000 ≤ 0x1FFFFFFF := by decide
/-- RUN 5 fails. -/
theorem witness_FailingCommandLeavesAllElse : ∃ t, exec (.run 5) State.reset = .next t ∧ t.err.code ≠ 0#8 :=
  ⟨_, rfl, by decide⟩
theorem witness_EveryCommandRewritesErrorRecord : ∃ t, exec .nop (withEvents State.reset []) = .next t ∧
    t.err.code = 0#8 := ⟨_, rfl, by decide⟩
theorem witness_UnsupportedModeComesFirst : (4 : Nat) ≤ 4 ∧ 4 < 8 ∧ 4 ≤ 7 ∧ 7 < 8 := by decide
/-- Rates on either side of both bounds, and a legal rate with a depth of 24. -/
theorem witness_RateAndDepthRejected :
    ((atRate 7999).sampleRate.toNat < 8000) ∧ (192000 < (atRate 192001).sampleRate.toNat) ∧
    (8000 ≤ ({ atRate 192000 with bitDepth := 24#32 } : State).sampleRate.toNat ∧
      ({ atRate 192000 with bitDepth := 24#32 } : State).sampleRate.toNat ≤ 192000 ∧
      ({ atRate 192000 with bitDepth := 24#32 } : State).bitDepth ≠ 16#32) ∧
    Instr.vis 3 ∈ [Instr.emit, Instr.emitPhi, Instr.vis 3, Instr.scan 3, Instr.endTones, Instr.run 3] := by decide
/-- No pixels, and more than any SRC_MAX_PIXELS; no canvas, and one of another mode. -/
theorem witness_SourceAndCanvasRejected :
    (State.reset.srcW.toNat * State.reset.srcH.toNat < 1) ∧
    (srcMaxPixels < ({ atRate 8000 with srcW := 65535#32, srcH := 65535#32 } : State).srcW.toNat *
      ({ atRate 8000 with srcW := 65535#32, srcH := 65535#32 } : State).srcH.toNat) ∧
    readyToEmit { atRate 8000 with srcW := 65535#32, srcH := 65535#32 } ∧
    (atRate 8000).fitValid = false ∧ ({ atRate 8000 with fitValid := true } : State).fitMode ≠ .b := by
  refine ⟨by decide, ?_, by unfold readyToEmit; decide, by decide, by decide⟩
  have h : srcMaxPixels ≤ 5592405 := by unfold srcMaxPixels; exact max_le (by norm_num) (Nat.min_le_right _ _)
  exact lt_of_le_of_lt h (by decide)
/-- One operand bad for each clause; 1e9 ms overflows, and so does a full buffer with a header. -/
theorem witness_OperandsRejected :
    f64IsFinite 0x7FF0000000000000#64 = false ∧ f64IsFinite 0x7FF8000000000000#64 = false ∧
    (f64IsFinite 0xBFF0000000000000#64 = true ∧ f64Lt 0xBFF0000000000000#64 0#64 = true) ∧
    f64Lt 0x8000000000000000#64 0#64 = false ∧
    134217728 < (toneCount (f64OfNat 192000) 0x41CDCD6500000000#64 0#64).1 ∧
    f64IsFinite 0x41CDCD6500000000#64 = true ∧ f64Lt 0x41CDCD6500000000#64 0#64 = false := by decide +kernel
/-- A buffer of `n` samples. -/
def filled (n : Nat) : State := { atRate 8000 with buf := List.replicate n 0#16 }
theorem filled_ready (n : Nat) : readyToEmit (filled n) := atRate_ready.1
theorem filled_length (n : Nat) : (filled n).buf.length = n := List.length_replicate
theorem witness_CapacityRejected : ∃ n, readyToEmit (filled n) ∧
    134217728 < (filled n).buf.length + (emitTones (f64OfNat 8000) (filled n).syn (tonesOf endTable)).2.length :=
  ⟨134217728 + 1, filled_ready _, by rw [filled_length]; omega⟩
theorem witness_EmitAppendsOneTone :
    readyToEmit onePixel ∧ f64IsFinite onePixel.opf = true ∧ f64IsFinite onePixel.opd = true ∧
    f64Lt onePixel.opd 0#64 = false ∧ f64IsFinite onePixel.opp = true ∧
    onePixel.buf.length + (toneCount (f64OfNat 8000) onePixel.opd 0#64).1 ≤ 134217728 := by
  refine ⟨onePixel_ready, ?_⟩; decide +kernel
theorem witness_VisAppendsHeader (md : Mode) : readyToEmit (atRate 8000) ∧
    (atRate 8000).buf.length + (emitTones (f64OfNat 8000) (atRate 8000).syn (tonesOf (visTable md))).2.length
      ≤ 134217728 := by
  refine ⟨atRate_ready.1, ?_⟩
  rw [emitTones_length]; cases md <;> decide +kernel
theorem witness_EndTonesAppendsFive : readyToEmit (atRate 8000) ∧
    (atRate 8000).buf.length + (emitTones (f64OfNat 8000) (atRate 8000).syn (tonesOf endTable)).2.length
      ≤ 134217728 := by
  refine ⟨atRate_ready.1, ?_⟩
  rw [emitTones_length]; decide +kernel
/-- The canvas that FIT of the same mode leaves. -/
theorem witness_ScanAppendsScanTones (md : Mode) : readyToEmit (applyFit onePixel md) ∧
    (applyFit onePixel md).fitValid = true ∧ (applyFit onePixel md).fitMode = md ∧
    (applyFit onePixel md).buf.length +
      (emitTones (f64OfNat 8000) Syn.fresh (scanTones (applyFit onePixel md) md)).2.length ≤ 134217728 := by
  refine ⟨?_, by simp, by simp, ?_⟩
  · simpa [readyToEmit] using onePixel_ready
  · have := fitted_scan_fits md
    have hb : (applyFit onePixel md).buf.length = 0 := by rw [applyFit_buf]; decide
    omega
theorem witness_FitMakesCanvasAndMetadata : sourceOk onePixel := onePixel_source
theorem witness_RunReplacesBuffer : readyToEmit onePixel ∧ sourceOk onePixel := ⟨onePixel_ready, onePixel_source⟩
theorem witness_StandaloneSequenceEqualsRun (md : Mode) : onePixel.opf = f64OfNat 0 ∧ onePixel.opd = f64OfNat 200 ∧
    ∃ t, exec (.run (Config.modeNumber md)) onePixel = .next t ∧ t.err.code = 0#8 :=
  ⟨by decide +kernel, by decide +kernel, _, run_completes md onePixel_ready onePixel_source, by
    rw [finishRun_err]; decide⟩

/-- The same registers and source as `onePixel`, other outputs. -/
def onePixelUsed : State := { onePixel with buf := [5#16], outSr := 9#32 }

theorem onePixelUsed_source : sourceOk onePixelUsed := onePixel_source
theorem onePixelUsed_ready : readyToEmit onePixelUsed := by unfold readyToEmit; decide

theorem witness_RunIgnoresEarlierOutputs (md : Mode) : ∃ t t', exec (.run (Config.modeNumber md)) onePixel = .next t ∧
    exec (.run (Config.modeNumber md)) onePixelUsed = .next t' ∧ t.err.code = 0#8 ∧
    ∀ k, k < 3 * (onePixel.srcW.toNat * onePixel.srcH.toNat) →
      memByte onePixel (0x01000000 + k) = memByte onePixelUsed (0x01000000 + k) := by
  refine ⟨_, _, run_completes md onePixel_ready onePixel_source, run_completes md onePixelUsed_ready onePixelUsed_source,
    by rw [finishRun_err]; decide, fun k hk => ?_⟩
  have hk' : k < 3 := hk
  have hw : srcBase ≤ 0x01000000 + k ∧ 0x01000000 + k < srcBase + srcSize := by unfold srcBase srcSize; omega
  unfold memByte srcByte
  rw [if_pos hw, if_pos hw]
  rfl

/-- A state with the invariant, one host event old, and its step. -/
theorem witness_StepKeepsInvariant : Inv (atRate 8000) ∧ step (atRate 8000) = .next (atRate 8000) :=
  ⟨{ srcWf := rfl, srcRange := fun _ h => (List.not_mem_nil h).elim, canvasWhole := fun h => (nomatch h),
     canvasNone := fun _ => ⟨rfl, rfl, rfl, rfl⟩, fitLaws := fun h => (nomatch h), carryLow := by decide +kernel,
     carryHigh := by decide +kernel, bufCap := Nat.zero_le _, bufSamples := fun _ h => (List.not_mem_nil h).elim,
     outValid := fun h => (nomatch h), errCode := by decide, errOk := fun _ => rfl }, rfl⟩
/-- An emitting command that appends, and one that fails. -/
theorem witness_EmittersFrame : (∃ t, exec .emit onePixel = .next t) ∧ (∃ t, exec (.scan 2) onePixel = .next t) ∧
    Instr.scan 2 ∈ [Instr.emit, Instr.emitPhi, Instr.vis 2, Instr.scan 2, Instr.endTones] :=
  ⟨(exec_cases _ _).imp fun _ h => h.1, (exec_cases _ _).imp fun _ h => h.1, by decide⟩
theorem witness_FitFrame (md : Mode) : ∃ t, exec (.fit (Config.modeNumber md)) onePixel = .next t ∧ t.err.code = 0#8 :=
  ⟨_, fit_completes md onePixel_source, by rw [applyFit_err]; decide⟩
theorem witness_RunFrame (md : Mode) : ∃ t, exec (.run (Config.modeNumber md)) onePixel = .next t :=
  ⟨_, run_completes md onePixel_ready onePixel_source⟩
theorem witness_ClearersFrame : (∃ t, exec .nop onePixel = .next t) ∧ (∃ t, exec .synthClear onePixel = .next t) ∧
    (∃ t, exec .bufClear onePixel = .next t) ∧ (∃ t, exec .clear onePixel = .next t) :=
  ⟨⟨_, rfl⟩, ⟨_, rfl⟩, ⟨_, rfl⟩, ⟨_, rfl⟩⟩
/-- A step that appends nothing, and one that empties the buffer. -/
theorem witness_BufferIsAppendOnly : (∃ t, step onePixelUsed = .next t) ∧
    (∃ t, step (withEvents onePixelUsed [.write 4 0#32 0x00000004#32]) = .next t ∧ t.buf = []) :=
  ⟨⟨_, rfl⟩, ⟨_, rfl, rfl⟩⟩
/-- The reset line, a register write and a command. -/
theorem witness_OnlyNamedEventsChangeState :
    (∃ t, step (withEvents onePixel [.write 4 0x020#32 7#32]) = .next t ∧ t.srcW ≠ onePixel.srcW) ∧
    (∃ t, step (withEvents onePixel [.write 4 0#32 0x00000101#32]) = .next t ∧ t.err ≠ onePixel.err) ∧
    (∃ t, step (withEvents onePixel [.write 1 0x01000000#32 7#32]) = .next t ∧ t.src ≠ onePixel.src) ∧
    (∃ t, step (withEvents { onePixel with syn := ⟨1#64, 1#64, 0#64⟩ } [.write 4 0#32 0x00000003#32]) = .next t ∧
      t.syn ≠ ⟨1#64, 1#64, 0#64⟩) ∧
    (∃ t, step (withEvents { onePixel with fitValid := true } [.write 4 0#32 0x0000000A#32]) = .next t ∧
      t.fitValid = false) ∧
    (∃ t, step (withEvents onePixelUsed [.write 4 0#32 0x00000004#32]) = .next t ∧ t.buf ≠ onePixelUsed.buf) ∧
    (∃ t, step (withEvents onePixelUsed [.write 4 0#32 0x0000000A#32]) = .next t ∧ t.outSr ≠ onePixelUsed.outSr) :=
  ⟨⟨_, rfl, by decide⟩, ⟨_, rfl, by decide⟩, ⟨_, rfl, by decide⟩, ⟨_, rfl, by decide⟩, ⟨_, rfl, by decide⟩,
    ⟨_, rfl, by decide⟩, ⟨_, rfl, by decide⟩⟩
theorem witness_FlagsFollowCommands (md : Mode) :
    (∃ t, exec (.run 5) onePixel = .next t ∧ t.err.code ≠ 0#8) ∧
    (∃ t, exec (.run (Config.modeNumber md)) onePixel = .next t ∧ t.err.code = 0#8) ∧
    (∃ t, exec .clear onePixel = .next t ∧ t.err.code = 0#8) :=
  ⟨⟨_, rfl, by decide⟩, ⟨_, run_completes md onePixel_ready onePixel_source, by rw [finishRun_err]; decide⟩,
    ⟨_, rfl, by decide⟩⟩
/-- The lowest rate with a carry just below 1 and d = -0.0; the highest with carry +0.0 and d = 0.275. -/
theorem witness_CarryStaysBelowOne :
    (f64IsFinite 0x8000000000000000#64 = true ∧ f64Lt 0x8000000000000000#64 0#64 = false ∧
      f64IsFinite (toneLength (f64OfNat 8000) 0x8000000000000000#64) = true ∧
      f64Le 0#64 0x3FEFFFFFFFFFFFFF#64 = true ∧ f64Lt 0x3FEFFFFFFFFFFFFF#64 (f64OfNat 1) = true) ∧
    (f64IsFinite 0x3FD199999999999A#64 = true ∧ f64Lt 0x3FD199999999999A#64 0#64 = false ∧
      f64IsFinite (toneLength (f64OfNat 192000) 0x3FD199999999999A#64) = true ∧
      f64Le 0#64 0#64 = true ∧ f64Lt 0#64 (f64OfNat 1) = true) := by decide +kernel
theorem witness_SamplesNeverMinimum : f64IsFinite 0x7FEFFFFFFFFFFFFF#64 = true := by decide
theorem witness_ConfigFunctionsMeetRequirements : f64IsFinite 0x7FEFFFFFFFFFFFFF#64 = true ∧
    (f64Le (f64Neg (f64OfNat 1)) (f64OfNat 1) = true ∧ f64Le (f64OfNat 1) (f64OfNat 1) = true) ∧
    0 < [0#8, 1#8, 2#8].length := by decide +kernel
/-- OPF = +0.0 after a reset: the recovered phase is +0.0, and EMIT of 200 ms succeeds. -/
theorem witness_SilenceRepeatsOneSample : onePixel.opf = f64OfNat 0 ∧ f64IsFinite (recoverPhase onePixel.syn) = true ∧
    ∃ t, exec .emit onePixel = .next t ∧ t.err.code = 0#8 := by
  refine ⟨by decide +kernel, by decide +kernel, _, rfl, by decide +kernel⟩
/-- Both ends of [-1, 1] and both signs of the cosine. -/
theorem witness_PhaseRecoveryCases :
    (f64Le (f64Neg (f64OfNat 1)) (f64OfNat 1) = true ∧ f64Le (f64OfNat 1) (f64OfNat 1) = true) ∧
    (f64Le (f64Neg (f64OfNat 1)) (f64Neg (f64OfNat 1)) = true ∧ f64Le (f64Neg (f64OfNat 1)) (f64OfNat 1) = true) ∧
    f64Le (f64OfNat 0) (f64OfNat 0) = true ∧ f64Le (f64OfNat 0) 0x8000000000000001#64 = false := by decide +kernel
theorem witness_ToneStartsAtStartPhase :
    f64IsFinite (f64Mul (f64Mul (f64OfNat 2) Config.pi) (f64OfNat 1200)) = true ∧
    f64IsFinite 0x3FF921FB54442D18#64 = true ∧ 0x3FF921FB54442D18#64 ≠ f64Neg (f64OfNat 0) := by decide +kernel
theorem witness_LumaStaysInRange : (0#8).toNat ≤ (255#8).toNat ∧ (255#8).toNat ≤ (255#8).toNat := by decide
theorem witness_AvgOfEqualValues : f64IsFinite (f64Add (f64OfNat 128) (f64OfNat 128)) = true := by decide +kernel
/-- Carry +0.0, and the largest carry. -/
theorem witness_HeaderAndEndTonesCounts :
    (f64Le 0#64 0#64 = true ∧ f64Lt 0#64 (f64OfNat 1) = true ∧ 0#64 ≠ f64Neg 0#64) ∧
    (f64Le 0#64 0x3FEFFFFFFFFFFFFF#64 = true ∧ f64Lt 0x3FEFFFFFFFFFFFFF#64 (f64OfNat 1) = true ∧
      0x3FEFFFFFFFFFFFFF#64 ≠ f64Neg 0#64) := by decide +kernel
theorem witness_ScanTonesModesAD : (applyFit onePixel .a).fitMode = .a ∧ (applyFit onePixel .d).fitMode = .d ∧
    (applyFit onePixel .a).fitValid = true ∧ (applyFit onePixel .d).fitValid = true ∧
    (255 : Nat) < 256 ∧ (319 : Nat) < 320 ∧ (245759 : Nat) < 3 * (320 * 256) :=
  ⟨applyFit_fitMode _ _, applyFit_fitMode _ _, applyFit_fitValid _ _, applyFit_fitValid _ _, by decide, by decide,
    by decide⟩
/-- An even and the last, odd, row of mode B; the last pair of mode C. -/
theorem witness_ScanTonesModesBC : (applyFit onePixel .b).fitMode = .b ∧ (applyFit onePixel .c).fitMode = .c ∧
    (applyFit onePixel .b).fitValid = true ∧ (applyFit onePixel .c).fitValid = true ∧
    (0 : Nat) < 240 ∧ (239 : Nat) < 240 ∧ (247 : Nat) < 248 ∧ (639 : Nat) < 640 ∧
    (230399 : Nat) < 3 * (320 * 240) ∧ (952319 : Nat) < 3 * (640 * 496) :=
  ⟨applyFit_fitMode _ _, applyFit_fitMode _ _, applyFit_fitValid _ _, applyFit_fitValid _ _, by decide, by decide,
    by decide, by decide, by decide, by decide⟩
/-- A canvas of mode `md` all of whose bytes are 0. -/
def blackCanvas (md : Mode) : State :=
  { State.reset with fitMode := md, fitValid := true,
                     canvas := (List.range' 0 (canvasBytes md)).map (fun k => (canvasBase + k, (fun _ => 0#8) k)) }
/-- Such a canvas of every mode, and the last pixel of the last row or row pair. -/
theorem witness_BlackCanvasTones (md : Mode) : (blackCanvas md).fitMode = md ∧
    ((255 : Nat) < 256 ∧ (239 : Nat) < 240 ∧ (247 : Nat) < 248 ∧ (319 : Nat) < 320 ∧ (639 : Nat) < 640) ∧
    ∀ k, k < 3 * (Config.modeW md * Config.modeH md) → canvasCell (blackCanvas md) (0x02000000 + k) = 0#8 := by
  refine ⟨rfl, by decide, fun k hk => ?_⟩
  show (memLookup (List.map _ _) (canvasBase + k)).getD _ = _
  rw [memLookup_map_range' (fun _ => 0#8) canvasBase 0 (canvasBytes md) k]
  simp [canvasBytes, hk]
theorem witness_ModeAStartsAtPhaseZero : (⟨1#64, 2#64, 3#64⟩ : Syn).carry = (⟨4#64, 5#64, 3#64⟩ : Syn).carry := rfl
/-- Mode B, 7 x 1, the width limiting; mode C, 100 x 400, the height limiting. -/
theorem witness_FitLaws : ((320, 45) = scaledDims 320 240 7 1 ∧ centreOffset 320 320 = 0 ∧ centreOffset 240 45 = 97) ∧
    ((124, 496) = scaledDims 640 496 100 400 ∧ 640 - centreOffset 640 124 - 124 = 258) := by decide

end Sys2Proof.Tests
end

/-! SUPPORT. Lemmas of the scope family (spec/00_scope.md): the configuration functions within their ranges, the
quantiser within [-32767, 32767], and the invariant of Sys2Proof/Safety.lean kept by every operation of the machine. -/

namespace Sys2Proof.Machine

/-! ### The configuration functions (R71, R4) -/

theorem f64OfNat_zero : f64OfNat 0 = 0#64 := by decide +kernel
theorem f64OfNat_one : f64OfNat 1 = f64Unit := by decide +kernel

/-- R71's pi / 2 is the binary64 number that bounds ASIN (log 2). -/
theorem pi_div_two : f64Div Config.pi (f64OfNat 2) = f64HalfPi := by decide +kernel

theorem f64Within_iff {b v : Binary64} :
    f64Within b v = true ↔ f64Le (f64Neg b) v = true ∧ f64Le v b = true := by
  simp only [f64Within, Bool.and_eq_true]

/-- A raw value replaced by +0.0 where it breaks its range, on the arguments `p` the range is required for, is in it. -/
theorem f64Within_replaced {b v : Binary64} {p : Bool} (h0 : f64Within b 0#64 = true) (hp : p = true) :
    f64Within b (if p && !f64Within b v then 0#64 else v) = true := by
  split_ifs with h
  · exact h0
  · simpa [hp] using h

theorem zero_within_unit : f64Within f64Unit 0#64 = true := by decide +kernel
theorem unit_within_unit : f64Within f64Unit f64Unit = true := by decide +kernel
theorem zero_within_halfPi : f64Within f64HalfPi 0#64 = true := by decide +kernel

theorem sinFn_within {x : Binary64} (hx : f64IsFinite x = true) : f64Within f64Unit (sinFn x) = true := by
  by_cases h : x = 0#64
  · simpa [sinFn, h] using zero_within_unit
  · rw [sinFn, if_neg h]
    exact f64Within_replaced zero_within_unit hx

theorem cosFn_within {x : Binary64} (hx : f64IsFinite x = true) : f64Within f64Unit (cosFn x) = true := by
  by_cases h : x = 0#64
  · simpa [cosFn, h] using unit_within_unit
  · rw [cosFn, if_neg h]
    exact f64Within_replaced zero_within_unit hx

theorem asinFn_within {v : Binary64} (hv : f64Within f64Unit v = true) : f64Within f64HalfPi (asinFn v) = true := by
  by_cases h : v = 0#64
  · simpa [asinFn, h] using zero_within_halfPi
  · rw [asinFn, if_neg h]
    exact f64Within_replaced zero_within_halfPi hv

theorem resampleByte_same_size (src : List Byte) (sw sh k : Nat) :
    resampleByte src sw sh sw sh k = src.getD k 0#8 := if_pos ⟨rfl, rfl⟩

theorem srcMaxPixels_le : srcMaxPixels ≤ 5592405 := max_le (by norm_num) (Nat.min_le_right _ _)

/-- Settles O46: each requirement is imposed where the free constant would break it. -/
theorem configFunctionsMeetRequirements : Obligations.ConfigFunctionsMeetRequirements := by
  unfold Obligations.ConfigFunctionsMeetRequirements
  rw [f64OfNat_zero, f64OfNat_one, pi_div_two]
  refine ⟨fun x hx => ?_, fun v h1 h2 => ?_, if_pos rfl, if_pos rfl, if_pos rfl,
    fun src sw sh k _ => resampleByte_same_size src sw sh k, srcMaxPixels_le⟩
  · obtain ⟨hs1, hs2⟩ := f64Within_iff.1 (sinFn_within hx)
    obtain ⟨hc1, hc2⟩ := f64Within_iff.1 (cosFn_within hx)
    exact ⟨hs1, hs2, hc1, hc2⟩
  · exact f64Within_iff.1 (asinFn_within (f64Within_iff.2 ⟨h1, h2⟩))

/-! ### The quantiser (R11, R67) -/

theorem f64Key_natAbs (x : Binary64) : (f64Key x).natAbs = f64Mag x := by
  unfold f64Key; split_ifs <;> omega

/-- A number in [-b, b] is finite and no larger than b. -/
theorem f64Within_mag {b v : Binary64} (hb : F64Nonneg b) (h : f64Within b v = true) :
    f64IsFinite v = true ∧ f64Mag v ≤ f64Mag b := by
  obtain ⟨hlow, hhigh⟩ := f64Within_iff.1 h
  simp only [f64Le, Bool.and_eq_true, Bool.not_eq_true', decide_eq_true_eq, f64Key_neg, hb.key] at hlow hhigh
  obtain ⟨⟨-, hnan⟩, hlow⟩ := hlow
  have hmag : f64Mag v ≤ f64Mag b := by
    have := f64Key_natAbs v
    omega
  refine ⟨?_, hmag⟩
  by_contra hf
  have htop := f64Mag_of_isInf (f64IsInf_of_not hnan (by simpa using hf))
  have := f64Mag_lt_top hb.1
  omega

theorem f64Round_natAbs (v : Binary64) : (f64Round v).natAbs = (2 * f64Mag v + f64One) / (2 * f64One) := by
  unfold f64Round
  split_ifs
  · exact (Int.natAbs_neg _).trans (Int.natAbs_natCast _)
  · exact Int.natAbs_natCast _

/-- A magnitude of at most `n` rounds to an integer in [-n, n]. -/
theorem f64Round_bounds {v : Binary64} {n : Nat} (h : f64Mag v ≤ n * f64One) :
    -(n : Int) ≤ f64Round v ∧ f64Round v ≤ (n : Int) := by
  have hone := f64One_pos
  have hle : (f64Round v).natAbs < n + 1 := by
    rw [f64Round_natAbs, Nat.div_lt_iff_lt_mul (by omega)]
    calc 2 * f64Mag v + f64One < 2 * (n * f64One) + 2 * f64One := by omega
      _ = (n + 1) * (2 * f64One) := by ring
  omega

/-- An integer times a number of [-1, 1] is finite, and its magnitude is at most the integer. -/
theorem f64Mul_ofNat_within {n : Nat} {v : Binary64} (hn : n ≤ 2 ^ 53) (hv : f64Within f64Unit v = true) :
    f64IsFinite (f64Mul (f64OfNat n) v) = true ∧ f64Mag (f64Mul (f64OfNat n) v) ≤ n * f64One := by
  obtain ⟨hfin, hmag⟩ := f64Within_mag f64Nonneg_unit hv
  rw [f64Mag_unit] at hmag
  have hle : f64RoundMag (f64Mag (f64OfNat n) * f64Mag v) f64One ≤ n * f64One := by
    rw [f64OfNat_mag hn]
    exact f64RoundMag_le f64One_pos (f64OfNat_rep hn) (Nat.mul_le_mul_left _ hmag)
  have htop := lt_of_le_of_lt hle (nat_mul_one_lt_top (lt_1024_of_le_53 hn))
  rw [f64Mul_finite (f64OfNat_finite hn) hfin, f64Mag_pack (f64RoundMag_rep _ _) htop]
  exact ⟨f64IsFinite_pack htop, hle⟩

/-- A sample other than -32768 lies in [-32767, 32767]. -/
theorem sample_bounds_of_ne_min {v : Sample} (h : v ≠ 0x8000#16) : -32767 ≤ v.toInt ∧ v.toInt ≤ 32767 := by
  have hne : v.toInt ≠ (0x8000#16).toInt := fun he => h (BitVec.eq_of_toInt_eq he)
  have hmin : (0x8000#16).toInt = -32768 := by decide
  have hlow := BitVec.le_toInt v
  have hhigh := BitVec.toInt_lt (x := v)
  omega

theorem unstatedSample_ne_min (i : Nat) (v : Binary64) : unstatedSample i v ≠ 0x8000#16 := by
  unfold unstatedSample
  split_ifs with h
  · decide
  · exact h

/-- A finite value that rounds into [-32767, 32767] is stored as that integer. -/
theorem quantise_toInt {v : Binary64} (i : Nat) (hf : f64IsFinite v = true) (hlow : -32767 ≤ f64Round v)
    (hhigh : f64Round v ≤ 32767) : (quantise i v).toInt = f64Round v := by
  have hcond : (f64IsFinite v && decide (-(Config.amp : Int) ≤ f64Round v)
      && decide (f64Round v ≤ (Config.amp : Int))) = true := by
    simp only [hf, Bool.true_and, Bool.and_eq_true, decide_eq_true_eq]
    exact ⟨hlow, hhigh⟩
  rw [quantise, if_pos hcond, BitVec.toInt_ofInt]
  exact Int.bmod_eq_of_le (by omega) (by omega)

/-- The quantiser never produces -32768 (R11; at a free sample this is log 7's bound). -/
theorem quantise_bounds (i : Nat) (v : Binary64) : -32767 ≤ (quantise i v).toInt ∧ (quantise i v).toInt ≤ 32767 := by
  by_cases h : f64IsFinite v = true ∧ -32767 ≤ f64Round v ∧ f64Round v ≤ 32767
  · obtain ⟨hf, hlow, hhigh⟩ := h
    rw [quantise_toInt i hf hlow hhigh]
    exact ⟨hlow, hhigh⟩
  · have hq : quantise i v = unstatedSample i v := by
      refine if_neg fun hc => h ?_
      simp only [Bool.and_eq_true, decide_eq_true_eq] at hc
      obtain ⟨⟨hf, hlow⟩, hhigh⟩ := hc
      exact ⟨hf, hlow, hhigh⟩
    rw [hq]
    exact sample_bounds_of_ne_min (unstatedSample_ne_min i v)

theorem quantise_ne_min (i : Nat) (v : Binary64) : quantise i v ≠ 0x8000#16 := by
  intro h
  have hlow := (quantise_bounds i v).1
  rw [h] at hlow
  exact absurd hlow (by decide)

/-- The sample at a finite phase is the rounded sine (R67). -/
theorem quantise_sine (i : Nat) {ph : Binary64} (hph : f64IsFinite ph = true) :
    (quantise i (f64Mul (f64OfNat 32767) (sinFn ph))).toInt = f64Round (f64Mul (f64OfNat 32767) (sinFn ph)) := by
  obtain ⟨hfin, hmag⟩ := f64Mul_ofNat_within (n := 32767) (by norm_num) (sinFn_within hph)
  obtain ⟨hlow, hhigh⟩ := f64Round_bounds hmag
  exact quantise_toInt i hfin hlow hhigh

/-- A value that rounds to the stored integer `k` of [-32767, 32767] gives the sample `k`. -/
theorem quantise_eq_ofInt {v : Binary64} {k : Int} (i : Nat) (hf : f64IsFinite v = true) (hk : f64Round v = k)
    (hlow : -32767 ≤ k) (hhigh : k ≤ 32767) : quantise i v = BitVec.ofInt 16 k := by
  subst hk
  apply BitVec.eq_of_toInt_eq
  rw [quantise_toInt i hf hlow hhigh, BitVec.toInt_ofInt]
  exact (Int.bmod_eq_of_le (by omega) (by omega)).symm

/-- Settles O45: the quantiser's branches keep the range, and 32767 times a sine rounds inside it. -/
theorem samplesNeverMinimum : Obligations.SamplesNeverMinimum := by
  refine ⟨quantise_bounds, fun i _ hph => quantise_sine i hph, fun i => ⟨?_, ?_, ?_⟩⟩
  · exact quantise_eq_ofInt (k := 16384) i (by decide +kernel) (by decide +kernel) (by norm_num) (by norm_num)
  · exact quantise_eq_ofInt (k := -16384) i (by decide +kernel) (by decide +kernel) (by norm_num) (by norm_num)
  · exact quantise_eq_ofInt (k := 32767) i (by decide +kernel) (by decide +kernel) (by norm_num) (by norm_num)

end Sys2Proof.Machine

/-! SUPPORT. The invariant of Sys2Proof/Safety.lean: what each operation of the machine needs to keep it. -/

namespace Sys2Proof.Machine

/-! ### The carry and the samples of pending tones (R62 to R67) -/

/-- The quotient of an infinity by a finite number is an infinity. -/
theorem f64Div_infinite {x y : Binary64} (hx : f64IsInf x = true) (hnx : f64IsNaN x = false)
    (hy : f64IsFinite y = true) : f64Div x y = f64Pack (f64Sign x != f64Sign y) f64Top := by
  simp [f64Div, hx, hnx, f64IsNaN_of_finite hy, f64IsInf_of_finite hy]

theorem not_finite_of_isInf {x : Binary64} (h : f64IsInf x = true) : f64IsFinite x = false := by
  by_contra hf
  rw [f64IsInf_of_finite (by simpa using hf)] at h
  exact absurd h (by decide)

/-- The length of a legal tone is a number that is not negative, unless SR * d overflows (R63, log 6). -/
theorem toneLength_nonneg_or_infinite {r : Nat} {d : Binary64} (hr : r ≤ 2 ^ 53) (hd : F64Nonneg d) :
    F64Nonneg (toneLength (f64OfNat r) d) ∨ f64IsFinite (toneLength (f64OfNat r) d) = false := by
  have h1000 : f64Mag (f64OfNat 1000) = 1000 * f64One := f64OfNat_mag (by norm_num)
  have hn1000 : F64Nonneg (f64OfNat 1000) := f64Nonneg_ofNat (by norm_num)
  have hone := f64One_pos
  unfold toneLength
  rcases Nat.lt_or_ge (f64RoundMag (f64Mag (f64OfNat r) * f64Mag d) f64One) f64Top with hlt | hge
  · left
    obtain ⟨hp, -⟩ := (f64Nonneg_ofNat hr).mul hd hlt
    have hle : f64RoundMag (f64Mag (f64Mul (f64OfNat r) d) * f64One) (1000 * f64One)
        ≤ f64Mag (f64Mul (f64OfNat r) d) :=
      f64RoundMag_le (by omega) (f64Mag_rep _) (Nat.mul_le_mul_left _ (by omega))
    refine (hp.div hn1000 (by omega) ?_).1
    rw [h1000]
    exact lt_of_le_of_lt hle (f64Mag_lt_top hp.1)
  · right
    rw [f64Mul_finite (f64OfNat_finite hr) hd.1,
      f64Div_infinite (f64IsInf_pack_top hge) (f64IsNaN_pack _ _) hn1000.1]
    exact not_finite_of_isInf (f64IsInf_pack_top le_rfl)

/-- A tone of infinite length counts more samples than the buffer holds (log 6). -/
theorem bufCap_lt_toneCount {sr d carry : Binary64} (h : f64IsFinite (toneLength sr d) = false) :
    Config.bufCap < (toneCount sr d carry).1 := by
  have hfloor : f64FloorNat (toneLength sr d) = 2 ^ 1024 := by
    unfold f64FloorNat
    rw [h, if_pos (by decide)]
  have hcount : f64FloorNat (toneLength sr d) ≤ (toneCount sr d carry).1 := by
    unfold toneCount
    simp only []
    split_ifs
    · exact Nat.le_add_right _ _
    · exact le_rfl
  have hcap : 2 ^ 27 < f64FloorNat (toneLength sr d) := by
    rw [hfloor]
    exact lt_1024_of_le_53 (by norm_num)
  exact lt_of_lt_of_le hcap hcount

/-- A tone that fits the buffer keeps the carry in [0, 1) (R64). -/
theorem toneCount_carryOk_of_fits {r : Nat} {d carry : Binary64} (hr : r ≤ 2 ^ 53) (hd : F64Nonneg d)
    (hc : CarryOk carry) (hfit : (toneCount (f64OfNat r) d carry).1 ≤ Config.bufCap) :
    CarryOk (toneCount (f64OfNat r) d carry).2 := by
  rcases toneLength_nonneg_or_infinite hr hd with hx | hinf
  · exact toneCount_carryOk hx hc
  · have := bufCap_lt_toneCount (carry := carry) hinf
    omega

theorem emitTone_ne_min {sr : Binary64} {syn : Syn} {t : Tone} {v : Sample} (h : v ∈ (emitTone sr syn t).2) :
    v ≠ 0x8000#16 := by
  obtain ⟨i, -, rfl⟩ := List.mem_map.1 h
  exact quantise_ne_min i _

/-- No emitted sample is -32768 (R11). -/
theorem emitTones_ne_min {sr : Binary64} {syn : Syn} {ts : List Tone} {v : Sample}
    (h : v ∈ (emitTones sr syn ts).2) : v ≠ 0x8000#16 := by
  induction ts generalizing syn with
  | nil => exact absurd h List.not_mem_nil
  | cons t ts ih =>
    rw [emitTones_cons] at h
    rcases List.mem_append.1 h with hfirst | hrest
    · exact emitTone_ne_min hfirst
    · exact ih hrest

/-! ### The fit metadata (R88, R90, R94) -/

theorem scaledOther_bounds {n t d b : Nat} (hb : 1 ≤ b) (h : n * t ≤ b * d) :
    1 ≤ scaledOther n t d ∧ scaledOther n t d ≤ b :=
  ⟨le_max_left 1 _, max_le hb (Nat.div_le_of_le_mul (by rwa [Nat.mul_comm d b]))⟩

/-- The scaled image has at least one pixel each way and fits the target (R94). -/
theorem scaledDims_bounds {tw th : Nat} (sw sh : Nat) (htw : 1 ≤ tw) (hth : 1 ≤ th) :
    (1 ≤ (scaledDims tw th sw sh).1 ∧ (scaledDims tw th sw sh).1 ≤ tw) ∧
    (1 ≤ (scaledDims tw th sw sh).2 ∧ (scaledDims tw th sw sh).2 ≤ th) := by
  unfold scaledDims
  split_ifs with h
  · exact ⟨⟨htw, le_rfl⟩, scaledOther_bounds hth (by rwa [Nat.mul_comm])⟩
  · exact ⟨scaledOther_bounds htw (by rw [Nat.mul_comm]; omega), ⟨hth, le_rfl⟩⟩

/-- The margins and the scaled size sum to the target (R90, R94). -/
theorem margins_sum {t n : Nat} (h : n ≤ t) : centreOffset t n + n + (t - centreOffset t n - n) = t := by
  unfold centreOffset; omega

theorem modeW_bounds (m : Mode) : 1 ≤ Config.modeW m ∧ Config.modeW m ≤ 640 := by cases m <;> decide
theorem modeH_bounds (m : Mode) : 1 ≤ Config.modeH m ∧ Config.modeH m ≤ 496 := by cases m <;> decide

/-- The metadata of a fit obey the fit laws (R92, R94). -/
theorem fitRecord_lawful (s : State) (m : Mode) : fitLawful (fitRecord s m) m := by
  obtain ⟨htw, htw'⟩ := modeW_bounds m
  obtain ⟨hth, hth'⟩ := modeH_bounds m
  obtain ⟨⟨hw1, hw2⟩, ⟨hh1, hh2⟩⟩ := scaledDims_bounds s.srcW.toNat s.srcH.toNat htw hth
  have hw := margins_sum hw2
  have hh := margins_sum hh2
  have small : ∀ k, k ≤ 640 → (BitVec.ofNat 32 k).toNat = k := fun k hk => by
    rw [BitVec.toNat_ofNat]; omega
  unfold fitLawful fitRecord
  simp only []
  rw [small _ htw', small _ (by omega), small _ (by omega), small _ (by omega), small _ (by omega),
    small _ (by omega), small _ (by omega), small _ (by omega)]
  exact ⟨rfl, rfl, hw1, hw2, hh1, hh2, hw, hh⟩

/-! ### The invariant, operation by operation -/

theorem Inv.carryOk {s : State} (h : Inv s) : CarryOk s.syn.carry := ⟨h.carryLow, h.carryHigh⟩

/-- The invariant holds after the reset line (R128), whatever the model's own fields. -/
theorem inv_hardReset (s : State) : Inv (hardReset s) where
  srcWf := rfl
  srcRange := fun _ h => absurd h List.not_mem_nil
  canvasWhole := fun h => nomatch h
  canvasNone := fun _ => ⟨rfl, rfl, rfl, rfl⟩
  fitLaws := fun h => nomatch h
  carryLow := carryOk_fresh.1
  carryHigh := carryOk_fresh.2
  bufCap := Nat.zero_le _
  bufSamples := fun _ h => absurd h List.not_mem_nil
  outValid := fun h => nomatch h
  errCode := Nat.zero_le _
  errOk := fun _ => rfl

theorem Inv.after_takeEvent {s : State} (h : Inv s) (rest : List HostEvent) : Inv (takeEvent s rest) := { h with }

theorem Inv.after_returnRead {s : State} (h : Inv s) (v : Word) : Inv (returnRead s v) := { h with }

/-- A register write changes host registers only, of which the invariant does not speak (R35). -/
theorem Inv.after_writeRegAt {s : State} (h : Inv s) (k : Nat) (v : Word) : Inv (writeRegAt s k v) := by
  rw [writeRegAt_frame]
  exact { h with }

/-- A write inside the source window keeps its memory canonical and inside it (R27, R35). -/
theorem Inv.after_storeSource {s : State} (h : Inv s) {a n : Nat} (d : Word) (hlow : srcBase ≤ a)
    (hhigh : a + n ≤ srcBase + srcSize) : Inv (storeSource s a n d) :=
  { h with
    srcWf := wf_memStoreList a _ h.srcWf
    srcRange := fun c hc => by
      rcases mem_memStoreList hc with hnew | hold
      · rw [bytesOf_length] at hnew
        omega
      · exact h.srcRange c hold }

theorem Inv.after_raiseErr {s : State} (h : Inv s) {e : ErrRecord} (he : raisable e) : Inv (raiseErr s e) :=
  { h with
    errCode := he.2
    errOk := fun h0 => absurd h0 he.1 }

theorem Inv.after_clearErr {s : State} (h : Inv s) : Inv (clearErr s) :=
  { h with
    errCode := Nat.zero_le _
    errOk := fun _ => rfl }

theorem Inv.after_freshSyn {s : State} (h : Inv s) : Inv (freshSyn s) :=
  { h with
    carryLow := carryOk_fresh.1
    carryHigh := carryOk_fresh.2 }

theorem Inv.after_emptyBuf {s : State} (h : Inv s) : Inv (emptyBuf s) :=
  { h with
    bufCap := Nat.zero_le _
    bufSamples := fun _ hv => absurd hv List.not_mem_nil
    outValid := fun hv => nomatch hv }

theorem Inv.after_clearOutputs {s : State} (h : Inv s) : Inv (clearOutputs s) :=
  { h.after_freshSyn.after_emptyBuf with
    canvasWhole := fun hv => nomatch hv
    canvasNone := fun _ => ⟨rfl, rfl, rfl, rfl⟩
    fitLaws := fun hv => nomatch hv
    outValid := fun hv => nomatch hv }

/-- Appended samples keep the invariant when they fit, none is -32768 and the last carry lies in [0, 1). -/
theorem Inv.after_appendOutput {s : State} (h : Inv s) {out : Syn × List Sample} (hc : CarryOk out.1.carry)
    (hlen : s.buf.length + out.2.length ≤ Config.bufCap) (hne : ∀ v ∈ out.2, v ≠ 0x8000#16) :
    Inv (appendOutput s out) :=
  { h.after_clearErr with
    carryLow := hc.1
    carryHigh := hc.2
    bufCap := by rwa [appendOutput_buf, List.length_append]
    bufSamples := fun v hmem => (List.mem_append.1 hmem).elim (h.bufSamples v) (hne v)
    outValid := fun hv => nomatch hv }

/-- The end of a run keeps the invariant on the same terms, on a fitted canvas and at a legal rate (R108). -/
theorem Inv.after_finishRun {s : State} (h : Inv s) {out : Syn × List Sample} (hc : CarryOk out.1.carry)
    (hlen : out.2.length ≤ Config.bufCap) (hne : ∀ v ∈ out.2, v ≠ 0x8000#16) (hfit : s.fitValid = true)
    (hr : rateLegal s.sampleRate) : Inv (finishRun s out) :=
  { h.after_clearErr with
    carryLow := hc.1
    carryHigh := hc.2
    bufCap := hlen
    bufSamples := hne
    outValid := fun _ => ⟨hfit, hr⟩ }

/-- A fit leaves a whole canvas with lawful metadata (R91, R94). -/
theorem Inv.after_applyFit {s : State} (h : Inv s) (m : Mode) : Inv (applyFit s m) :=
  { h.after_clearErr with
    canvasWhole := fun _ => canvasOf_addresses _ _ _ m
    canvasNone := fun hv => nomatch hv
    fitLaws := fun _ => fitRecord_lawful s m
    outValid := fun hv => ⟨rfl, (h.outValid hv).2⟩ }

/-! ### The invariant, command by command -/

/-- A standalone emitting command whose tones fit the buffer keeps the invariant if its tones keep the carry. -/
theorem Inv.after_emitTones {s : State} (h : Inv s) {ts : List Tone}
    (hfit : s.buf.length + countTones (rateF s) s.syn.carry ts ≤ Config.bufCap)
    (hc : CarryOk (endCarry (rateF s) s.syn.carry ts)) :
    Inv (appendOutput s (emitTones (rateF s) s.syn ts)) := by
  refine h.after_appendOutput ?_ ?_ fun v hv => emitTones_ne_min hv
  · rwa [emitTones_carry]
  · rwa [emitTones_length]

/-- Tones of bounded count at every legal rate (the header, a scan, the end tones) keep the carry, so appending them
keeps the invariant (R64). -/
theorem Inv.after_emitTones_within {s : State} (h : Inv s) {n : Nat} {ts : List Tone} (hts : TonesWithin n ts)
    (hr : rateLegal s.sampleRate)
    (hfit : s.buf.length + countTones (rateF s) s.syn.carry ts ≤ Config.bufCap) :
    Inv (appendOutput s (emitTones (rateF s) s.syn ts)) :=
  h.after_emitTones hfit (hts _ hr.2 _ h.carryOk).1

/-- The one tone of EMIT and EMIT_PHI has any duration the host gives; it keeps the carry because it fits the buffer
(R73, R74). -/
theorem Inv.after_emitTones_single {s : State} (h : Inv s) {t : Tone} (hd : F64Nonneg t.dur)
    (hr : rateLegal s.sampleRate) (hfit : s.buf.length + countTones (rateF s) s.syn.carry [t] ≤ Config.bufCap) :
    Inv (appendOutput s (emitTones (rateF s) s.syn [t])) := by
  refine h.after_emitTones hfit (toneCount_carryOk_of_fits ?_ hd h.carryOk ?_)
  · exact le_trans hr.2 (by norm_num [Config.srMax])
  · exact le_trans (Nat.le_add_right _ _) (le_trans (Nat.le_add_left _ _) hfit)

/-- A run keeps the invariant: its tones fit the buffer and keep the carry at every legal rate (R107, R108). -/
theorem Inv.after_run {s : State} (h : Inv s) (m : Mode) (hr : rateLegal s.sampleRate) :
    Inv (finishRun (applyFit s m) (emitTones (rateF s) Syn.fresh (runTones (applyFit s m) m))) := by
  obtain ⟨hcarry, hcount⟩ := runTones_within (applyFit s m) m _ hr.2 _ carryOk_fresh
  refine (h.after_applyFit m).after_finishRun ?_ ?_ (fun v hv => emitTones_ne_min hv) (applyFit_fitValid s m) hr
  · rw [emitTones_carry]; exact hcarry
  · rw [emitTones_length]; exact hcount

/-- A command that succeeds keeps the invariant. -/
theorem Inv.after_effect {i : Instr} {s t : State} (h : Inv s) (he : Effect s i t) : Inv t := by
  cases he with
  | nop => exact h.after_clearErr
  | emit hfit hr hd => exact h.after_emitTones_single hd hr hfit
  | emitPhi hfit hr hd => exact h.after_emitTones_single hd hr hfit
  | synthClear => exact h.after_clearErr.after_freshSyn
  | bufClear => exact h.after_clearErr.after_emptyBuf
  | vis m md _ hfit hr => exact h.after_emitTones_within (visTones_within md) hr hfit
  | fit m md => exact h.after_applyFit md
  | scan m md _ hfit hr => exact h.after_emitTones_within (scanTones_within s md) hr hfit
  | endTones hfit hr => exact h.after_emitTones_within endTones_within hr hfit
  | run m md _ hr => exact h.after_run md hr
  | clear => exact h.after_clearErr.after_clearOutputs

/-- A command keeps the invariant, whether it succeeds or records an error (R119). -/
theorem Inv.after_exec {i : Instr} {s t : State} (h : Inv s) (hx : exec i s = .next t) : Inv t := by
  rcases exec_next hx with ⟨e, he, rfl⟩ | he
  · exact h.after_raiseErr he
  · exact h.after_effect he

/-- Settles O35, by the ways a step can end: each of them is an operation that keeps the invariant. -/
theorem stepKeepsInvariant : Obligations.StepKeepsInvariant := by
  intro s t h hstep
  have hevent := h.after_takeEvent
  rcases step_next_cases hstep with ⟨-, rfl⟩ | ⟨rest, -, rfl⟩ | ⟨rest, -, -, v, -, rfl⟩ |
    ⟨rest, -, a, d, -, rfl, -⟩ | ⟨rest, w, a, d, -, rfl, hlow, hhigh⟩ | ⟨rest, -, -, -, -, rfl⟩ |
    ⟨rest, -, d, -, -, rfl⟩ | ⟨rest, -, -, i, -, -, hx⟩
  · exact h
  · exact inv_hardReset _
  · exact (hevent rest).after_returnRead v
  · exact (hevent rest).after_writeRegAt _ d
  · exact (hevent rest).after_storeSource d hlow hhigh
  · exact hevent rest
  · exact (hevent rest).after_raiseErr (raisable_errIllegal d)
  · exact (hevent rest).after_exec hx

end Sys2Proof.Machine

/-! SUPPORT. Lemmas of the state family (spec/10_state.md): the register map read and written through the host port, and
the state after reset. -/

namespace Sys2Proof.Machine

/-! ### The register map (R19) -/

/-- Every row of the table is found at its offset. -/
theorem regAt_of_mem {k : Nat} {r : Reg} (h : (k, r) ∈ regTable) : regAt k = some r := by
  have hall : ∀ row ∈ regTable, regAt row.1 = some row.2 := by decide
  exact hall _ h

/-- The named registers stand at word offsets up to 0x0A0. -/
theorem regTable_offset {k : Nat} {r : Reg} (h : (k, r) ∈ regTable) : k ≤ 0x0A0 ∧ k % 4 = 0 := by
  have hall : ∀ row ∈ regTable, row.1 ≤ 0x0A0 ∧ row.1 % 4 = 0 := by decide
  exact hall _ h

/-- No register stands at two offsets. -/
theorem regAt_inj {j k : Nat} {r : Reg} (hj : regAt j = some r) (hk : regAt k = some r) : j = k := by
  have hnodup : (regTable.map Prod.snd).Nodup := by decide
  exact congrArg Prod.fst (List.inj_on_of_nodup_map hnodup (regAt_mem hj) (regAt_mem hk) rfl)

theorem readRegAt_of_some {s : State} {k : Nat} {r : Reg} (h : regAt k = some r) :
    readRegAt s k = readReg s r := by
  rw [readRegAt, h]

theorem readRegAt_of_none {s : State} {k : Nat} (h : regAt k = none) : readRegAt s k = 0#32 := by
  rw [readRegAt, h]

theorem writeRegAt_of_some {s : State} {k : Nat} {v : Word} {r : Reg} (h : regAt k = some r) :
    writeRegAt s k v = writeReg s r v := by
  rw [writeRegAt, h]

/-- No register is named above offset 0x0A0. -/
theorem regAt_reserved {k : Nat} (h : 0x0A0 < k) : regAt k = none := by
  cases hr : regAt k with
  | none => rfl
  | some r =>
    have := (regTable_offset (regAt_mem hr)).1
    omega

/-- The bits of STATUS (R20). -/
theorem statusWord_bits (s : State) :
    (statusWord s).getLsbD 0 = false ∧ (statusWord s).getLsbD 1 = s.outValid ∧
    (statusWord s).getLsbD 2 = s.fitValid ∧ (statusWord s).getLsbD 3 = (s.err.code != 0#8) ∧
    (statusWord s).getLsbD 4 = s.warnOversize ∧ (statusWord s).toNat < 2 ^ 5 := by
  unfold statusWord flagBusy flagOutValid flagFitValid flagErr flagWarn
  generalize s.warnOversize = warn, (s.err.code != 0#8) = err, s.fitValid = fit, s.outValid = out
  revert warn err fit out
  decide

/-- The rows written out from R19 are those of the register table but STATUS, each with what its register reads. -/
theorem registerRows_eq (s : State) : registerRows s =
    (regTable.filter (fun row => row.2 != .status)).map (fun row => (row.1, readReg s row.2)) := by
  have hcode : 0#24 ++ s.err.code = s.err.code.setWidth 32 := (BitVec.setWidth_eq_append (by decide)).symm
  cases hm : s.fitMode <;>
    simp [registerRows, regTable, regTableControl, regTableSynth, regTableFit, readReg, lowWord, highWord, loHalf,
      hiHalf, hcode, hm, Config.modeNumber]

/-- A row written out from R19 is a legal read, and tells what it returns. -/
theorem registerRows_mem {s : State} {off : Nat} {v : Word} (h : (off, v) ∈ registerRows s) :
    off ≤ 0x0A0 ∧ off % 4 = 0 ∧ readRegAt s off = v := by
  rw [registerRows_eq, List.mem_map] at h
  obtain ⟨⟨k, r⟩, hmem, heq⟩ := h
  cases heq
  have hrow := (List.mem_filter.1 hmem).1
  obtain ⟨hle, hal⟩ := regTable_offset hrow
  exact ⟨hle, hal, readRegAt_of_some (regAt_of_mem hrow)⟩

/-- A host read of a register, as an update of the state it finds. -/
theorem step_register_read_eq {s : State} {a : Word} {rest : List HostEvent} (hs : s.script = .read 4 a :: rest)
    (hle : a.toNat ≤ 0xFFC) (hal : a.toNat % 4 = 0) :
    step s = .next { s with script := rest, draws := s.draws + 1, rdata := readRegAt s a.toNat } :=
  step_register_read hs (Nat.lt_of_le_of_lt hle (by decide)) hal

/-- Settles O14: a legal register read returns `readRegAt`, which is the table of R19 read row by row. -/
theorem statusReadsTheFlags : Obligations.StatusReadsTheFlags := by
  intro s rest
  refine ⟨fun hs => ⟨_, step_register_read_eq hs (by decide) (by decide), ?_⟩, fun off v hrow hs => ?_,
    fun off hlow hhigh hal hs => ?_, fun off hle hal hs => step_register_read_eq hs hle hal⟩
  · have hread : readRegAt s (4#32).toNat = statusWord s := readRegAt_of_some (r := .status) (by decide)
    obtain ⟨h0, h1, h2, h3, h4, hlt⟩ := statusWord_bits s
    simp only [hread]
    refine ⟨h0, h1, h2, by rw [h3, bne_iff_ne], h4, fun k hk => ?_⟩
    exact Nat.testBit_lt_two_pow (Nat.lt_of_lt_of_le hlt (Nat.pow_le_pow_right (by decide) hk))
  · obtain ⟨hle, hal, hv⟩ := registerRows_mem hrow
    have hoff : (BitVec.ofNat 32 off).toNat = off := by
      rw [BitVec.toNat_ofNat]
      omega
    rw [step_register_read_eq hs (by omega) (by omega), hoff, hv]
  · rw [step_register_read_eq hs hhigh hal, readRegAt_of_none (regAt_reserved (by omega))]

/-! ### Host registers stored and read back (R19, R35) -/

@[simp] theorem loHalf_withLo (x : DWord) (v : Word) : loHalf (withLo x v) = v := BitVec.extractLsb'_append_eq_right
@[simp] theorem hiHalf_withLo (x : DWord) (v : Word) : hiHalf (withLo x v) = hiHalf x :=
  BitVec.extractLsb'_append_eq_left
@[simp] theorem loHalf_withHi (x : DWord) (v : Word) : loHalf (withHi x v) = loHalf x :=
  BitVec.extractLsb'_append_eq_right
@[simp] theorem hiHalf_withHi (x : DWord) (v : Word) : hiHalf (withHi x v) = v := BitVec.extractLsb'_append_eq_left

/-- The RW rows of R19: the registers that a host write stores. -/
def hostWritable : Reg → Bool
  | .sampleRate | .bitDepth | .srcW | .srcH | .hostTimeLo | .hostTimeHi
  | .opfLo | .opfHi | .opdLo | .opdHi | .oppLo | .oppHi => true
  | _ => false

/-- The offsets 0x018 to 0x044 hold the RW registers. -/
theorem regAt_hostWritable {k : Nat} (hlow : 0x18 ≤ k) (hhigh : k ≤ 0x44) (hal : k % 4 = 0) :
    ∃ r, regAt k = some r ∧ hostWritable r = true := by
  have hall : ∀ k < 0x45, 0x18 ≤ k → k % 4 = 0 → (regAt k).any hostWritable = true := by decide
  exact (Option.any_eq_true _ _).1 (hall k (by omega) hlow hal)

theorem readReg_writeReg_same (s : State) {r : Reg} (v : Word) (h : hostWritable r = true) :
    readReg (writeReg s r v) r = v := by
  cases r with
  | sampleRate | bitDepth | srcW | srcH | hostTimeLo | hostTimeHi | opfLo | opfHi | opdLo | opdHi | oppLo | oppHi =>
    simp [readReg, writeReg]
  | _ => cases h

/-- No register write shows in a register that is not RW. -/
theorem readReg_writeReg_readOnly (s : State) (r : Reg) {q : Reg} (v : Word) (h : hostWritable q = false) :
    readReg (writeReg s r v) q = readReg s q := by
  cases q <;> simp [hostWritable, readReg, statusWord, flagBusy, flagOutValid, flagFitValid, flagErr, flagWarn] at h ⊢

/-- A register write shows in no other register; the two halves of a pair do not disturb each other. -/
theorem readReg_writeReg_other (s : State) {r q : Reg} (v : Word) (h : q ≠ r) :
    readReg (writeReg s r v) q = readReg s q := by
  cases hq : hostWritable q with
  | false => exact readReg_writeReg_readOnly s r v hq
  | true =>
    cases q with
    | sampleRate | bitDepth | srcW | srcH | hostTimeLo | hostTimeHi | opfLo | opfHi | opdLo | opdHi | oppLo | oppHi =>
      cases r <;> simp [readReg, writeReg] at h ⊢
    | _ => cases hq

/-- Reading an offset after a write to another one. -/
theorem readRegAt_writeRegAt_other (s : State) {j k : Nat} (v : Word) (h : k ≠ j) :
    readRegAt (writeRegAt s j v) k = readRegAt s k := by
  cases hj : regAt j with
  | none => rw [writeRegAt, hj]
  | some r =>
    cases hk : regAt k with
    | none => rw [readRegAt_of_none hk, readRegAt_of_none hk]
    | some q =>
      have hne : q ≠ r := fun heq => h (regAt_inj (heq ▸ hk) hj)
      rw [writeRegAt_of_some hj, readRegAt_of_some hk, readRegAt_of_some hk, readReg_writeReg_other s v hne]

/-- A legal write to a register other than CMD goes to that register. -/
theorem step_register_write {s : State} {a d : Word} {rest : List HostEvent} (hs : s.script = .write 4 a d :: rest)
    (hlt : a.toNat < regSize) (hal : a.toNat % 4 = 0) (h0 : a.toNat ≠ 0) :
    step s = .next (writeRegAt (takeEvent s rest) a.toNat d) := by
  have hwin : windowOf a.toNat = some .registers := if_pos hlt
  have hcon : (windowWidths .registers).contains 4 = true := by decide
  rw [step_event hs]
  simp only [hostPort, portAccess, hwin, hcon, hal, if_true, portWrite, if_neg h0]

/-- Settles O10: the offset names an RW register, which the write stores and the read returns. -/
theorem hostRegistersStoreAndReadBack : Obligations.HostRegistersStoreAndReadBack := by
  intro s off v hlow hhigh hal hs
  obtain ⟨r, hr, hrw⟩ := regAt_hostWritable hlow hhigh hal
  have hlt : off.toNat < regSize := Nat.lt_of_le_of_lt hhigh (by decide)
  have hread : readRegAt (writeRegAt (takeEvent s [.read 4 off]) off.toNat v) off.toNat = v := by
    rw [writeRegAt_of_some hr, readRegAt_of_some hr, readReg_writeReg_same _ v hrw]
  refine ⟨_, _, step_register_write hs hlt hal (by omega),
    step_register_read (rest := []) (by simp) hlt hal, ?_, fun k hk => ?_, ?_⟩
  · rw [returnRead_rdata, hread]
  · rw [readRegAt_writeRegAt_other _ v hk, readRegAt_takeEvent]
  · apply State.ext_fields <;> simp

/-! ### The state after reset (R15, R25, R128) -/

/-- Settles O36: reset is the reset line on the state it makes. -/
theorem resetMeetsInvariant : Obligations.ResetMeetsInvariant := inv_hardReset State.reset

/-- Settles O11, row by row of the register table; a reserved offset reads 0 in every state. -/
theorem registerResetColumn : Obligations.RegisterResetColumn := by
  have hall : ∀ row ∈ regTable, row.1 ≠ 0x01C → row.1 ≠ 0x054 → readReg State.reset row.2 = 0#32 := by decide
  refine ⟨readRegAt_of_some (r := .bitDepth) (by decide), ?_, fun k _ h1 h2 => ?_⟩
  · have hread : readRegAt State.reset 0x054 = readReg State.reset .synCosHi := readRegAt_of_some (by decide)
    rw [hread]
    decide
  · cases hk : regAt k with
    | none => exact readRegAt_of_none hk
    | some r => rw [readRegAt_of_some hk, hall _ (regAt_mem hk) h1 h2]

/-- The phase recovered from (+0.0, +1.0, +0.0) is +0.0 (R15, R65). -/
theorem recoverPhase_fresh : recoverPhase Syn.fresh = 0#64 := by
  have hasin : asinFn Syn.fresh.value = 0#64 := if_pos rfl
  unfold recoverPhase
  rw [hasin]
  decide +kernel

/-- After the reset line no byte of a window has a value of its own (R34, R128). -/
theorem memByte_hardReset (s : State) (a : Nat) : memByte (hardReset s) a = Config.draw s.draws a := by
  have hsrc : srcByte (hardReset s) a = Config.draw s.draws a := rfl
  have hcanvas : canvasHostByte (hardReset s) a = Config.draw s.draws a := by
    simp [canvasHostByte, State.reset]
  have hsample : sampleHostByte (hardReset s) a = Config.draw s.draws a := rfl
  unfold memByte
  rw [hsrc, hcanvas, hsample, hardReset_draws]
  split_ifs <;> rfl

/-- Settles O15: the step is `hardReset`, whose fields are those of `State.reset`. -/
theorem hardwareResetValues : Obligations.HardwareResetValues := by
  intro s rest hs
  refine ⟨hardReset (takeEvent s rest), by simp only [step_event hs, hostPort], rfl, recoverPhase_fresh, rfl,
    rfl, rfl, rfl, rfl, rfl, rfl, rfl, rfl, rfl, rfl, rfl, rfl, rfl, fun a _ => ?_⟩
  rw [memByte_hardReset, hardReset_draws]

end Sys2Proof.Machine

/-! SUPPORT. Lemmas of the state family (spec/10_state.md): what the commands and the steps leave unchanged, and the
events that change each kind of core state. -/

namespace Sys2Proof.Machine

/-! ### The emitting commands (R24, R73) -/

/-- A standalone emitting command records an error or appends samples. -/
theorem exec_emitter_next {i : Instr} {m : Nat} {s t : State}
    (hi : i ∈ [Instr.emit, Instr.emitPhi, Instr.vis m, Instr.scan m, Instr.endTones]) (hx : exec i s = .next t) :
    (∃ e, t = raiseErr s e) ∨ ∃ out, t = appendOutput s out := by
  rcases exec_next hx with ⟨e, -, he⟩ | heff
  · exact Or.inl ⟨e, he⟩
  · right
    cases heff with
    | emit | emitPhi | vis | scan | endTones => exact ⟨_, rfl⟩
    | nop | synthClear | bufClear | fit | run | clear => simp at hi

/-- A byte outside the appended samples reads as before (R30, R34). -/
theorem memByte_appendOutput (s : State) (out : Syn × List Sample) {a : Nat}
    (h : ¬ (sampleBase + 2 * s.buf.length ≤ a ∧ a < sampleBase + 2 * (s.buf ++ out.2).length)) :
    memByte (appendOutput s out) a = memByte s a := by
  have hsample : sampleBase ≤ a → sampleHostByte (appendOutput s out) a = sampleHostByte s a := by
    intro ha
    have hget : (s.buf ++ out.2)[(a - sampleBase) / 2]? = s.buf[(a - sampleBase) / 2]? := by
      by_cases hold : (a - sampleBase) / 2 < s.buf.length
      · exact List.getElem?_append_left hold
      · rw [List.getElem?_eq_none (by omega), List.getElem?_eq_none (by omega)]
    unfold sampleHostByte
    rw [appendOutput_buf, hget, appendOutput_draws]
  have hcanvas : canvasHostByte (appendOutput s out) a = canvasHostByte s a := (rfl)
  have hsrc : srcByte (appendOutput s out) a = srcByte s a := (rfl)
  unfold memByte
  split_ifs with h1 h2 h3
  · exact hsrc
  · exact hcanvas
  · exact hsample h3.1
  · rw [appendOutput_draws]

/-- Settles O37: an error leaves all memory, an append all bytes but the appended samples'. -/
theorem emittersFrame : Obligations.EmittersFrame := by
  intro i m s t hi hx
  rcases exec_emitter_next hi hx with ⟨e, rfl⟩ | ⟨out, rfl⟩
  · exact ⟨(rfl), ⟨[], by simp⟩, fun a _ => (rfl)⟩
  · exact ⟨(rfl), ⟨out.2, (rfl)⟩, fun a ha => memByte_appendOutput s out ha⟩

/-! ### The flags (R20) -/

theorem Effect.err {i : Instr} {s t : State} (he : Effect s i t) : t.err = ErrRecord.ok := by
  rw [he.keeps]

/-- The oversize test as R93 writes it. -/
theorem oversize_eq (m : Mode) (sw sh : Nat) :
    oversize m sw sh = decide (16 * Config.modeW m * Config.modeH m < sw * sh) := by
  rw [oversize, decide_eq_decide, Nat.mul_assoc]
  rfl

/-- Settles O43: a failing command only records its error, and of the effects only those of FIT, RUN and CLEAR write
FIT_VALID and WARN_OVERSIZE. -/
theorem flagsFollowCommands : Obligations.FlagsFollowCommands := by
  intro i s t hx
  rcases exec_next hx with ⟨e, he, rfl⟩ | heff
  · exact ⟨fun _ => ⟨rfl, rfl, rfl⟩, fun h0 => absurd h0 he.1⟩
  · refine ⟨fun hne => absurd (congrArg ErrRecord.code heff.err) hne, fun _ => ?_⟩
    cases heff with
    | fit | run => simp [oversize_eq]
    | clear => simp
    | nop | synthClear | bufClear => simp
    | emit | emitPhi | vis | scan | endTones => simp

/-! ### The buffer (R24) -/

/-- What a successful command does to the buffer. -/
theorem Effect.buf_cases {i : Instr} {s t : State} (he : Effect s i t) :
    (∃ more, t.buf = s.buf ++ more) ∨ (t.buf = [] ∧ i ∈ [Instr.bufClear, Instr.clear]) ∨ ∃ m, i = .run m := by
  cases he with
  | emit | emitPhi | vis | scan | endTones => exact Or.inl ⟨_, rfl⟩
  | nop | synthClear | fit => exact Or.inl ⟨[], by simp⟩
  | bufClear | clear => exact Or.inr (Or.inl ⟨rfl, by simp⟩)
  | run m => exact Or.inr (Or.inr ⟨m, rfl⟩)

/-! ### What each event can change (R129) -/

/-- The host registers, those of offsets 0x018 to 0x044, hold the same values. -/
def SameHostRegs (s t : State) : Prop :=
  t.sampleRate = s.sampleRate ∧ t.bitDepth = s.bitDepth ∧ t.srcW = s.srcW ∧ t.srcH = s.srcH ∧
  t.hostTime = s.hostTime ∧ t.opf = s.opf ∧ t.opd = s.opd ∧ t.opp = s.opp

/-- What only commands and the reset line change, but for the error record, is the same. -/
structure SameOutputs (s t : State) : Prop where
  syn : t.syn = s.syn
  output : t.buf = s.buf ∧ t.outValid = s.outValid
  outSr : t.outSr = s.outSr
  fitted : t.canvas = s.canvas ∧ t.fit = s.fit ∧ t.fitMode = s.fitMode ∧ t.fitValid = s.fitValid ∧
    t.warnOversize = s.warnOversize

theorem Effect.sameHostRegs {i : Instr} {s t : State} (he : Effect s i t) : SameHostRegs s t := by
  rw [he.keeps]
  exact ⟨rfl, rfl, rfl, rfl, rfl, rfl, rfl, rfl⟩

theorem Effect.src {i : Instr} {s t : State} (he : Effect s i t) : t.src = s.src := by
  rw [he.keeps]

theorem Effect.syn_changed {i : Instr} {s t : State} (he : Effect s i t) (h : t.syn ≠ s.syn) :
    i ≠ .nop ∧ i ≠ .bufClear ∧ ∀ m, i ≠ .fit m := by
  cases he with
  | nop | bufClear | fit => simp at h
  | emit | emitPhi | synthClear | vis | scan | endTones | run | clear => simp

theorem Effect.output_changed {i : Instr} {s t : State} (he : Effect s i t)
    (h : ¬ (t.buf = s.buf ∧ t.outValid = s.outValid)) : i ≠ .nop ∧ i ≠ .synthClear ∧ ∀ m, i ≠ .fit m := by
  cases he with
  | nop | synthClear | fit => simp at h
  | emit | emitPhi | bufClear | vis | scan | endTones | run | clear => simp

theorem Effect.outSr_changed {i : Instr} {s t : State} (he : Effect s i t) (h : t.outSr ≠ s.outSr) :
    i = .clear ∨ ∃ m, i = .run m := by
  cases he with
  | run | clear => simp
  | nop | emit | emitPhi | synthClear | bufClear | vis | fit | scan | endTones => simp at h

theorem Effect.fitted_changed {i : Instr} {s t : State} (he : Effect s i t)
    (h : ¬ (t.canvas = s.canvas ∧ t.fit = s.fit ∧ t.fitMode = s.fitMode ∧ t.fitValid = s.fitValid ∧
      t.warnOversize = s.warnOversize)) : i = .clear ∨ ∃ m, i = .fit m ∨ i = .run m := by
  cases he with
  | fit | run | clear => simp
  | nop | emit | emitPhi | synthClear | bufClear | vis | scan | endTones => simp at h

/-- The kinds of steps, by what they can change: the reset line, an access of the host that issues no command, a command
word that only records an error, a command that succeeds. -/
inductive StepKind (s t : State) : Prop where
  | reset (rest : List HostEvent) (hs : s.script = .reset :: rest) (ht : t = hardReset (takeEvent s rest))
  | access (same : SameOutputs s t) (err : t.err = s.err)
      (regs : SameHostRegs s t ∨
        ∃ rest a d, s.script = .write 4 a d :: rest ∧ 0x18 ≤ a.toNat ∧ a.toNat ≤ 0x44)
      (src : t.src = s.src ∨
        ∃ rest w a d, s.script = .write w a d :: rest ∧ 0x01000000 ≤ a.toNat ∧ a.toNat < 0x02000000)
  | failed (rest : List HostEvent) (d : Word) (hs : s.script = .write 4 0#32 d :: rest) (same : SameOutputs s t)
      (regs : SameHostRegs s t) (src : t.src = s.src)
  | command (rest : List HostEvent) (d : Word) (i : Instr) (hs : s.script = .write 4 0#32 d :: rest)
      (hd : decode d = some i) (he : Effect (takeEvent s rest) i t)

theorem sameHostRegs_refl (s : State) : SameHostRegs s s := ⟨rfl, rfl, rfl, rfl, rfl, rfl, rfl, rfl⟩

theorem sameOutputs_refl (s : State) : SameOutputs s s := ⟨rfl, ⟨rfl, rfl⟩, rfl, rfl, rfl, rfl, rfl, rfl⟩

/-- A step that changes the model's own fields only is an access. -/
theorem StepKind.ownFields (s : State) (script : List HostEvent) (rdata : Word) (draws : Nat) :
    StepKind s { s with script := script, rdata := rdata, draws := draws } :=
  .access { sameOutputs_refl s with } rfl (Or.inl (sameHostRegs_refl s)) (Or.inl rfl)

/-- A command word that records an error leaves the rest. -/
theorem StepKind.raised {s : State} {rest : List HostEvent} {d : Word} (hs : s.script = .write 4 0#32 d :: rest)
    (e : ErrRecord) : StepKind s (raiseErr (takeEvent s rest) e) :=
  .failed rest d hs { sameOutputs_refl s with } (sameHostRegs_refl s) rfl

theorem windowWidths_pos {win : Window} {w : Nat} (h : (windowWidths win).contains w = true) : 0 < w := by
  cases win <;> simp [windowWidths] at h <;> omega

/-- A write that steps stores at least one byte (R32). -/
theorem step_write_width_pos {s t : State} {w : Nat} {a d : Word} {rest : List HostEvent}
    (hs : s.script = .write w a d :: rest) (h : step s = .next t) : 0 < w := by
  rw [step_event hs] at h
  simp only [hostPort] at h
  rcases portAccess_cases w a.toNat (portWrite (takeEvent s rest) w a.toNat d)
    with ⟨_, -, hc, -⟩ | ⟨-, hp⟩ | ⟨_, -, -, -, hp⟩ | ⟨_, -, -, hp⟩
  · exact windowWidths_pos hc
  all_goals rw [hp] at h; cases h

/-- Every step is of one of the kinds. -/
theorem step_kind {s t : State} (h : step s = .next t) : StepKind s t := by
  have hwidth : ∀ {w : Nat} {d : Word} {rest : List HostEvent}, s.script = .write w 0#32 d :: rest → w = 4 :=
    fun hs => step_register_width hs h (by decide)
  rcases step_next_cases h with ⟨-, rfl⟩ | ⟨rest, hs, rfl⟩ | ⟨rest, w, a, v, hs, rfl⟩ |
    ⟨rest, w, a, d, hs, rfl, -⟩ | ⟨rest, w, a, d, hs, rfl, hlow, hhigh⟩ | ⟨rest, w, a, d, hs, rfl⟩ |
    ⟨rest, w, d, hs, -, rfl⟩ | ⟨rest, w, d, i, hs, hd, hx⟩
  · exact .ownFields t t.script t.rdata t.draws
  · exact .reset rest hs rfl
  · exact .ownFields s rest v (s.draws + 1)
  · by_cases ha : 0x18 ≤ a.toNat ∧ a.toNat ≤ 0x44
    · obtain rfl := step_register_width hs h (by omega)
      exact .access (by constructor <;> simp) (by simp) (Or.inr ⟨rest, a, d, hs, ha⟩) (by simp)
    · rw [writeRegAt_ignored _ d ha]
      exact .ownFields s rest s.rdata (s.draws + 1)
  · have hpos := step_write_width_pos hs h
    exact .access { sameOutputs_refl s with } rfl (Or.inl (sameHostRegs_refl s))
      (Or.inr ⟨rest, w, a, d, hs, hlow, by unfold srcBase srcSize at hhigh; omega⟩)
  · exact .ownFields s rest s.rdata (s.draws + 1)
  · obtain rfl := hwidth hs
    exact .raised hs _
  · obtain rfl := hwidth hs
    rcases exec_next hx with ⟨e, -, rfl⟩ | he
    · exact .raised hs e
    · exact .command rest d i hs hd he

/-- Settles O41: outside commands and the reset line the buffer stays, and `Effect.buf_cases` says what a command does. -/
theorem bufferIsAppendOnly : Obligations.BufferIsAppendOnly := by
  intro s t h
  cases step_kind h with
  | reset rest hs ht => exact Or.inr (Or.inl ⟨by rw [ht]; rfl, rest, Or.inl hs⟩)
  | access same | failed _ _ _ same => exact Or.inl ⟨[], by rw [same.output.1, List.append_nil]⟩
  | command rest d i hs hd he =>
    rcases he.buf_cases with happ | ⟨hnil, hi⟩ | ⟨m, rfl⟩
    · exact Or.inl happ
    · exact Or.inr (Or.inl ⟨hnil, rest, Or.inr ⟨4, d, i, hs, hd, hi⟩⟩)
    · exact Or.inr (Or.inr ⟨rest, 4, d, m, hs, hd⟩)

/-- Settles O42, by the kind of the step. -/
theorem onlyNamedEventsChangeState : Obligations.OnlyNamedEventsChangeState := by
  intro s t h
  cases step_kind h with
  | reset rest hs => exact Or.inl ⟨rest, hs⟩
  | access same err regs src =>
    exact Or.inr ⟨absurd same.syn, absurd same.output, absurd same.outSr, absurd same.fitted, regs.resolve_left,
      src.resolve_left, absurd err⟩
  | failed rest d hs same regs src =>
    exact Or.inr ⟨absurd same.syn, absurd same.output, absurd same.outSr, absurd same.fitted, absurd regs,
      absurd src, fun _ => ⟨rest, d, hs⟩⟩
  | command rest d i hs hd he =>
    exact Or.inr ⟨fun hne => ⟨rest, d, i, hs, hd, he.syn_changed hne⟩,
      fun hne => ⟨rest, d, i, hs, hd, he.output_changed hne⟩,
      fun hne => ⟨rest, d, i, hs, hd, he.outSr_changed hne⟩,
      fun hne => ⟨rest, d, i, hs, hd, he.fitted_changed hne⟩,
      absurd he.sameHostRegs, absurd he.src, fun _ => ⟨rest, d, hs⟩⟩

end Sys2Proof.Machine

/-! SUPPORT. Lemmas of the memory family (spec/20_memory.md): the host port against the table of R32, and what a legal
host access does. -/

namespace Sys2Proof.Machine

/-! ### The access table and the port's windows (R27, R32) -/

/-- The row of R27 and R32 for a window. -/
def windowRow : Window → WindowRow
  | .registers => { base := 0x00000000, size := 0x1000, widths := windowWidths .registers }
  | .source => { base := srcBase, size := srcSize, widths := windowWidths .source }
  | .canvas => { base := canvasBase, size := canvasSize, widths := windowWidths .canvas }
  | .samples => { base := sampleBase, size := sampleSize, widths := windowWidths .samples }

/-- Every window stands once in the list of windows, and the table has a row for each. -/
theorem windowRows_eq : windowRows = [Window.registers, .source, .canvas, .samples].map windowRow := rfl

theorem windowRow_widths (win : Window) : (windowRow win).widths = windowWidths win := by cases win <;> rfl

/-- The row of a window holds an address exactly when the port finds that window there. -/
theorem windowRow_holds_iff {win : Window} {a : Nat} : (windowRow win).holds a = true ↔ windowOf a = some win := by
  rw [WindowRow.holds, decide_eq_true_eq]
  unfold windowOf regSize srcBase srcSize canvasBase canvasSize sampleBase sampleSize
  cases win <;> simp only [windowRow, srcBase, srcSize, canvasBase, canvasSize, sampleBase, sampleSize] <;>
    split_ifs <;> simp <;> omega

/-- Some row of the table has a property exactly when the row of some window has it. -/
theorem windowRows_any_iff {p : WindowRow → Bool} :
    windowRows.any p = true ↔ ∃ win, p (windowRow win) = true := by
  rw [windowRows_eq, List.any_map, List.any_eq_true]
  refine ⟨fun ⟨win, _, h⟩ => ⟨win, h⟩, fun ⟨win, h⟩ => ⟨win, ?_, h⟩⟩
  cases win <;> simp

theorem wfMapped_iff {a : Word} : wfMapped a = true ↔ ∃ win, windowOf a.toNat = some win := by
  simp only [wfMapped, windowRows_any_iff, windowRow_holds_iff]

theorem wfWidth_iff {w : Nat} {a : Word} :
    wfWidth w a = true ↔ ∃ win, windowOf a.toNat = some win ∧ (windowWidths win).contains w = true := by
  simp only [wfWidth, windowRows_any_iff, Bool.and_eq_true, windowRow_holds_iff, windowRow_widths]

theorem wfAligned_iff {w : Nat} {a : Word} : wfAligned w a = true ↔ a.toNat % w = 0 := beq_iff_eq

theorem portAccess_unmapped {w : Nat} {a : Word} (act : Window → PortResult) (h : wfMapped a = false) :
    portAccess w a.toNat act = .stopFault .unmappedAddress := by
  have hnone : windowOf a.toNat = none := by
    cases hw : windowOf a.toNat with
    | none => rfl
    | some win => rw [wfMapped_iff.2 ⟨win, hw⟩] at h; cases h
  rw [portAccess, hnone]

theorem portAccess_width {w : Nat} {a : Word} (act : Window → PortResult) (hm : wfMapped a = true)
    (h : wfWidth w a = false) : portAccess w a.toNat act = .stopRefused .widthNotTaken := by
  obtain ⟨win, hw⟩ := wfMapped_iff.1 hm
  have hc : ¬ (windowWidths win).contains w = true := fun hc => by
    rw [wfWidth_iff.2 ⟨win, hw, hc⟩] at h
    cases h
  simp only [portAccess, hw, if_neg hc]

/-- The port performs an access whose window takes its width, if it is aligned. -/
theorem portAccess_aligned {w : Nat} {a : Word} (act : Window → PortResult) (h : wfWidth w a = true) :
    ∃ win, windowOf a.toNat = some win ∧ (windowWidths win).contains w = true ∧
      portAccess w a.toNat act = if wfAligned w a = true then act win else .stopRefused .misalignedAccess := by
  obtain ⟨win, hw, hc⟩ := wfWidth_iff.1 h
  refine ⟨win, hw, hc, ?_⟩
  simp only [portAccess, hw, if_pos hc, wfAligned_iff]

/-! ### What a host access does (R32 to R35) -/

/-- A host read of the table returns what its window shows under the new event number. -/
theorem step_read {s : State} {w : Nat} {a : Word} {rest : List HostEvent} (hs : s.script = .read w a :: rest)
    (hwf : (HostEvent.read w a).wf = true) :
    ∃ win, windowOf a.toNat = some win ∧ (windowWidths win).contains w = true ∧
      step s = .next (returnRead (takeEvent s rest) (readValue (takeEvent s rest) w a.toNat win)) := by
  simp only [HostEvent.wf, Bool.and_eq_true] at hwf
  obtain ⟨⟨-, hwidth⟩, hal⟩ := hwf
  obtain ⟨win, hw, hc, hp⟩ := portAccess_aligned
    (fun win => .done (returnRead (takeEvent s rest) (readValue (takeEvent s rest) w a.toNat win))) hwidth
  refine ⟨win, hw, hc, ?_⟩
  simp only [step_event hs, hostPort, hp, if_pos hal]

/-- A host write of the table does what its window does with it: what `portWrite` answers. -/
theorem step_write {s : State} {w : Nat} {a d : Word} {rest : List HostEvent} (hs : s.script = .write w a d :: rest)
    (hwf : (HostEvent.write w a d).wf = true) :
    ∃ win, windowOf a.toNat = some win ∧
      ((∃ t, portWrite (takeEvent s rest) w a.toNat d win = .done t ∧ step s = .next t) ∨
        (win = .registers ∧ step s = issue d (takeEvent s rest))) := by
  simp only [HostEvent.wf, Bool.and_eq_true] at hwf
  obtain ⟨⟨-, hwidth⟩, hal⟩ := hwf
  obtain ⟨win, hw, -, hp⟩ := portAccess_aligned (portWrite (takeEvent s rest) w a.toNat d) hwidth
  refine ⟨win, hw, ?_⟩
  rw [if_pos hal] at hp
  rw [step_event hs]
  simp only [hostPort, hp]
  cases win with
  | registers =>
    by_cases h0 : a.toNat = 0
    · exact Or.inr ⟨rfl, by simp only [portWrite, if_pos h0]⟩
    · exact Or.inl ⟨_, if_neg h0, by simp only [portWrite, if_neg h0]⟩
  | source | canvas | samples => exact Or.inl ⟨_, rfl, rfl⟩

/-- Issuing a word always answers a next state (R112, R119). -/
theorem issue_next (w : Word) (s : State) : ∃ t, issue w s = .next t := by
  rcases issue_cases w s with ⟨-, h⟩ | ⟨i, -, h⟩
  · exact ⟨_, h⟩
  · rw [h]
    exact (exec_cases i s).imp fun _ ht => ht.1

/-- An access of the table is performed. -/
theorem step_next_of_wf {s : State} {e : HostEvent} {rest : List HostEvent} (hs : s.script = e :: rest)
    (hwf : e.wf = true) : ∃ t, step s = .next t := by
  cases e with
  | reset => exact ⟨_, by rw [step_event hs]; rfl⟩
  | read w a =>
    obtain ⟨_, -, -, h⟩ := step_read hs hwf
    exact ⟨_, h⟩
  | write w a d =>
    obtain ⟨_, -, ⟨t, -, h⟩ | ⟨-, h⟩⟩ := step_write hs hwf
    · exact ⟨t, h⟩
    · rw [h]
      exact issue_next d _

/-- What the port makes of an access of width `w` at `a` is decided by `portAccess`, for reads and for writes. -/
theorem hostPort_access {e : HostEvent} {w : Nat} {a : Word} (s : State)
    (he : e = .read w a ∨ ∃ d, e = .write w a d) : ∃ act, hostPort s e = portAccess w a.toNat act := by
  rcases he with rfl | ⟨d, rfl⟩
  · exact ⟨_, rfl⟩
  · exact ⟨_, rfl⟩

section Stops

variable {s : State} {e : HostEvent} {rest : List HostEvent} {w : Nat} {a : Word}

theorem step_unmapped (hs : s.script = e :: rest) (he : e = .read w a ∨ ∃ d, e = .write w a d)
    (hm : wfMapped a = false) : step s = .fault .unmappedAddress := by
  obtain ⟨act, hp⟩ := hostPort_access (takeEvent s rest) he
  simp only [step_event hs, hp, portAccess_unmapped act hm]

theorem step_width_refused (hs : s.script = e :: rest) (he : e = .read w a ∨ ∃ d, e = .write w a d)
    (hm : wfMapped a = true) (hw : wfWidth w a = false) : step s = .refused .widthNotTaken := by
  obtain ⟨act, hp⟩ := hostPort_access (takeEvent s rest) he
  simp only [step_event hs, hp, portAccess_width act hm hw]

theorem step_misaligned_refused (hs : s.script = e :: rest) (he : e = .read w a ∨ ∃ d, e = .write w a d)
    (hw : wfWidth w a = true) (hal : wfAligned w a = false) : step s = .refused .misalignedAccess := by
  obtain ⟨act, hp⟩ := hostPort_access (takeEvent s rest) he
  obtain ⟨_, -, -, hact⟩ := portAccess_aligned act hw
  simp only [step_event hs, hp, hact, hal, Bool.false_eq_true, if_false]

/-- An access that steps is in the table: outside it each of the three checks stops the step. -/
theorem wf_of_step_next {t : State} (hs : s.script = e :: rest) (he : e = .read w a ∨ ∃ d, e = .write w a d)
    (h : step s = .next t) : (wfMapped a && wfWidth w a && wfAligned w a) = true := by
  cases hm : wfMapped a with
  | false => rw [step_unmapped hs he hm] at h; cases h
  | true =>
    cases hw : wfWidth w a with
    | false => rw [step_width_refused hs he hm hw] at h; cases h
    | true =>
      cases hal : wfAligned w a with
      | false => rw [step_misaligned_refused hs he hw hal] at h; cases h
      | true => rfl

end Stops

theorem event_wf_of_step_next {s t : State} {e : HostEvent} {rest : List HostEvent} (hs : s.script = e :: rest)
    (h : step s = .next t) : e.wf = true := by
  cases e with
  | reset => rfl
  | read w a => exact wf_of_step_next hs (Or.inl rfl) h
  | write w a d => exact wf_of_step_next hs (Or.inr ⟨d, rfl⟩) h

/-- Settles O7: the table's rows are the port's windows, and each failing check is one of the three stops. -/
theorem stepStopsExactlyOutsideTable : Obligations.StepStopsExactlyOutsideTable := by
  intro s e rest hs
  exact ⟨⟨fun ⟨_, h⟩ => event_wf_of_step_next hs h, step_next_of_wf hs⟩,
    fun _ _ he hm => step_unmapped hs he hm,
    fun _ _ he hm hw => step_width_refused hs he hm hw,
    fun _ _ he _ hw hal => step_misaligned_refused hs he hw hal⟩

/-! ### CMD writes (R37, R49) -/

/-- A write of a word to CMD issues it. -/
theorem step_command {s : State} {d : Word} {rest : List HostEvent} (hs : s.script = .write 4 0#32 d :: rest) :
    step s = issue d (takeEvent s rest) := by
  have hport : hostPort (takeEvent s rest) (.write 4 0#32 d) = .command d := rfl
  simp only [step_event hs, hport]

theorem step_decoded {s : State} {d : Word} {rest : List HostEvent} {i : Instr}
    (hs : s.script = .write 4 0#32 d :: rest) (hd : decode d = some i) : step s = exec i (takeEvent s rest) := by
  rw [step_command hs, issue, hd]

theorem withFetchWord_script (s : State) (d : Word) :
    (s.withFetchWord 32 d.toNat).script = .write 4 0#32 d :: s.script := by
  rw [State.withFetchWord, Nat.mod_eq_of_lt d.isLt, BitVec.ofNat_toNat, BitVec.setWidth_eq]

/-- Settles O6: a CMD write is issued, and `withFetchWord` puts one first. -/
theorem stepRunsDecodedCommand : Obligations.StepRunsDecodedCommand :=
  ⟨fun _ _ _ _ hs hd => step_decoded hs hd,
    fun s d _ hd => step_decoded (withFetchWord_script s d) hd,
    fun _ hs => step_idle hs⟩

end Sys2Proof.Machine

/-! SUPPORT. Lemmas of the memory family (spec/20_memory.md): bytes and what a host read composes from them, and what a
host write leaves unchanged. -/

namespace Sys2Proof.Machine

/-! ### Little-endian composition (R30, R31) -/

/-- A byte put below a number. -/
theorem toNat_append_byte {n : Nat} (x : BitVec n) (b : Byte) : (x ++ b).toNat = b.toNat + 256 * x.toNat := by
  rw [BitVec.toNat_append, ← Nat.shiftLeft_add_eq_or_of_lt b.isLt, Nat.shiftLeft_eq]
  omega

theorem sampleByte_eq_extract (v : Sample) (j : Nat) : sampleByte v j = v.extractLsb' (8 * j) 8 := by
  apply BitVec.eq_of_toNat_eq
  rw [sampleByte, BitVec.extractLsb'_toNat, BitVec.toNat_ofNat, Nat.shiftRight_eq_div_pow]

section MemRead

variable (s : State) (a : Nat)

theorem memRead_one : memRead s a 1 = 0#24 ++ memByte s a := by
  apply BitVec.eq_of_toNat_eq
  simp [toNat_append_byte, memRead, leValue]
  omega

theorem memRead_two : memRead s a 2 = 0#16 ++ memByte s (a + 1) ++ memByte s a := by
  apply BitVec.eq_of_toNat_eq
  simp [toNat_append_byte, memRead, leValue, List.range_succ]
  omega

theorem memRead_four : memRead s a 4 =
    memByte s (a + 3) ++ memByte s (a + 2) ++ memByte s (a + 1) ++ memByte s a := by
  apply BitVec.eq_of_toNat_eq
  simp [toNat_append_byte, memRead, leValue, List.range_succ]
  omega

end MemRead

/-- A host access at or above the source window is not one of the register window. -/
theorem windowOf_ne_registers {a : Nat} (h : srcBase ≤ a) : windowOf a ≠ some .registers := by
  intro hw
  have hr : 0 ≤ a ∧ a < 0 + 0x1000 := of_decide_eq_true (windowRow_holds_iff.2 hw)
  unfold srcBase at h
  omega

/-- A host read of a memory window returns the bytes there, as the event sees them. -/
theorem step_memory_read {s : State} {w : Nat} {a : Word} {rest : List HostEvent} (hs : s.script = .read w a :: rest)
    (hwf : (HostEvent.read w a).wf = true) (ha : srcBase ≤ a.toNat) :
    step s = .next (returnRead (takeEvent s rest) (memRead (takeEvent s rest) a.toNat w)) := by
  obtain ⟨win, hw, -, h⟩ := step_read hs hwf
  cases win with
  | registers => exact absurd hw (windowOf_ne_registers ha)
  | source | canvas | samples => exact h

/-- The bytes an event sees do not depend on the events still to come. -/
theorem memByte_takeEvent (s : State) (rest : List HostEvent) (b : Nat) :
    memByte (takeEvent s rest) b = memByte { s with draws := s.draws + 1 } b := (rfl)

/-- Settles O12: a legal read of a memory window is `memRead`, whose bytes stand lowest address first. -/
theorem readsAreLittleEndian : Obligations.ReadsAreLittleEndian := by
  intro s rest a ha
  refine ⟨fun hwf hs => ⟨_, step_memory_read hs hwf ha, ?_⟩, fun hwf hs => ⟨_, step_memory_read hs hwf ha, ?_⟩,
    fun hwf hs => ⟨_, step_memory_read hs hwf ha, ?_⟩⟩
  · rw [returnRead_rdata, memRead_one, memByte_takeEvent]
  · rw [returnRead_rdata, memRead_two, memByte_takeEvent, memByte_takeEvent]
  · rw [returnRead_rdata, memRead_four, memByte_takeEvent, memByte_takeEvent, memByte_takeEvent, memByte_takeEvent]

/-! ### The sample window (R30) -/

theorem memByte_sample (s : State) {a : Nat} (h1 : sampleBase ≤ a) (h2 : a < sampleBase + sampleSize) :
    memByte s a = sampleHostByte s a := by
  unfold memByte srcBase srcSize canvasBase canvasSize
  unfold sampleBase at h1
  rw [if_neg (by omega), if_neg (by omega), if_pos ⟨h1, h2⟩]

/-- Byte `j` of sample `k` as the host reads it. -/
theorem memByte_sample_byte {s : State} {k j : Nat} {v : Sample} (hk : k < Config.bufCap) (hv : s.buf[k]? = some v)
    (hj : j < 2) : memByte s (sampleBase + (2 * k + j)) = v.extractLsb' (8 * j) 8 := by
  have hidx : (sampleBase + (2 * k + j) - sampleBase) / 2 = k := by omega
  have hmod : (sampleBase + (2 * k + j) - sampleBase) % 2 = j := by omega
  rw [memByte_sample s (by omega) (by unfold sampleSize; unfold Config.bufCap at hk; omega), sampleHostByte, hidx, hmod,
    hv]
  exact sampleByte_eq_extract v j

theorem windowOf_samples {a : Nat} :
    windowOf a = some .samples ↔ sampleBase ≤ a ∧ a < sampleBase + sampleSize :=
  windowRow_holds_iff.symm.trans decide_eq_true_iff

/-- A 16-bit read at the address of a sample is in the table and returns the two bytes there. -/
theorem step_sample_read {s : State} {k : Nat} {rest : List HostEvent} (hk : k < Config.bufCap)
    (hs : s.script = .read 2 (BitVec.ofNat 32 (sampleBase + 2 * k)) :: rest) :
    step s = .next (returnRead (takeEvent s rest) (memRead (takeEvent s rest) (sampleBase + 2 * k) 2)) := by
  have hlt : 2 * k < sampleSize := by unfold Config.bufCap at hk; unfold sampleSize; omega
  have ha : (BitVec.ofNat 32 (sampleBase + 2 * k)).toNat = sampleBase + 2 * k := by
    unfold sampleSize at hlt
    rw [BitVec.toNat_ofNat, Nat.mod_eq_of_lt (by unfold sampleBase; omega)]
  have hw : windowOf (BitVec.ofNat 32 (sampleBase + 2 * k)).toNat = some .samples := by
    rw [ha]
    exact windowOf_samples.2 ⟨Nat.le_add_right _ _, Nat.add_lt_add_left hlt _⟩
  have hal : wfAligned 2 (BitVec.ofNat 32 (sampleBase + 2 * k)) = true := by
    rw [wfAligned_iff, ha]
    unfold sampleBase
    omega
  have hwf : (HostEvent.read 2 (BitVec.ofNat 32 (sampleBase + 2 * k))).wf = true := by
    simp only [HostEvent.wf, Bool.and_eq_true]
    exact ⟨⟨wfMapped_iff.2 ⟨_, hw⟩, wfWidth_iff.2 ⟨_, hw, rfl⟩⟩, hal⟩
  have hstep := step_memory_read hs hwf (by rw [ha]; unfold srcBase sampleBase; omega)
  rwa [ha] at hstep

/-- The two bytes of a sample, read as one number, are the sample. -/
theorem memRead_sample {s : State} {k : Nat} {v : Sample} (hk : k < Config.bufCap) (hv : s.buf[k]? = some v) :
    memRead s (sampleBase + 2 * k) 2 = v.setWidth 32 := by
  have hlow : memByte s (sampleBase + 2 * k) = v.extractLsb' 0 8 := memByte_sample_byte (j := 0) hk hv (by omega)
  have hhigh : memByte s (sampleBase + 2 * k + 1) = v.extractLsb' 8 8 := memByte_sample_byte (j := 1) hk hv (by omega)
  apply BitVec.eq_of_toNat_eq
  rw [memRead_two, hlow, hhigh, toNat_append_byte, toNat_append_byte, BitVec.extractLsb'_toNat,
    BitVec.extractLsb'_toNat, Nat.shiftRight_eq_div_pow, Nat.shiftRight_eq_div_pow, BitVec.toNat_setWidth]
  have := v.isLt
  simp only [BitVec.toNat_ofNat]
  omega

/-- Settles O13: the two bytes are the halves of the sample, and a 16-bit read composes them again. -/
theorem sampleWindowLayout : Obligations.SampleWindowLayout := by
  intro s k v hk hv
  refine ⟨memByte_sample_byte (j := 0) hk hv (by omega), memByte_sample_byte (j := 1) hk hv (by omega),
    fun rest hs => ⟨_, step_sample_read hk hs, ?_⟩⟩
  rw [returnRead_rdata]
  exact memRead_sample hk hv

/-! ### What host accesses leave unchanged (R34, R35) -/

/-- A byte of the source window is the one listed, or the event's draw. -/
theorem memByte_source_lookup {s : State} {b : Nat} (h1 : srcBase ≤ b) (h2 : b < srcBase + srcSize) :
    memByte s b = (memLookup s.src b).getD (Config.draw s.draws b) := memByte_source s h1 h2

/-- After a source write a byte written reads as stored, every other byte as before. -/
theorem memByte_storeSource (s : State) {a n : Nat} (d : Word) (hlow : srcBase ≤ a) (hhigh : a + n ≤ srcBase + srcSize)
    (b : Nat) : memByte (storeSource s a n d) b =
      if a ≤ b ∧ b < a + n then d.extractLsb' (8 * (b - a)) 8 else memByte s b := by
  by_cases hb : srcBase ≤ b ∧ b < srcBase + srcSize
  · rw [memByte_source_lookup hb.1 hb.2, memByte_source_lookup hb.1 hb.2, memLookup_storeSource, storeSource_draws]
    split_ifs
    · exact byteOf_eq_extract d _
    · rfl
  · rw [if_neg (by omega)]
    exact memByte_of_src s _ hb

theorem step_read_next {s t : State} {w : Nat} {a : Word} {rest : List HostEvent} (hs : s.script = .read w a :: rest)
    (h : step s = .next t) : ∃ v, t = returnRead (takeEvent s rest) v := by
  obtain ⟨_, -, -, hstep⟩ := step_read hs (event_wf_of_step_next hs h)
  rw [hstep] at h
  cases h
  exact ⟨_, rfl⟩

/-- The canvas and sample windows ignore a legal write (R35, R44). -/
theorem step_ignored_write {s : State} {w : Nat} {a d : Word} {rest : List HostEvent}
    (hs : s.script = .write w a d :: rest) (hwf : (HostEvent.write w a d).wf = true) (ha : canvasBase ≤ a.toNat) :
    step s = .next (takeEvent s rest) := by
  have hbase : srcBase + srcSize ≤ a.toNat := ha
  obtain ⟨win, hw, hstep⟩ := step_write hs hwf
  cases win with
  | registers => exact absurd hw (windowOf_ne_registers (by omega))
  | source => have := (windowOf_source.1 hw).2; omega
  | canvas | samples =>
    obtain ⟨t, hdone, h⟩ | ⟨hreg, -⟩ := hstep
    · cases hdone
      exact h
    · cases hreg

/-- Settles O9, clause by clause: reads, ignored writes, source writes, and what a source byte reads as. -/
theorem hostAccessSideEffects : Obligations.HostAccessSideEffects := by
  intro s rest
  refine ⟨fun w a t hs h => step_read_next hs h, fun a d hs hlt hal h0 hro => ?_,
    fun w a d hs hwf ha => step_ignored_write hs hwf ha, fun w a d hs hwf hlow hhigh => ?_, fun b hlow hhigh => ?_⟩
  · rw [step_register_write hs hlt hal h0, writeRegAt_ignored _ d hro]
    rfl
  · obtain ⟨hstep, hin⟩ := step_source_write hs hwf hlow hhigh
    exact ⟨_, _, hstep, rfl, memLookup_storeSource _ _ _ d, memByte_storeSource (takeEvent s rest) d hlow hin⟩
  · rw [memByte_source_lookup hlow hhigh]
    exact ⟨fun v hv => by rw [hv]; rfl, fun hnone => by rw [hnone]; rfl⟩

end Sys2Proof.Machine

/-! SUPPORT. Lemmas of the memory family (spec/20_memory.md): the canvas window after a FIT, and the buffer a RUN
leaves. -/

namespace Sys2Proof.Machine

/-! ### The canvas window (R29, R34, R95) -/

/-- Beyond a canvas the window reads as draws. -/
theorem memByte_beyond_canvas {s : State} {a : Nat} (h1 : canvasBase + canvasBytes s.fitMode ≤ a)
    (h2 : a < canvasBase + canvasSize) : memByte s a = Config.draw s.draws a := by
  have hsrc : ¬ (srcBase ≤ a ∧ a < srcBase + srcSize) := by
    unfold canvasBase at h1
    unfold srcBase srcSize
    omega
  have hbeyond : ¬ (s.fitValid = true ∧ a < canvasBase + canvasBytes s.fitMode) := fun h => by omega
  rw [memByte, if_neg hsrc, if_pos ⟨by omega, h2⟩, canvasHostByte, if_neg hbeyond]

/-- A fit shows in no byte outside the canvas window. -/
theorem memByte_applyFit (s : State) (m : Mode) {a : Nat} (h : ¬ (canvasBase ≤ a ∧ a < canvasBase + canvasSize)) :
    memByte (applyFit s m) a = memByte s a := by
  have hsrc : srcByte (applyFit s m) a = srcByte s a := (rfl)
  have hsample : sampleHostByte (applyFit s m) a = sampleHostByte s a := (rfl)
  rw [memByte, memByte, if_neg h, if_neg h, hsrc, hsample, applyFit_draws]

theorem memByte_raiseErr (s : State) (e : ErrRecord) (a : Nat) : memByte (raiseErr s e) a = memByte s a := (rfl)

/-- FIT records an error or makes the canvas of a mode. -/
theorem exec_fit_next {m : Nat} {s t : State} (h : exec (.fit m) s = .next t) :
    (∃ e, raisable e ∧ t = raiseErr s e) ∨ ∃ md, t = applyFit s md := by
  rcases exec_next h with herr | heff
  · exact Or.inl herr
  · cases heff with
    | fit _ md => exact Or.inr ⟨md, rfl⟩

/-- Settles O38: an error leaves all memory, a fit every byte outside the canvas window. -/
theorem fitFrame : Obligations.FitFrame := by
  intro m s t h
  rcases exec_fit_next h with ⟨e, he, rfl⟩ | ⟨md, rfl⟩
  · exact ⟨(rfl), fun a _ => memByte_raiseErr s e a, fun h0 => absurd h0 he.1⟩
  · exact ⟨(rfl), fun a ha => memByte_applyFit s md ha, fun _ a hlow hhigh => memByte_beyond_canvas hlow hhigh⟩

/-! ### The tones of a run (R79, R85, R105, R107) -/

/-- A literal number of milliseconds or Hz is that number. -/
theorem f64Lit_one (n : Nat) : f64Lit n 1 = f64OfNat n := by
  unfold f64Lit f64OfNat
  rfl

/-- A tone of whole milliseconds is the one the statements write. -/
theorem toneLit_one (hz ms : Nat) : toneLit hz ms 1 = plainTone hz ms := by
  rw [toneLit, f64Lit_one, plainTone]

/-- The VIS header is the table written out from R79 to R85 (its strings are log 5). -/
theorem visTones_eq (m : Mode) : visTones m = tonesOf (visTable m) := by
  cases m <;>
    simp [visTones, visPreamble, visBitTone, visOnes, visTable, tonesOf, toneLit_one, Config.visString, Config.preamble]

theorem endTones_eq : endTones = tonesOf endTable := by
  simp only [endTones, toneLit_one, tonesOf, endTable, List.map_cons, List.map_nil]

theorem runTones_eq (s : State) (m : Mode) : runTones s m =
    [plainTone 0 200] ++ tonesOf (visTable m) ++ scanTones s m ++ tonesOf endTable ++ [plainTone 0 200] := by
  rw [runTones, runSilence, toneLit_one, visTones_eq, endTones_eq]

/-! ### FIT and RUN on a legal setting (R107, R108, R115) -/

/-- FIT of a source that passes its check makes the canvas. -/
theorem exec_fit_of_sourceOk {s : State} (md : Mode) (h : sourceOk s) :
    exec (.fit (Config.modeNumber md)) s = .next (applyFit s md) := by
  have hmode : modeOf (Config.modeNumber md) = some md := modeOf_eq_some_iff.2 rfl
  rw [exec, execFit, withMode, hmode]
  simp only [checked, firstErr, checkSource_none_iff.2 h]

/-- RUN on a legal setting fits the canvas and emits the run's tones from a fresh synthesizer; it never overflows the
buffer. -/
theorem exec_run_of_ready {s : State} (md : Mode) (hready : readyToEmit s) (h : sourceOk s) :
    exec (.run (Config.modeNumber md)) s
      = .next (finishRun (applyFit s md) (emitTones (rateF s) Syn.fresh (runTones (applyFit s md) md))) := by
  obtain ⟨hlow, hhigh, hdepth⟩ := hready
  have hrate : rateLegal s.sampleRate := ⟨hlow, hhigh⟩
  have hmode : modeOf (Config.modeNumber md) = some md := modeOf_eq_some_iff.2 rfl
  rw [exec, execRun, withMode, hmode]
  simp only [checked, firstErr, checkRate_none_iff.2 hrate, checkDepth_none_iff.2 hdepth, checkSource_none_iff.2 h,
    runSequence_legal md hrate]

/-- The samples of a run at a legal rate fit the buffer. -/
theorem run_samples_le {s : State} (md : Mode) (h : s.sampleRate.toNat ≤ 192000) (u : State) :
    (emitTones (rateF s) Syn.fresh (runTones u md)).2.length ≤ Config.bufCap := by
  rw [emitTones_length]
  exact (runTones_within u md _ h _ carryOk_fresh).2

/-- Settles O32: FIT and RUN make the same canvas, and the run's tones are those of the tables. -/
theorem runReplacesBuffer : Obligations.RunReplacesBuffer := by
  intro s md hready hsource
  refine ⟨_, _, exec_fit_of_sourceOk md hsource, exec_run_of_ready md hready hsource, ?_, ?_, ?_,
    run_samples_le md hready.2.1 _⟩
  · have hrate : rateF s = f64OfNat s.sampleRate.toNat := (rfl)
    have hfresh : Syn.fresh = ⟨0#64, 0x3FF0000000000000#64, 0#64⟩ := (rfl)
    rw [← runTones_eq, hrate, hfresh]
    apply State.ext_fields <;> simp
  · rw [applyFit_err]; rfl
  · rw [finishRun_fitValid, applyFit_fitValid]

end Sys2Proof.Machine

/-! SUPPORT. Lemmas of the memory family (spec/20_memory.md): where each tone of a scan stands
(spec/44_scan_engines.md), and the canvas bytes it is made from. -/

namespace Sys2Proof.Machine

/-! ### Segments of a tone list -/

/-- The tones of `seg` stand in `ts` from index `off` on. -/
def TonesAt (ts : List Tone) (off : Nat) (seg : List Tone) : Prop :=
  ∀ k, k < seg.length → ts[off + k]? = seg[k]?

theorem tonesAt_nil (ts : List Tone) (off : Nat) : TonesAt ts off [] :=
  fun k hk => absurd hk (Nat.not_lt_zero k)

/-- A segment in two parts stands where its parts stand one after the other. -/
theorem tonesAt_append {ts : List Tone} {off : Nat} {as bs : List Tone} :
    TonesAt ts off (as ++ bs) ↔ TonesAt ts off as ∧ TonesAt ts (off + as.length) bs := by
  constructor
  · intro h
    refine ⟨fun k hk => ?_, fun k hk => ?_⟩
    · rw [h k (by rw [List.length_append]; omega), List.getElem?_append_left hk]
    · rw [Nat.add_assoc, h _ (by rw [List.length_append]; omega), List.getElem?_append_right (by omega),
        Nat.add_sub_cancel_left]
  · rintro ⟨has, hbs⟩ k hk
    rw [List.length_append] at hk
    rcases Nat.lt_or_ge k as.length with hlt | hge
    · rw [has k hlt, List.getElem?_append_left hlt]
    · obtain ⟨j, rfl⟩ := Nat.exists_eq_add_of_le hge
      rw [← Nat.add_assoc, hbs j (by omega), List.getElem?_append_right hge, Nat.add_sub_cancel_left]

theorem tonesAt_singleton {ts : List Tone} {off : Nat} {t : Tone} : TonesAt ts off [t] ↔ ts[off]? = some t := by
  constructor
  · exact fun h => h 0 Nat.one_pos
  · intro h k hk
    obtain rfl : k = 0 := Nat.lt_one_iff.1 hk
    exact h

theorem tonesAt_cons {ts : List Tone} {off : Nat} {t : Tone} {seg : List Tone} :
    TonesAt ts off (t :: seg) ↔ ts[off]? = some t ∧ TonesAt ts (off + 1) seg := by
  rw [← List.singleton_append, tonesAt_append, tonesAt_singleton]
  rfl

/-- A row of pixel tones (R97). -/
theorem tonesAt_pixelTones {ts : List Tone} {off w r : Nat} {v : Nat → Nat → Binary64} {dn dd : Nat} :
    TonesAt ts off (pixelTones w r v dn dd) ↔ ∀ x, x < w → ts[off + x]? = some (pixelTone (v x r) dn dd) := by
  unfold TonesAt pixelTones
  rw [List.length_map, List.length_range]
  refine forall₂_congr fun x hx => ?_
  rw [List.getElem?_map, List.getElem?_range hx]
  rfl

@[simp] theorem pixelTones_length (w r : Nat) (v : Nat → Nat → Binary64) (dn dd : Nat) :
    (pixelTones w r v dn dd).length = w := by
  rw [pixelTones, List.length_map, List.length_range]

theorem TonesAt.append_left {ts seg : List Tone} {off : Nat} (h : TonesAt ts off seg) (more : List Tone) :
    TonesAt (ts ++ more) off seg := by
  intro k hk
  have hin : off + k < ts.length := by
    by_contra hout
    have hnone := h k hk
    rw [List.getElem?_eq_none (by omega), List.getElem?_eq_getElem hk] at hnone
    cases hnone
  rw [List.getElem?_append_left hin, h k hk]

theorem TonesAt.append_right {ts seg : List Tone} {off : Nat} (h : TonesAt ts off seg) (pre : List Tone) :
    TonesAt (pre ++ ts) (pre.length + off) seg := by
  intro k hk
  rw [List.getElem?_append_right (by omega), ← h k hk]
  congr 1
  omega

/-! ### Rows of one length -/

theorem flatten_rows_succ (row : Nat → List Tone) (n : Nat) :
    ((List.range (n + 1)).map row).flatten = ((List.range n).map row).flatten ++ row n := by
  rw [List.range_succ, List.map_append, List.flatten_append]
  simp

theorem flatten_rows_length {row : Nat → List Tone} {n w : Nat} (hlen : ∀ r, r < n → (row r).length = w) :
    ((List.range n).map row).flatten.length = w * n := by
  induction n with
  | zero => rfl
  | succ n ih =>
    rw [flatten_rows_succ, List.length_append, ih fun r hr => hlen r (by omega), hlen n (by omega)]
    rfl

/-- Of rows of one length, one after the other, row `r` stands at `r` times that length. -/
theorem tonesAt_flatten_rows {row : Nat → List Tone} {n w r : Nat} (hlen : ∀ r, r < n → (row r).length = w)
    (hr : r < n) : TonesAt ((List.range n).map row).flatten (w * r) (row r) := by
  induction n with
  | zero => omega
  | succ n ih =>
    have hlen' : ∀ r, r < n → (row r).length = w := fun r hr => hlen r (by omega)
    rw [flatten_rows_succ]
    rcases Nat.lt_or_ge r n with hlt | hge
    · exact (ih hlen' hlt).append_left _
    · obtain rfl : r = n := by omega
      have hself : TonesAt (row r) 0 (row r) := fun k _ => by rw [Nat.zero_add]
      have h := hself.append_right ((List.range r).map row).flatten
      rwa [flatten_rows_length hlen', Nat.add_zero] at h

/-! ### The rows of a scan (R98 to R101; dimensions: log 5) -/

theorem rowA_length (s : State) (r : Nat) : (rowA s 320 r).length = 964 := by simp [rowA]

/-- The parity of a row of mode B chooses its separator and its chroma (R99). -/
theorem rowB_eq (s : State) (w h r : Nat) : rowB s w h r =
    [toneLit 1200 9 1, toneLit 1500 3 1] ++ pixelTones w r (chanY s) 275 1000
      ++ ([toneLit (if r % 2 = 0 then 1500 else 2300) 45 10, toneLit 1900 15 10]
        ++ pixelTones w r (if r % 2 = 0 then chanRYa s h else chanBYa s h) 1375 10000) := by
  unfold rowB
  split_ifs <;> rfl

theorem rowB_length (s : State) (r : Nat) : (rowB s 320 240 r).length = 644 := by simp [rowB_eq]

theorem pairC_length (s : State) {r : Nat} (h : r + 1 < 496) : (pairC s 640 496 r).length = 2562 := by
  simp [pairC, h]

theorem rowD_length (s : State) (r : Nat) : (rowD s 320 r).length = 965 := by simp [rowD]

theorem scanTones_a (s : State) :
    scanTones s .a = [initialSync] ++ ((List.range 256).map (rowA s 320)).flatten := by
  have hw : Config.modeW .a = 320 := rfl
  have hh : Config.modeH .a = 256 := rfl
  rw [scanTones, scanLead, scanRows, hw, hh]

theorem scanTones_b (s : State) : scanTones s .b = ((List.range 240).map (rowB s 320 240)).flatten := by
  have hw : Config.modeW .b = 320 := rfl
  have hh : Config.modeH .b = 240 := rfl
  rw [scanTones, scanLead, scanRows, hw, hh, List.nil_append]

theorem scanTones_c (s : State) :
    scanTones s .c = ((List.range 248).map (fun p => pairC s 640 496 (2 * p))).flatten := by
  have hw : Config.modeW .c = 640 := rfl
  have hh : Config.modeH .c = 496 := rfl
  rw [scanTones, scanLead, scanRows, hw, hh, List.nil_append]

theorem scanTones_d (s : State) : scanTones s .d = ((List.range 256).map (rowD s 320)).flatten := by
  have hw : Config.modeW .d = 320 := rfl
  have hh : Config.modeH .d = 256 := rfl
  rw [scanTones, scanLead, scanRows, hw, hh, List.nil_append]

/-- The rows of mode A stand after the initial sync. -/
theorem tonesAt_rowA (s : State) {r : Nat} (hr : r < 256) :
    TonesAt (scanTones s .a) (1 + 964 * r) (rowA s 320 r) := by
  rw [scanTones_a]
  exact (tonesAt_flatten_rows (fun r _ => rowA_length s r) hr).append_right [initialSync]

theorem tonesAt_rowB (s : State) {r : Nat} (hr : r < 240) :
    TonesAt (scanTones s .b) (644 * r) (rowB s 320 240 r) := by
  rw [scanTones_b]
  exact tonesAt_flatten_rows (fun r _ => rowB_length s r) hr

theorem tonesAt_pairC (s : State) {p : Nat} (hp : p < 248) :
    TonesAt (scanTones s .c) (2562 * p) (pairC s 640 496 (2 * p)) := by
  rw [scanTones_c]
  exact tonesAt_flatten_rows (row := fun p => pairC s 640 496 (2 * p)) (fun p _ => pairC_length s (by omega)) hp

theorem tonesAt_rowD (s : State) {r : Nat} (hr : r < 256) :
    TonesAt (scanTones s .d) (965 * r) (rowD s 320 r) := by
  rw [scanTones_d]
  exact tonesAt_flatten_rows (fun r _ => rowD_length s r) hr

/-! ### The canvas bytes a scan reads (R26, R29, R61) -/

/-- A scan of a fitted canvas reads what the host reads. -/
theorem canvasCell_eq_memByte {s : State} {md : Mode} (hv : s.fitValid = true) (hm : s.fitMode = md) {k : Nat}
    (hk : k < canvasBytes md) : canvasCell s (canvasBase + k) = memByte s (canvasBase + k) :=
  (memByte_canvas hv (hm ▸ hk)).symm

section Channels

variable {s : State} {w : Nat} (h : Config.modeW s.fitMode = w)

include h

theorem chanR_eq (x y : Nat) : chanR s x y = canvasF s w x y 0 := by subst h; rfl
theorem chanG_eq (x y : Nat) : chanG s x y = canvasF s w x y 1 := by subst h; rfl
theorem chanB_eq (x y : Nat) : chanB s x y = canvasF s w x y 2 := by subst h; rfl

theorem chanY_eq (x y : Nat) : chanY s x y = pixelY s w x y := by
  rw [chanY, chanR_eq h, chanG_eq h, chanB_eq h, pixelY]

theorem chanRY_eq (x y : Nat) : chanRY s x y = pixelRY s w x y := by
  rw [chanRY, chanR_eq h, chanG_eq h, chanB_eq h, pixelRY]

theorem chanBY_eq (x y : Nat) : chanBY s x y = pixelBY s w x y := by
  rw [chanBY, chanR_eq h, chanG_eq h, chanB_eq h, pixelBY]

end Channels

theorem initialSync_eq : initialSync = { freq := f64OfNat 1200, dur := f64OfNat 9, phi := some 0#64 } := by
  rw [initialSync, f64Lit_one]

/-- Settles O56: each row is its segments one after the other, and each segment its tones. -/
theorem scanTonesModesAD : Obligations.ScanTonesModesAD := by
  intro s
  refine ⟨fun hv hm k hk => ?_, fun hm => ⟨?_, fun r hr => ?_⟩, fun hm r hr => ?_⟩
  · obtain hm | hm := hm
    · exact canvasCell_eq_memByte hv hm hk
    · exact canvasCell_eq_memByte hv hm hk
  · rw [← initialSync_eq, scanTones_a]
    rfl
  · have hw : Config.modeW s.fitMode = 320 := by rw [hm]; rfl
    have h := tonesAt_rowA s hr
    simp only [rowA, tonesAt_append, tonesAt_cons, tonesAt_nil, tonesAt_pixelTones, List.length_append,
      pixelTones_length, List.length_cons, List.length_nil, chanR_eq hw, chanG_eq hw, chanB_eq hw, toneLit_one,
      and_true, Nat.reduceAdd] at h
    obtain ⟨⟨⟨⟨⟨h0, hg⟩, h1⟩, hb⟩, h2, h3⟩, hred⟩ := h
    exact ⟨h0, hg, h1, hb, h2, h3, hred⟩
  · have hw : Config.modeW s.fitMode = 320 := by rw [hm]; rfl
    have h := tonesAt_rowD s hr
    simp only [rowD, tonesAt_append, tonesAt_cons, tonesAt_nil, tonesAt_pixelTones, List.length_append,
      pixelTones_length, List.length_cons, List.length_nil, chanR_eq hw, chanG_eq hw, chanB_eq hw,
      and_true, Nat.reduceAdd] at h
    obtain ⟨⟨⟨⟨⟨⟨⟨h0, h1⟩, hg⟩, h2⟩, hb⟩, h3⟩, hred⟩, h4⟩ := h
    refine ⟨h0, ?_, fun x hx => ⟨hg x hx, hb x hx, hred x hx⟩⟩
    simp only [List.forall_mem_cons]
    exact ⟨h1, h2, h3, h4, fun _ hk => absurd hk List.not_mem_nil⟩

/-! ### Averaged chroma (R60, R97) -/

/-- The last row of mode B is averaged with itself. -/
theorem nextRow_b {r : Nat} (hr : r < 240) : nextRow r 240 = if r = 239 then r else r + 1 := by
  unfold nextRow
  split_ifs <;> omega

/-- The first row of a pair has a second. -/
theorem nextRow_of_lt {r h : Nat} (hr : r + 1 < h) : nextRow r h = r + 1 := if_pos hr

theorem chanRYa_eq {s : State} {w : Nat} (h : Config.modeW s.fitMode = w) (ht x r : Nat) :
    chanRYa s ht x r = chromaAvg (pixelRY s w x r) (pixelRY s w x (nextRow r ht)) := by
  rw [chanRYa, chanRY_eq h, chanRY_eq h]

theorem chanBYa_eq {s : State} {w : Nat} (h : Config.modeW s.fitMode = w) (ht x r : Nat) :
    chanBYa s ht x r = chromaAvg (pixelBY s w x r) (pixelBY s w x (nextRow r ht)) := by
  rw [chanBYa, chanBY_eq h, chanBY_eq h]

/-- Settles O57: each row of mode B and each row pair of mode C is its segments one after the other. -/
theorem scanTonesModesBC : Obligations.ScanTonesModesBC := by
  intro s
  refine ⟨fun hv hm k hk => canvasCell_eq_memByte hv hm hk, fun hv hm k hk => canvasCell_eq_memByte hv hm hk,
    fun hm r hr => ?_, fun hm p hp => ?_⟩
  · have hw : Config.modeW s.fitMode = 320 := by rw [hm]; rfl
    have h := tonesAt_rowB s hr
    rw [rowB_eq] at h
    simp only [tonesAt_append, tonesAt_cons, tonesAt_nil, tonesAt_pixelTones, List.length_append, pixelTones_length,
      List.length_cons, List.length_nil, ite_apply, chanY_eq hw, chanRYa_eq hw, chanBYa_eq hw, nextRow_b hr,
      toneLit_one, and_true, Nat.reduceAdd] at h
    obtain ⟨⟨⟨h0, h1⟩, hluma⟩, ⟨h2, h3⟩, hchroma⟩ := h
    exact ⟨h0, h1, h2, h3, fun x hx => ⟨hluma x hx, hchroma x hx⟩⟩
  · have hw : Config.modeW s.fitMode = 640 := by rw [hm]; rfl
    have hsecond : 2 * p + 1 < 496 := by omega
    have h := tonesAt_pairC s hp
    rw [pairC, if_pos hsecond] at h
    simp only [tonesAt_append, tonesAt_cons, tonesAt_nil, tonesAt_pixelTones, List.length_append,
      pixelTones_length, List.length_cons, List.length_nil, chanY_eq hw, chanRYa_eq hw, chanBYa_eq hw,
      nextRow_of_lt hsecond, toneLit_one, and_true, Nat.reduceAdd] at h
    obtain ⟨⟨⟨⟨⟨h0, h1⟩, hfirst⟩, hry⟩, hby⟩, hlast⟩ := h
    exact ⟨h0, h1, fun x hx => ⟨hfirst x hx, hry x hx, hby x hx, hlast x hx⟩⟩

end Sys2Proof.Machine

/-! SUPPORT. Lemmas of the encoding family (spec/30_encoding.md): a word is its three fields, a command is its opcode
and its mode, and the decoder matches the two. -/

namespace Sys2Proof

open Laws (Fields.op Fields.mode Fields.Statement)

/-! ### The fields of a word (R45, R46) -/

theorem modeField_lt (w : Word) : modeField w < 8 := Nat.mod_lt _ (by decide)

/-- The three fields cover the word. -/
theorem toNat_eq_fields (w : Word) : w.toNat = opField w + 256 * modeField w + 2048 * rsvField w := by
  unfold opField modeField rsvField
  omega

theorem word_ext_fields {v w : Word} (hop : opField v = opField w) (hmode : modeField v = modeField w)
    (hrsv : rsvField v = rsvField w) : v = w :=
  BitVec.eq_of_toNat_eq (by rw [toNat_eq_fields v, toNat_eq_fields w, hop, hmode, hrsv])

theorem toNat_extract_op (w : Word) : (w.extractLsb' 0 8).toNat = opField w := by
  simp [opField]

theorem toNat_extract_mode (w : Word) : (w.extractLsb' 8 3).toNat = modeField w := by
  simp [modeField, Nat.shiftRight_eq_div_pow]

theorem toNat_extract_rsv (w : Word) : (w.extractLsb' 11 21).toNat = rsvField w := by
  simp only [BitVec.extractLsb'_toNat, Nat.shiftRight_eq_div_pow, rsvField]
  omega

theorem extract_mode_eq_zero_iff {w : Word} : w.extractLsb' 8 3 = 0#3 ↔ modeField w = 0 := by
  rw [← BitVec.toNat_inj, toNat_extract_mode]; rfl

theorem extract_rsv_eq_zero_iff {w : Word} : w.extractLsb' 11 21 = 0#21 ↔ rsvField w = 0 := by
  rw [← BitVec.toNat_inj, toNat_extract_rsv]; rfl

/-! ### The fields of a command (R48) -/

theorem wf_iff_mode_lt {i : Instr} : i.wf = true ↔ Fields.mode i < 8 := by
  cases i <;> simp [Instr.wf, wfModeField, Fields.mode]

/-- The family Fields of Sys2Proof/Laws, for every command at once. -/
theorem fields_encode : ∀ i : Instr, Fields.Statement i
  | .nop => Laws.Fields.nop
  | .emit => Laws.Fields.emit
  | .emitPhi => Laws.Fields.emitPhi
  | .synthClear => Laws.Fields.synthClear
  | .bufClear => Laws.Fields.bufClear
  | .vis m => Laws.Fields.vis m
  | .fit m => Laws.Fields.fit m
  | .scan m => Laws.Fields.scan m
  | .endTones => Laws.Fields.endTones
  | .run m => Laws.Fields.run m
  | .clear => Laws.Fields.clear

/-! ### The decoder (R49) -/

theorem decodeModed_fields {op mode : Nat} {i : Instr} (h : decodeModed op mode = some i) :
    op = Fields.op i ∧ mode = Fields.mode i := by
  unfold decodeModed at h
  split at h <;> cases h <;> exact ⟨rfl, rfl⟩

theorem decodeBare_fields {op : Nat} {i : Instr} (h : decodeBare op = some i) :
    op = Fields.op i ∧ 0 = Fields.mode i := by
  unfold decodeBare at h
  split at h <;> cases h <;> exact ⟨rfl, rfl⟩

/-- A word decodes to the command that has its opcode and its mode, when its reserved bits are 0. -/
theorem decode_eq_some_iff {w : Word} {i : Instr} :
    decode w = some i ↔ opField w = Fields.op i ∧ modeField w = Fields.mode i ∧ rsvField w = 0 := by
  constructor
  · intro h
    unfold decode at h
    split at h
    next hrsv =>
      split at h
      next hmoded =>
        obtain ⟨hop, hmode⟩ := decodeModed_fields (hmoded.trans h)
        exact ⟨hop, hmode, hrsv⟩
      next =>
        obtain ⟨hzero, hbare⟩ := Option.ite_none_right_eq_some.1 h
        obtain ⟨hop, hmode⟩ := decodeBare_fields hbare
        exact ⟨hop, hzero.trans hmode, hrsv⟩
    next => cases h
  · rintro ⟨hop, hmode, hrsv⟩
    rw [decode, if_pos hrsv, hop, hmode]
    cases i <;> rfl

/-- The opcodes with a MODE operand (R49). -/
def modedOps : List Nat := [0x05, 0x06, 0x07, 0x09]

/-- The opcodes whose MODE field must be 0 (R49). -/
def bareOps : List Nat := [0x00, 0x01, 0x02, 0x03, 0x04, 0x08, 0x0A]

theorem decodeModed_isSome_iff {op mode : Nat} :
    (decodeModed op mode).isSome = true ↔ op ∈ modedOps := by
  unfold decodeModed modedOps
  split <;> simp_all

theorem decodeBare_isSome_iff {op : Nat} :
    (decodeBare op).isSome = true ↔ op ∈ bareOps := by
  unfold decodeBare bareOps
  split <;> simp_all

/-- The opcodes with a mode decode with any, the others with MODE 0 only. -/
theorem decode_isSome_iff {w : Word} :
    (decode w).isSome = true ↔
      rsvField w = 0 ∧ (opField w ∈ modedOps ∨ opField w ∈ bareOps ∧ modeField w = 0) := by
  rw [← decodeModed_isSome_iff (mode := modeField w), ← decodeBare_isSome_iff]
  unfold decode
  by_cases hrsv : rsvField w = 0
  · cases decodeModed (opField w) (modeField w) with
    | some i => simp [hrsv]
    | none => by_cases hmode : modeField w = 0 <;> simp [hrsv, hmode]
  · simp [hrsv]

/-- Settles O1: the encoder puts the opcode and the mode where the decoder reads them. -/
theorem encodeThenDecode : Obligations.EncodeThenDecode := by
  intro i hwf
  obtain ⟨hop, hmode, hrsv, -⟩ := fields_encode i hwf
  exact decode_eq_some_iff.2 ⟨hop, hmode, hrsv⟩

/-- Settles O2: the word and the encoding have the same three fields. -/
theorem decodeThenEncode : Obligations.DecodeThenEncode := by
  intro w i hdecode
  obtain ⟨hop, hmode, hrsv⟩ := decode_eq_some_iff.1 hdecode
  have hwf : i.wf = true := wf_iff_mode_lt.2 (hmode ▸ modeField_lt w)
  obtain ⟨hop', hmode', hrsv', -⟩ := fields_encode i hwf
  exact ⟨hwf, word_ext_fields (hop'.trans hop.symm) (hmode'.trans hmode.symm) (hrsv'.trans hrsv.symm)⟩

/-! ### The rows of the opcode map (R48) -/

/-- A field that the mask keeps is the row's. -/
theorem extract_of_rowMatches {w : Word} {row : Word × Word} (h : rowMatches w row = true) {start len : Nat}
    (hmask : row.2.extractLsb' start len = BitVec.allOnes len) :
    w.extractLsb' start len = row.1.extractLsb' start len := by
  have hand : w &&& row.2 = row.1 := eq_of_beq h
  rw [← hand, BitVec.extractLsb'_and, hmask, BitVec.and_allOnes]

/-- Every row fixes OP and RSV, and MODE too unless its opcode has a mode. -/
theorem opcodeRows_shape : ∀ row ∈ opcodeRows,
    row.2.extractLsb' 0 8 = BitVec.allOnes 8 ∧
    row.2.extractLsb' 11 21 = BitVec.allOnes 21 ∧ row.1.extractLsb' 11 21 = 0#21 ∧
    (opField row.1 ∈ modedOps ∨
      opField row.1 ∈ bareOps ∧
        row.2.extractLsb' 8 3 = BitVec.allOnes 3 ∧ row.1.extractLsb' 8 3 = 0#3) :=
  List.forall_iff_forall_mem.1 (by decide)

theorem opField_of_rowMatches {w : Word} {row : Word × Word} (hrow : row ∈ opcodeRows)
    (h : rowMatches w row = true) : opField w = opField row.1 := by
  obtain ⟨hmask, -⟩ := opcodeRows_shape row hrow
  rw [← toNat_extract_op, ← toNat_extract_op, extract_of_rowMatches h hmask]

theorem decode_isSome_of_rowMatches {w : Word} {row : Word × Word} (hrow : row ∈ opcodeRows)
    (h : rowMatches w row = true) : (decode w).isSome = true := by
  obtain ⟨-, hmaskRsv, hrsv, hops⟩ := opcodeRows_shape row hrow
  rw [decode_isSome_iff, opField_of_rowMatches hrow h]
  refine ⟨extract_rsv_eq_zero_iff.1 ((extract_of_rowMatches h hmaskRsv).trans hrsv), hops.imp_right ?_⟩
  rintro ⟨hop, hmaskMode, hmode⟩
  exact ⟨hop, extract_mode_eq_zero_iff.1 ((extract_of_rowMatches h hmaskMode).trans hmode)⟩

theorem exists_rowMatches_of_decode {w : Word} {i : Instr} (h : decode w = some i) :
    ∃ row ∈ opcodeRows, rowMatches w row = true := by
  obtain ⟨hwf, rfl⟩ := decodeThenEncode w i h
  obtain ⟨-, -, -, hany⟩ := fields_encode i hwf
  obtain ⟨row, hget, hmatch⟩ := (Option.any_eq_true _ _).1 hany
  exact ⟨row, List.mem_of_getElem? hget, hmatch⟩

/-- The row a word matches is the one row of its opcode. -/
theorem rowMatches_length_le_one (w : Word) : (opcodeRows.filter (rowMatches w)).length ≤ 1 := by
  have hnodup : (opcodeRows.map (fun row => opField row.1)).Nodup := by decide
  calc (opcodeRows.filter (rowMatches w)).length
      = opcodeRows.countP (rowMatches w) := List.countP_eq_length_filter.symm
    _ ≤ opcodeRows.countP ((· == opField w) ∘ fun row => opField row.1) :=
        List.countP_mono_left fun row hrow h => beq_iff_eq.2 (opField_of_rowMatches hrow h).symm
    _ = (opcodeRows.map (fun row => opField row.1)).count (opField w) := List.countP_map.symm
    _ ≤ 1 := List.nodup_iff_count_le_one.1 hnodup _

/-- Settles O3: no two rows have one opcode, and the rows' fields are those the decoder asks for. -/
theorem opcodeRowsDecideDecoding : Obligations.OpcodeRowsDecideDecoding := by
  refine fun w => ⟨rowMatches_length_le_one w, fun h => ?_, ?_⟩
  · obtain ⟨i, hi⟩ := Option.isSome_iff_exists.1 h
    exact exists_rowMatches_of_decode hi
  · rintro ⟨row, hrow, h⟩
    exact decode_isSome_of_rowMatches hrow h

end Sys2Proof

namespace Sys2Proof.Machine

open Laws (Fields.op Fields.mode)

/-! ### Words and modes that raise an error (R49, R50) -/

theorem withMode_unsupported {m : Nat} (hm : 4 ≤ m) (s : State) (effect : Mode → State) :
    withMode m s effect = raiseErr s (errMode m) := by
  rw [withMode, modeOf_eq_none_iff.2 hm]

/-- CheckMode comes first in every command that has a mode. -/
theorem exec_unsupported {i : Instr} (hm : 4 ≤ Fields.mode i) (s : State) :
    exec i s = .next (raiseErr s (errMode (Fields.mode i))) := by
  cases i with
  | vis m | fit m | scan m | run m => exact congrArg _ (withMode_unsupported hm s _)
  | nop | emit | emitPhi | synthClear | bufClear | endTones | clear => exact absurd hm (by decide)

/-- Settles O18, by the first check of each of the four commands. -/
theorem unsupportedModeComesFirst : Obligations.UnsupportedModeComesFirst :=
  fun m s hm _ => ⟨exec_unsupported (i := .vis m) hm s, exec_unsupported (i := .fit m) hm s,
    exec_unsupported (i := .scan m) hm s, exec_unsupported (i := .run m) hm s⟩

/-- The record of an illegal word holds the word (R50). -/
theorem errIllegal_eq (w : Word) : errIllegal w = { code := 1#8, value := w, min := 0#32, max := 0#32 } := by
  rw [errIllegal, mkErr, BitVec.ofNat_toNat, BitVec.setWidth_eq]

/-- The record of an unsupported mode holds the MODE field (R50). -/
theorem errMode_modeField (w : Word) : errMode (modeField w) =
    { code := 4#8, value := (w.extractLsb' 8 3).setWidth 32, min := 0#32, max := 3#32 } := by
  rw [errMode, mkErr, ← toNat_extract_mode, BitVec.ofNat_toNat]

theorem issue_illegal {w : Word} (h : decode w = none) (s : State) :
    issue w s = .next (raiseErr s (errIllegal w)) := by
  rw [issue, h]; rfl

theorem issue_decoded {w : Word} {i : Instr} (h : decode w = some i) (s : State) : issue w s = exec i s := by
  rw [issue, h]

/-- A decoded word with MODE 4 to 7 raises code 4. -/
theorem issue_unsupported {w : Word} (h : (decode w).isSome = true) (hm : 4 ≤ modeField w) (s : State) :
    issue w s = .next (raiseErr s (errMode (modeField w))) := by
  obtain ⟨i, hi⟩ := Option.isSome_iff_exists.1 h
  obtain ⟨-, hmode, -⟩ := decode_eq_some_iff.1 hi
  rw [hmode] at hm ⊢
  rw [issue_decoded hi, exec_unsupported hm]

/-- Settles O4; 0x509 is RUN with MODE 5. -/
theorem specWordsDecode : Obligations.SpecWordsDecode :=
  ⟨by decide, by decide, by decide, by decide, by decide, by decide,
    fun s => issue_unsupported (by decide) (by decide) s⟩

/-- The three illegal forms of R50 are the words that do not decode. -/
theorem illegal_iff_decode_none {w : Word} :
    (w.extractLsb' 11 21 ≠ 0#21 ∨ 0x0B ≤ (w.extractLsb' 0 8).toNat ∨
        ((w.extractLsb' 0 8).toNat ∈ [0x00, 0x01, 0x02, 0x03, 0x04, 0x08, 0x0A] ∧ w.extractLsb' 8 3 ≠ 0#3)) ↔
      decode w = none := by
  rw [← Option.not_isSome_iff_eq_none, decode_isSome_iff]
  simp only [ne_eq, extract_rsv_eq_zero_iff, extract_mode_eq_zero_iff, toNat_extract_op, modedOps, bareOps,
    List.mem_cons, List.not_mem_nil, or_false]
  omega

/-- Settles O5: a word is illegal or a command, and the commands with MODE 4 to 7 fail their first check. -/
theorem illegalWordsRecordCodeOne : Obligations.IllegalWordsRecordCodeOne := by
  refine fun w s => ⟨fun h => ?_, fun h => ?_, fun hrsv hop hmode => ?_⟩
  · rw [issue_illegal (illegal_iff_decode_none.1 h), errIllegal_eq]
    rfl
  · rw [illegal_iff_decode_none, ← ne_eq, Option.ne_none_iff_exists'] at h
    obtain ⟨i, hi⟩ := h
    exact ⟨i, hi, issue_decoded hi s⟩
  · rw [toNat_extract_op] at hop
    rw [toNat_extract_mode] at hmode
    have hdecode : (decode w).isSome = true :=
      decode_isSome_iff.2 ⟨extract_rsv_eq_zero_iff.1 hrsv, Or.inl hop⟩
    rw [issue_unsupported hdecode hmode, errMode_modeField]
    rfl

end Sys2Proof.Machine

/-! SUPPORT. Lemmas of the colour family (spec/40_color_transform.md): binary64 arithmetic that is monotone on numbers
that are not negative, and exact when it doubles a number. -/

namespace Sys2Proof.Machine

/-! ### Operands of a finite result -/

theorem f64IsFinite_eq (x : Binary64) : f64IsFinite x = (!f64IsNaN x && !f64IsInf x) := by
  unfold f64IsFinite f64IsNaN f64IsInf bne
  cases f64Exp x == 2047 <;> cases f64Frac x == 0 <;> rfl

theorem f64NaN_not_finite : f64IsFinite f64NaN = false := by decide

theorem operands_finite_of_add {x y : Binary64} (h : f64IsFinite (f64Add x y) = true) :
    f64IsFinite x = true ∧ f64IsFinite y = true := by
  have hinf : ∀ {z : Binary64}, f64IsFinite z = true → f64IsInf z ≠ true := fun hz => by
    simp [f64IsInf_of_finite hz]
  unfold f64Add at h
  split_ifs at h with hnan hx hclash hy
  · exact absurd h (by simp [f64NaN_not_finite])
  · exact absurd h (by simp [f64NaN_not_finite])
  · exact absurd hx (hinf h)
  · exact absurd hy (hinf h)
  all_goals
    simp only [Bool.or_eq_true, not_or, Bool.not_eq_true] at hnan hx hy
    simp [f64IsFinite_eq, hnan, hx, hy]

theorem operands_finite_of_mul {x y : Binary64} (h : f64IsFinite (f64Mul x y) = true) :
    f64IsFinite x = true ∧ f64IsFinite y = true := by
  unfold f64Mul at h
  split_ifs at h with hnan hinf hzero
  · exact absurd h (by simp [f64NaN_not_finite])
  · exact absurd h (by simp [f64NaN_not_finite])
  · exact absurd h (by simp [not_finite_of_isInf (f64IsInf_pack_top le_rfl)])
  · simp only [Bool.or_eq_true, not_or, Bool.not_eq_true] at hnan hinf
    simp [f64IsFinite_eq, hnan, hinf]

theorem lt_top_of_pack_finite {neg : Bool} {m : Nat} (h : f64IsFinite (f64Pack neg m) = true) : m < f64Top := by
  by_contra hge
  rw [not_finite_of_isInf (f64IsInf_pack_top (Nat.le_of_not_lt hge))] at h
  cases h

/-! ### Sums and products of numbers that are not negative grow with their operands -/

/-- Two finite numbers that are not negative, the first at most the second. -/
structure F64NonnegLe (x y : Binary64) : Prop where
  left : F64Nonneg x
  right : F64Nonneg y
  mag : f64Mag x ≤ f64Mag y

theorem F64NonnegLe.refl {x : Binary64} (h : F64Nonneg x) : F64NonnegLe x x := ⟨h, h, le_rfl⟩

theorem F64NonnegLe.le {x y : Binary64} (h : F64NonnegLe x y) : f64Le x y = true := by
  obtain ⟨hx, hy, hxy⟩ := h
  simp [f64Le, f64IsNaN_of_finite hx.1, f64IsNaN_of_finite hy.1, hx.key, hy.key, hxy]

theorem f64Nonneg_lit {num den : Nat} (h : f64IsFinite (f64Lit num den) = true) : F64Nonneg (f64Lit num den) := by
  unfold f64Lit at h ⊢
  exact f64Nonneg_pack (f64RoundMag_rep _ _) (lt_top_of_pack_finite h)

theorem f64NonnegLe_ofNat {m n : Nat} (h : m ≤ n) (hn : n ≤ 2 ^ 53) : F64NonnegLe (f64OfNat m) (f64OfNat n) where
  left := f64Nonneg_ofNat (h.trans hn)
  right := f64Nonneg_ofNat hn
  mag := by
    rw [f64OfNat_mag (h.trans hn), f64OfNat_mag hn]
    exact Nat.mul_le_mul_right _ h

theorem F64Nonneg.add_lt_top {x y : Binary64} (hx : F64Nonneg x) (hy : F64Nonneg y)
    (h : f64IsFinite (f64Add x y) = true) : f64RoundMag (f64Mag x + f64Mag y) 1 < f64Top := by
  by_cases hz : f64Key x + f64Key y = 0
  · rw [hx.key, hy.key] at hz
    have h0 : f64Mag x + f64Mag y = 0 := by omega
    rw [h0, f64RoundMag_zero]
    exact f64Top_pos
  · rw [f64Add_finite hx.1 hy.1 hz] at h
    have hlt := lt_top_of_pack_finite h
    rw [hx.key, hy.key] at hlt
    exact hlt

theorem F64Nonneg.mul_lt_top {x y : Binary64} (hx : F64Nonneg x) (hy : F64Nonneg y)
    (h : f64IsFinite (f64Mul x y) = true) : f64RoundMag (f64Mag x * f64Mag y) f64One < f64Top := by
  rw [f64Mul_finite hx.1 hy.1] at h
  exact lt_top_of_pack_finite h

theorem F64NonnegLe.add {x x' y y' : Binary64} (hx : F64NonnegLe x x') (hy : F64NonnegLe y y')
    (h : f64IsFinite (f64Add x' y') = true) : F64NonnegLe (f64Add x y) (f64Add x' y') := by
  have hmono : f64RoundMag (f64Mag x + f64Mag y) 1 ≤ f64RoundMag (f64Mag x' + f64Mag y') 1 :=
    f64RoundMag_mono (Nat.add_le_add hx.mag hy.mag)
  have htop := hx.right.add_lt_top hy.right h
  obtain ⟨hnonneg, hmag⟩ := hx.left.add hy.left (hmono.trans_lt htop)
  obtain ⟨hnonneg', hmag'⟩ := hx.right.add hy.right htop
  exact ⟨hnonneg, hnonneg', by rw [hmag, hmag']; exact hmono⟩

theorem F64NonnegLe.mul {x x' y y' : Binary64} (hx : F64NonnegLe x x') (hy : F64NonnegLe y y')
    (h : f64IsFinite (f64Mul x' y') = true) : F64NonnegLe (f64Mul x y) (f64Mul x' y') := by
  have hmono : f64RoundMag (f64Mag x * f64Mag y) f64One ≤ f64RoundMag (f64Mag x' * f64Mag y') f64One :=
    f64RoundMag_mono (Nat.mul_le_mul hx.mag hy.mag)
  have htop := hx.right.mul_lt_top hy.right h
  obtain ⟨hnonneg, hmag⟩ := hx.left.mul hy.left (hmono.trans_lt htop)
  obtain ⟨hnonneg', hmag'⟩ := hx.right.mul hy.right htop
  exact ⟨hnonneg, hnonneg', by rw [hmag, hmag']; exact hmono⟩

/-! ### Doubling -/

theorem F64Rep.double {m : Nat} (h : F64Rep m) : F64Rep (2 * m) := by
  obtain ⟨j, hj, hm⟩ := h.exists_mul
  rw [f64Ulp_eq] at hm
  rw [hm, Nat.mul_left_comm, ← Nat.pow_succ']
  exact F64Rep.mul_pow hj.le _

/-- Doubling rounds nothing. -/
theorem f64Add_self {a : Binary64} (h : f64IsFinite a = true) :
    f64Add a a = f64Pack (f64Sign a) (2 * f64Mag a) := by
  have hkey : f64Key a = if f64Sign a then -(f64Mag a : Int) else (f64Mag a : Int) := by unfold f64Key; rfl
  by_cases hz : f64Key a + f64Key a = 0
  · have h0 : f64Mag a = 0 := by rw [hkey] at hz; split_ifs at hz <;> omega
    rw [f64Add_finite_zero h h hz, Bool.and_self, h0]
  · have hneg : decide (f64Key a + f64Key a < 0) = f64Sign a := by
      rw [hkey] at hz ⊢
      cases f64Sign a
      · simp only [Bool.false_eq_true, if_false, decide_eq_false_iff_not] at hz ⊢
        omega
      · simp only [if_true, decide_eq_true_eq] at hz ⊢
        omega
    have habs : (f64Key a + f64Key a).natAbs = 2 * f64Mag a := by rw [hkey]; split_ifs <;> omega
    rw [f64Add_finite h h hz, hneg, habs, f64RoundMag_one (f64Mag_rep a).double]

end Sys2Proof.Machine

/-! SUPPORT. Lemmas of the colour family (spec/40_color_transform.md): luminance, the colour differences, the chroma
average and the frequency map. -/

namespace Sys2Proof.Machine

/-! ### Luminance (R54) -/

/-- Y grows with each channel wherever it does not overflow. -/
theorem lumaY_mono {r g b r' g' b' : Binary64} (hr : F64NonnegLe r r') (hg : F64NonnegLe g g')
    (hb : F64NonnegLe b b') (h : f64IsFinite (lumaY r' g' b') = true) :
    F64NonnegLe (lumaY r g b) (lumaY r' g' b') := by
  have coeff : ∀ {c x x' : Binary64}, F64Nonneg c → F64NonnegLe x x' → f64IsFinite (f64Mul c x') = true →
      F64NonnegLe (f64Mul c x) (f64Mul c x') := fun hc hx hfin => (F64NonnegLe.refl hc).mul hx hfin
  have hscaled := (operands_finite_of_add h).2
  have hsum := (operands_finite_of_mul hscaled).2
  obtain ⟨hrg, hblue⟩ := operands_finite_of_add hsum
  obtain ⟨hred, hgreen⟩ := operands_finite_of_add hrg
  have weights : F64NonnegLe _ _ :=
    ((coeff (f64Nonneg_lit (operands_finite_of_mul hred).1) hr hred).add
      (coeff (f64Nonneg_lit (operands_finite_of_mul hgreen).1) hg hgreen) hrg).add
      (coeff (f64Nonneg_lit (operands_finite_of_mul hblue).1) hb hblue) hsum
  exact (F64NonnegLe.refl (f64Nonneg_ofNat (by norm_num))).add
    (coeff (f64Nonneg_lit (operands_finite_of_mul hscaled).1) weights hscaled) h

theorem lumaY_black : lumaY (f64OfNat 0) (f64OfNat 0) (f64OfNat 0) = f64OfNat 16 := by decide +kernel

theorem lumaY_white : lumaY (f64OfNat 255) (f64OfNat 255) (f64OfNat 255) =
    f64Lit 23498615976999997 100000000000000 := by decide +kernel

theorem lumaY_white_finite : f64IsFinite (lumaY (f64OfNat 255) (f64OfNat 255) (f64OfNat 255)) = true := by
  decide +kernel

/-- Y on channels of at most 255: the largest is white's, which is finite. -/
theorem lumaY_channels_mono {r g b r' g' b' : Nat} (hr : r ≤ r') (hg : g ≤ g') (hb : b ≤ b') (hr' : r' ≤ 255)
    (hg' : g' ≤ 255) (hb' : b' ≤ 255) :
    F64NonnegLe (lumaY (f64OfNat r) (f64OfNat g) (f64OfNat b)) (lumaY (f64OfNat r') (f64OfNat g') (f64OfNat b')) := by
  have channel : ∀ {m n : Nat}, m ≤ n → n ≤ 255 → F64NonnegLe (f64OfNat m) (f64OfNat n) :=
    fun h hn => f64NonnegLe_ofNat h (hn.trans (by norm_num))
  have hwhite := lumaY_mono (channel hr' le_rfl) (channel hg' le_rfl) (channel hb' le_rfl) lumaY_white_finite
  exact lumaY_mono (channel hr hr') (channel hg hg') (channel hb hb') hwhite.left.1

/-- Settles O50: rounding is monotone, so Y lies between its values at black and white. -/
theorem lumaStaysInRange : Obligations.LumaStaysInRange := by
  have channel_le : ∀ v : Byte, v.toNat ≤ 255 := fun v => Nat.le_of_lt_succ v.isLt
  refine ⟨fun _ _ _ => rfl, fun r g b r' g' b' hr hg hb => ?_, fun r g b => ⟨?_, ?_⟩, lumaY_black, lumaY_white,
    by decide +kernel⟩
  · exact (lumaY_channels_mono hr hg hb (channel_le r') (channel_le g') (channel_le b')).le
  · rw [← lumaY_black]
    exact (lumaY_channels_mono (Nat.zero_le _) (Nat.zero_le _) (Nat.zero_le _) (channel_le r) (channel_le g)
      (channel_le b)).le
  · rw [← lumaY_white]
    exact (lumaY_channels_mono (channel_le r) (channel_le g) (channel_le b) le_rfl le_rfl le_rfl).le

/-! ### The chroma average (R59) -/

theorem chromaAvg_self {a : Binary64} (h : f64IsFinite (f64Add a a) = true) : chromaAvg a a = a := by
  have ha := (operands_finite_of_add h).1
  have hsum := f64Add_self ha
  have htop : 2 * f64Mag a < f64Top := lt_top_of_pack_finite (hsum ▸ h)
  have htwo : f64Mag (f64OfNat 2) = 2 * f64One := f64OfNat_mag (by norm_num)
  have hpos := f64One_pos
  have hhalf : f64RoundMag (2 * f64Mag a * f64One) (2 * f64One) = f64Mag a := by
    rw [Nat.mul_comm 2, Nat.mul_assoc]
    exact f64RoundMag_exact (f64Mag_rep a) (by omega)
  rw [chromaAvg, f64Div_finite h (f64OfNat_finite (by norm_num)) (by rw [htwo]; omega), hsum, f64Sign_pack,
    f64OfNat_sign, f64Mag_pack (f64Mag_rep a).double htop, htwo, hhalf, Bool.bne_false, f64Pack_mag ha]

theorem chromaAvg_128 : chromaAvg (f64OfNat 128) (f64OfNat 128) = f64OfNat 128 :=
  chromaAvg_self (by decide +kernel)

/-- Settles O53: doubling and halving round nothing. -/
theorem avgOfEqualValues : Obligations.AvgOfEqualValues :=
  ⟨fun _ _ => rfl, fun _ => chromaAvg_self, fun _ _ => rfl, by decide +kernel, by decide +kernel⟩

/-! ### The frequency map (R58) -/

theorem freqMap_zero : freqMap (f64OfNat 0) = f64OfNat 1500 := by decide +kernel
theorem freqMap_16 : freqMap (f64OfNat 16) = f64Lit 15501960784 10000000 := by decide +kernel
theorem freqMap_128 : freqMap (f64OfNat 128) = f64Lit 19015686272 10000000 := by decide +kernel

/-- Settles O52: the formula is the definition; each corner case is one evaluation. -/
theorem freqMapCorners : Obligations.FreqMapCorners :=
  ⟨fun _ => rfl, freqMap_zero, by decide +kernel, freqMap_16, freqMap_128, by decide +kernel⟩

/-! ### The colour differences (R55, R56) -/

theorem chromaRY_black : chromaRY (f64OfNat 0) (f64OfNat 0) (f64OfNat 0) = f64OfNat 128 := by decide +kernel
theorem chromaBY_black : chromaBY (f64OfNat 0) (f64OfNat 0) (f64OfNat 0) = f64OfNat 128 := by decide +kernel

/-- The grey values whose R-Y is not 128.0. -/
def roundedGreysRY : List Nat :=
  [114, 146, 153, 165, 170, 175, 189, 191, 194, 196, 199, 215, 216, 218, 223, 228, 242, 244, 245, 247]

/-- The grey values whose B-Y is not 128.0. -/
def roundedGreysBY : List Nat :=
  [114, 146, 153, 158, 160, 162, 163, 165, 172, 175, 177, 181, 182, 184, 186, 187, 189, 196, 199, 201, 204, 205, 206,
    208, 211, 216, 220, 222, 223, 225, 228, 229, 230, 234, 235, 237, 240, 243, 244, 245, 247, 249, 252, 253, 254]

/-- R-Y of a grey pixel is 128.0 or the binary64 number before it. -/
theorem chromaRY_grey : ∀ v ∈ List.range 256, chromaRY (f64OfNat v) (f64OfNat v) (f64OfNat v) =
    if v ∈ roundedGreysRY then f64Lit 12799999999999999 100000000000000 else f64OfNat 128 := by decide +kernel

theorem chromaBY_grey_iff : ∀ v ∈ List.range 256,
    chromaBY (f64OfNat v) (f64OfNat v) (f64OfNat v) ≠ f64OfNat 128 ↔ v ∈ roundedGreysBY := by decide +kernel

/-- Counting grey values by R-Y is counting them by membership in the list. -/
theorem filter_greys_chromaRY (p : Binary64 → Bool) :
    (List.range 256).filter (fun v => p (chromaRY (f64OfNat v) (f64OfNat v) (f64OfNat v))) =
      (List.range 256).filter (fun v =>
        p (if v ∈ roundedGreysRY then f64Lit 12799999999999999 100000000000000 else f64OfNat 128)) :=
  List.filter_congr fun v hv => by rw [chromaRY_grey v hv]

theorem filter_greys_chromaBY_ne :
    (List.range 256).filter (fun v => chromaBY (f64OfNat v) (f64OfNat v) (f64OfNat v) != f64OfNat 128) =
      (List.range 256).filter (fun v => v ∈ roundedGreysBY) :=
  List.filter_congr fun v hv => by
    rw [Bool.eq_iff_iff, bne_iff_ne, chromaBY_grey_iff v hv, decide_eq_true_iff]

/-- Settles O51: the grey values are evaluated once for each colour difference and then counted. -/
theorem greyPixelsRoundAsStated : Obligations.GreyPixelsRoundAsStated := by
  unfold Obligations.GreyPixelsRoundAsStated
  rw [filter_greys_chromaRY (· == f64OfNat 128), filter_greys_chromaRY (· != f64OfNat 128),
    filter_greys_chromaRY (· == f64Lit 12799999999999999 100000000000000), filter_greys_chromaBY_ne]
  exact ⟨fun _ _ _ => rfl, fun _ _ _ => rfl, chromaRY_black, chromaBY_black, by decide +kernel⟩

end Sys2Proof.Machine

/-! SUPPORT. Lemmas of the colour family (spec/40_color_transform.md): what the scans of spec/44_scan_engines.md send on
a black canvas. -/

namespace Sys2Proof.Machine

/-! ### Every tone of a scan -/

theorem forall_mem_pixelTones {P : Tone → Prop} {w r : Nat} {v : Nat → Nat → Binary64} {dn dd : Nat} :
    (∀ t ∈ pixelTones w r v dn dd, P t) ↔ ∀ x, x < w → P (pixelTone (v x r) dn dd) := by
  simp only [pixelTones, List.forall_mem_map, List.mem_range]
  rfl

theorem forall_mem_rows {P : Tone → Prop} {row : Nat → List Tone} {n : Nat} :
    (∀ t ∈ ((List.range n).map row).flatten, P t) ↔ ∀ r, r < n → ∀ t ∈ row r, P t := by
  simp only [List.forall_mem_flatten, List.forall_mem_map, List.mem_range]

theorem nextRow_lt {r h : Nat} (hr : r < h) : nextRow r h < h := by
  unfold nextRow
  split_ifs <;> omega

/-! ### The pixels of a black canvas (R54 to R61) -/

theorem pixelTone_zero (dn dd : Nat) : pixelTone (f64OfNat 0) dn dd =
    { freq := f64OfNat 1500, dur := f64Lit dn dd, phi := none } := by rw [pixelTone, freqMap_zero]

theorem pixelTone_16 (dn dd : Nat) : pixelTone (f64OfNat 16) dn dd =
    { freq := f64Lit 15501960784 10000000, dur := f64Lit dn dd, phi := none } := by rw [pixelTone, freqMap_16]

theorem pixelTone_128 (dn dd : Nat) : pixelTone (f64OfNat 128) dn dd =
    { freq := f64Lit 19015686272 10000000, dur := f64Lit dn dd, phi := none } := by rw [pixelTone, freqMap_128]

/-- Every byte of a canvas of `w` by `h` pixels is 0. -/
def CanvasIsBlack (s : State) (w h : Nat) : Prop := ∀ k, k < 3 * (w * h) → canvasCell s (0x02000000 + k) = 0#8

section Pixels

variable {s : State} {w h : Nat} (hblack : CanvasIsBlack s w h) {x y z c : Nat} (hx : x < w) (hy : y < h) (hz : z < h)

include hblack hx hy

theorem canvasF_black (hc : c < 3) : canvasF s w x y c = f64OfNat 0 := by
  have hpixel : y * w + x < w * h := by
    calc y * w + x < y * w + w := Nat.add_lt_add_left hx _
      _ = w * (y + 1) := by ring
      _ ≤ w * h := Nat.mul_le_mul_left _ hy
  rw [canvasF, Nat.add_assoc, hblack _ (by omega)]
  rfl

theorem pixelY_black : pixelY s w x y = f64OfNat 16 := by
  have channel {c : Nat} (hc : c < 3) := canvasF_black hblack hx hy hc
  rw [pixelY, channel (by decide), channel (by decide), channel (by decide), lumaY_black]

theorem pixelRY_black : pixelRY s w x y = f64OfNat 128 := by
  have channel {c : Nat} (hc : c < 3) := canvasF_black hblack hx hy hc
  rw [pixelRY, channel (by decide), channel (by decide), channel (by decide), chromaRY_black]

theorem pixelBY_black : pixelBY s w x y = f64OfNat 128 := by
  have channel {c : Nat} (hc : c < 3) := canvasF_black hblack hx hy hc
  rw [pixelBY, channel (by decide), channel (by decide), channel (by decide), chromaBY_black]

include hz

theorem avgRY_black : chromaAvg (pixelRY s w x y) (pixelRY s w x z) = f64OfNat 128 := by
  rw [pixelRY_black hblack hx hy, pixelRY_black hblack hx hz, chromaAvg_128]

theorem avgBY_black : chromaAvg (pixelBY s w x y) (pixelBY s w x z) = f64OfNat 128 := by
  rw [pixelBY_black hblack hx hy, pixelBY_black hblack hx hz, chromaAvg_128]

end Pixels

/-! ### The frequencies of a black canvas (R98 to R101) -/

/-- What modes B and C send on a black canvas beside 1200 and 1500 Hz: their separators, luminance and chroma. -/
def colourFreqs : List Binary64 :=
  [f64OfNat 1900, f64OfNat 2300, f64Lit 15501960784 10000000, f64Lit 19015686272 10000000]

section Frequencies

variable {s : State}

theorem scanFreqs_a_black (hm : s.fitMode = .a) (hblack : CanvasIsBlack s 320 256) :
    ∀ t ∈ scanTones s .a, t.freq ∈ [f64OfNat 1200, f64OfNat 1500] := by
  have hw : Config.modeW s.fitMode = 320 := by rw [hm]; rfl
  rw [scanTones_a, List.forall_mem_append, forall_mem_rows]
  refine ⟨by simp [initialSync], fun r hr => ?_⟩
  simp +contextual [rowA, or_imp, forall_and, forall_mem_pixelTones, toneLit, chanR_eq hw, chanG_eq hw, chanB_eq hw,
    canvasF_black hblack, pixelTone_zero, hr]

theorem scanFreqs_d_black (hm : s.fitMode = .d) (hblack : CanvasIsBlack s 320 256) :
    ∀ t ∈ scanTones s .d, t.freq ∈ [f64OfNat 1200, f64OfNat 1500] := by
  have hw : Config.modeW s.fitMode = 320 := by rw [hm]; rfl
  rw [scanTones_d, forall_mem_rows]
  intro r hr
  simp +contextual [rowD, or_imp, forall_and, forall_mem_pixelTones, toneLit, chanR_eq hw, chanG_eq hw, chanB_eq hw,
    canvasF_black hblack, pixelTone_zero, hr]

theorem scanFreqs_b_black (hm : s.fitMode = .b) (hblack : CanvasIsBlack s 320 240) :
    ∀ t ∈ scanTones s .b, t.freq ∈ [f64OfNat 1200, f64OfNat 1500] ∨ t.freq ∈ colourFreqs := by
  have hw : Config.modeW s.fitMode = 320 := by rw [hm]; rfl
  rw [scanTones_b, forall_mem_rows]
  intro r hr
  have hnext := nextRow_lt hr
  unfold rowB
  split_ifs
  · simp +contextual [colourFreqs, or_imp, forall_and, forall_mem_pixelTones, toneLit, chanY_eq hw, chanRYa_eq hw,
      pixelY_black hblack, avgRY_black hblack, pixelTone_16, pixelTone_128, hr, hnext]
  · simp +contextual [colourFreqs, or_imp, forall_and, forall_mem_pixelTones, toneLit, chanY_eq hw, chanBYa_eq hw,
      pixelY_black hblack, avgBY_black hblack, pixelTone_16, pixelTone_128, hr, hnext]

theorem scanFreqs_c_black (hm : s.fitMode = .c) (hblack : CanvasIsBlack s 640 496) :
    ∀ t ∈ scanTones s .c, t.freq ∈ [f64OfNat 1200, f64OfNat 1500] ∨ t.freq ∈ colourFreqs := by
  have hw : Config.modeW s.fitMode = 640 := by rw [hm]; rfl
  rw [scanTones_c, forall_mem_rows]
  intro p hp
  have hfirst : 2 * p < 496 := by omega
  have hsecond : 2 * p + 1 < 496 := by omega
  simp +contextual [pairC, colourFreqs, or_imp, forall_and, forall_mem_pixelTones, toneLit, chanY_eq hw,
    chanRYa_eq hw, chanBYa_eq hw, nextRow_of_lt hsecond, pixelY_black hblack, avgRY_black hblack,
    avgBY_black hblack, pixelTone_16, pixelTone_128, hfirst, hsecond]

theorem scanFreqs_black {md : Mode} (hm : s.fitMode = md)
    (hblack : CanvasIsBlack s (Config.modeW md) (Config.modeH md)) : ∀ t ∈ scanTones s md,
      t.freq ∈ [f64OfNat 1200, f64OfNat 1500] ∨ ((md = .b ∨ md = .c) ∧ t.freq ∈ colourFreqs) := by
  intro t ht
  cases md with
  | a => exact Or.inl (scanFreqs_a_black hm hblack t ht)
  | b => exact (scanFreqs_b_black hm hblack t ht).imp_right (And.intro (Or.inl rfl))
  | c => exact (scanFreqs_c_black hm hblack t ht).imp_right (And.intro (Or.inr rfl))
  | d => exact Or.inl (scanFreqs_d_black hm hblack t ht)

end Frequencies

/-! ### The pixel tones of a black canvas at their places -/

/-- Settles O58: the tones of the four scans at their places (O56, O57), with the values of a black pixel put in. -/
theorem blackCanvasTones : Obligations.BlackCanvasTones := by
  intro s md hm hblack
  obtain ⟨-, modeA, modeD⟩ := scanTonesModesAD s
  obtain ⟨-, -, modeB, modeC⟩ := scanTonesModesBC s
  refine ⟨scanFreqs_black hm hblack, ?_, ?_, ?_, ?_⟩
  · rintro rfl r x hr hx
    have channel {c : Nat} (hc : c < 3) := canvasF_black (w := 320) (h := 256) hblack hx hr hc
    obtain ⟨-, hgreen, -, hblue, -, -, hred⟩ := (modeA hm).2 r hr
    simp [hgreen x hx, hblue x hx, hred x hx, channel, pixelTone_zero]
  · rintro rfl r x hr hx
    have channel {c : Nat} (hc : c < 3) := canvasF_black (w := 320) (h := 256) hblack hx hr hc
    obtain ⟨-, -, pixels⟩ := modeD hm r hr
    obtain ⟨hgreen, hblue, hred⟩ := pixels x hx
    simp [hgreen, hblue, hred, channel, pixelTone_zero]
  · rintro rfl r x hr hx
    replace hblack : CanvasIsBlack s 320 240 := hblack
    have hnext : (if r = 239 then r else r + 1) < 240 := by split_ifs <;> omega
    obtain ⟨-, -, -, -, pixels⟩ := modeB hm r hr
    obtain ⟨hluma, hchroma⟩ := pixels x hx
    rw [hluma, hchroma, pixelY_black hblack hx hr, avgRY_black hblack hx hr hnext, avgBY_black hblack hx hr hnext,
      ite_self, pixelTone_16, pixelTone_128]
    exact ⟨rfl, rfl⟩
  · rintro rfl p x hp hx
    replace hblack : CanvasIsBlack s 640 496 := hblack
    have hfirst : 2 * p < 496 := by omega
    have hsecond : 2 * p + 1 < 496 := by omega
    obtain ⟨-, -, pixels⟩ := modeC hm p hp
    obtain ⟨hluma, hRY, hBY, hluma'⟩ := pixels x hx
    simp [hluma, hRY, hBY, hluma', pixelY_black hblack hx hfirst, pixelY_black hblack hx hsecond,
      avgRY_black hblack hx hfirst hsecond, avgBY_black hblack hx hfirst hsecond, pixelTone_16, pixelTone_128]

end Sys2Proof.Machine

/-! SUPPORT. Lemmas of the synthesizer family (spec/41_synthesizer.md): the commands that emit nothing, and the bytes of
memory they leave alone. -/

namespace Sys2Proof.Machine

/-! ### Memory by window (R27) -/

/-- A byte reads the same in two states in which its window does. -/
theorem memByte_congr {s t : State} {a : Nat} (hdraws : t.draws = s.draws) (hsrc : t.src = s.src)
    (hcanvas : canvasBase ≤ a ∧ a < canvasBase + canvasSize → canvasHostByte t a = canvasHostByte s a)
    (hsample : sampleBase ≤ a ∧ a < sampleBase + sampleSize → sampleHostByte t a = sampleHostByte s a) :
    memByte t a = memByte s a := by
  unfold memByte srcByte
  rw [hdraws, hsrc]
  split_ifs with _ hc hs
  · rfl
  · exact hcanvas hc
  · exact hsample hs
  · rfl

/-- Clearing the error record shows in no byte of memory. -/
theorem memByte_clearErr (s : State) (a : Nat) : memByte (clearErr s) a = memByte s a := (rfl)

/-- A fresh synthesizer state shows in no byte of memory. -/
theorem memByte_freshSyn (s : State) (a : Nat) : memByte (freshSyn s) a = memByte s a := (rfl)

/-- Emptying the buffer shows in the sample window only. -/
theorem memByte_emptyBuf (s : State) {a : Nat} (h : ¬ (sampleBase ≤ a ∧ a < sampleBase + sampleSize)) :
    memByte (emptyBuf s) a = memByte s a :=
  memByte_congr (emptyBuf_draws s) (emptyBuf_src s) (fun _ => rfl) fun hs => absurd hs h

/-- Clearing the outputs shows in the canvas and sample windows only. -/
theorem memByte_clearOutputs (s : State) {a : Nat} (hc : ¬ (canvasBase ≤ a ∧ a < canvasBase + canvasSize))
    (hs : ¬ (sampleBase ≤ a ∧ a < sampleBase + sampleSize)) : memByte (clearOutputs s) a = memByte s a :=
  memByte_congr (clearOutputs_draws s) (clearOutputs_src s) (fun h => absurd h hc) fun h => absurd h hs

/-! ### NOP, SYNTH_CLEAR, BUF_CLEAR and CLEAR (R72, R75, R77, R110) -/

/-- Settles O40: each command is its clearing operation, and each operation shows in its own windows only. -/
theorem clearersFrame : Obligations.ClearersFrame := by
  refine fun s t => ⟨fun h => ?_, fun h => ?_, fun h => ?_, fun h => ?_⟩ <;> cases h
  · exact ⟨rfl, memByte_clearErr s⟩
  · exact ⟨rfl, fun a => (memByte_freshSyn _ a).trans (memByte_clearErr s a)⟩
  · exact ⟨rfl, fun a ha => (memByte_emptyBuf _ ha).trans (memByte_clearErr s a)⟩
  · exact ⟨rfl, fun a hc hs => (memByte_clearOutputs _ hc hs).trans (memByte_clearErr s a)⟩

/-- Settles O22: the command is `clearErr`, and STATUS.ERR and ERR_CODE read the record it leaves. -/
theorem nopClearsTheRecord : Obligations.NopClearsTheRecord := by
  refine ⟨by decide, fun s => ⟨rfl, fun t h => ?_⟩⟩
  cases h
  obtain ⟨-, -, -, herr, -⟩ := statusWord_bits (clearErr s)
  have hstatus : readRegAt (clearErr s) 0x004 = statusWord (clearErr s) := readRegAt_of_some (r := .status) (by decide)
  have hcode : readRegAt (clearErr s) 0x008 = ErrRecord.ok.code.setWidth 32 :=
    readRegAt_of_some (r := .errCode) (by decide)
  exact ⟨by rw [hstatus, herr]; rfl, by rw [hcode]; rfl⟩

/-- Settles O23: the command is `freshSyn` after `clearErr`, and the fresh state recovers the phase +0.0. -/
theorem synthClearRestoresFreshState : Obligations.SynthClearRestoresFreshState := by
  refine ⟨by decide, fun s => ⟨rfl, fun t h => ?_⟩⟩
  cases h
  have hcos : readRegAt (freshSyn (clearErr s)) 0x054 = hiHalf Syn.fresh.cos :=
    readRegAt_of_some (r := .synCosHi) (by decide)
  exact ⟨hcos.trans (by decide), recoverPhase_fresh⟩

/-- Settles O24: the command is `emptyBuf` after `clearErr`, neither of which writes the synthesizer state. -/
theorem bufClearEmptiesBuffer : Obligations.BufClearEmptiesBuffer := by
  refine ⟨by decide, fun s => ⟨rfl, fun t h => ?_⟩⟩
  cases h
  exact ⟨readRegAt_of_some (r := .bufLen) (by decide), rfl⟩

end Sys2Proof.Machine

/-! SUPPORT. Lemmas of the synthesizer family (spec/41_synthesizer.md): the arithmetic of phases and carries. -/

namespace Sys2Proof.Machine

/-! ### Zeros and units -/

theorem f64Zero_finite (neg : Bool) : f64IsFinite (f64Zero neg) = true := f64IsFinite_pack f64Top_pos

theorem f64Sign_zero (neg : Bool) : f64Sign (f64Zero neg) = neg := f64Sign_pack neg 0

theorem f64Mag_zero (neg : Bool) : f64Mag (f64Zero neg) = 0 := (f64Nonneg_zero_pack neg).2

theorem f64OfNat_zero_eq : f64OfNat 0 = f64Zero false := by decide +kernel

theorem f64Neg_zero_eq : f64Neg (f64OfNat 0) = f64Zero true := by decide +kernel

theorem f64Mag_neg_unit : f64Mag (f64Neg f64Unit) = f64One := by rw [f64Mag_neg, f64Mag_unit]

/-- A product with a zero is a zero. -/
theorem f64Mul_zero {x : Binary64} (hx : f64IsFinite x = true) (neg : Bool) :
    f64Mul x (f64Zero neg) = f64Zero (f64Sign x != neg) := by
  rw [f64Mul_finite hx (f64Zero_finite neg), f64Sign_zero, f64Mag_zero, Nat.mul_zero, f64RoundMag_zero, f64Zero]

theorem f64Zero_mul {x : Binary64} (hx : f64IsFinite x = true) (neg : Bool) :
    f64Mul (f64Zero neg) x = f64Zero (neg != f64Sign x) := by
  rw [f64Mul_finite (f64Zero_finite neg) hx, f64Sign_zero, f64Mag_zero, Nat.zero_mul, f64RoundMag_zero, f64Zero]

/-- A zero divided by a positive integer is that zero. -/
theorem f64Zero_div_ofNat (neg : Bool) {r : Nat} (hpos : 0 < r) (hr : r ≤ 2 ^ 53) :
    f64Div (f64Zero neg) (f64OfNat r) = f64Zero neg := by
  have hmag : f64Mag (f64OfNat r) ≠ 0 := by
    rw [f64OfNat_mag hr]
    exact (Nat.mul_pos hpos f64One_pos).ne'
  rw [f64Div_finite (f64Zero_finite neg) (f64OfNat_finite hr) hmag, f64Sign_zero, f64OfNat_sign, f64Mag_zero,
    Nat.zero_mul, f64RoundMag_zero, Bool.bne_false, f64Zero]

/-- A zero added to a finite number other than -0.0 changes nothing. -/
theorem f64Zero_add {x : Binary64} (hx : f64IsFinite x = true) (hne : x ≠ f64Zero true) (neg : Bool) :
    f64Add (f64Zero neg) x = x := by
  have hkey : f64Key (f64Zero neg) = 0 := by simp [f64Key, f64Mag_zero]
  have hpack := f64Pack_mag hx
  by_cases h0 : f64Mag x = 0
  · have hsign : f64Sign x = false := by
      by_contra hs
      rw [Bool.not_eq_false] at hs
      exact hne (by rw [← hpack, hs, h0, f64Zero])
    rw [f64Add_finite_zero (f64Zero_finite neg) hx (by simp [hkey, f64Key, h0]), hsign, Bool.and_false]
    rw [hsign, h0] at hpack
    exact hpack
  · have hkx := f64Key_natAbs x
    have hsign : decide (f64Key x < 0) = f64Sign x := by
      unfold f64Key
      cases f64Sign x <;> simp [Nat.pos_of_ne_zero h0]
    rw [f64Add_finite (f64Zero_finite neg) hx (by omega), hkey, Int.zero_add, hsign, hkx,
      f64RoundMag_one (f64Mag_rep x), hpack]

theorem f64Zero_add_finite {x : Binary64} (hx : f64IsFinite x = true) (neg : Bool) :
    f64IsFinite (f64Add (f64Zero neg) x) = true := by
  by_cases hne : x = f64Zero true
  · subst hne
    cases neg <;> decide +kernel
  · rwa [f64Zero_add hx hne]

/-- A product with a number of magnitude 1 keeps the magnitude. -/
theorem f64Mul_of_mag_one {u x : Binary64} (hu : f64IsFinite u = true) (hmag : f64Mag u = f64One)
    (hx : f64IsFinite x = true) : f64Mul u x = f64Pack (f64Sign u != f64Sign x) (f64Mag x) := by
  rw [f64Mul_finite hu hx, hmag, Nat.mul_comm, f64RoundMag_exact (f64Mag_rep x) f64One_pos]

theorem f64Mul_unit {x : Binary64} (hx : f64IsFinite x = true) : f64Mul f64Unit x = x := by
  have hsign : f64Sign f64Unit = false := by decide
  rw [f64Mul_of_mag_one f64Nonneg_unit.1 f64Mag_unit hx, hsign, Bool.false_bne, f64Pack_mag hx]

theorem f64Mul_neg_unit {x : Binary64} (hx : f64IsFinite x = true) : f64Mul (f64Neg f64Unit) x = f64Neg x := by
  have hsign : f64Sign (f64Neg f64Unit) = true := by decide
  rw [f64Mul_of_mag_one (by decide) f64Mag_neg_unit hx, hsign, Bool.true_bne, ← f64Sign_neg, ← f64Mag_neg x,
    f64Pack_mag (by rwa [f64IsFinite_neg])]

/-- A finite duration that is not below 0 passes CheckDur (R114). -/
theorem f64Nonneg_of_not_lt {d : Binary64} (hfin : f64IsFinite d = true) (hlt : f64Lt d 0#64 = false) :
    F64Nonneg d := checkDur_none_iff.1 (if_pos (by simp [hfin, hlt]))

/-! ### The carry (R63, R64) -/

/-- Settles O44: a finite tone length is a number that is not negative, so `toneCount_spec` says both. -/
theorem carryStaysBelowOne : Obligations.CarryStaysBelowOne := by
  intro r d carry _ hr hd hlt hfin hlow hhigh
  have hx : F64Nonneg (toneLength (f64OfNat r) d) :=
    (toneLength_nonneg_or_infinite (hr.trans (by norm_num)) (f64Nonneg_of_not_lt hd hlt)).resolve_right
      (by simp [hfin])
  rw [f64OfNat_one] at hhigh ⊢
  rw [hx.floor]
  rcases toneCount_spec hx ⟨hlow, hhigh⟩ with ⟨hc, hn⟩ | ⟨hc, hn⟩
  · exact ⟨hc.1, hc.2, Or.inl hn⟩
  · exact ⟨hc.1, hc.2, Or.inr hn⟩

/-! ### The recovered phase (R65) -/

/-- `(|sign - 1.0| / 2.0) * PI` is +0.0 for the sign 1.0 and PI for the sign -1.0. -/
theorem phaseOffset_unit :
    f64Mul (f64Div (f64Abs (f64Sub f64Unit f64Unit)) (f64OfNat 2)) Config.pi = f64OfNat 0 := by decide +kernel
theorem phaseOffset_neg_unit :
    f64Mul (f64Div (f64Abs (f64Sub (f64Neg f64Unit) f64Unit)) (f64OfNat 2)) Config.pi = Config.pi := by decide +kernel

/-- Settles O48: the sign is 1.0 or -1.0, a product with it is exact, and its offset is +0.0 or PI. -/
theorem phaseRecoveryCases : Obligations.PhaseRecoveryCases := by
  refine ⟨fun syn hlow hhigh => ?_, by decide +kernel⟩
  rw [f64OfNat_one] at hlow hhigh
  have hwithin := asinFn_within (f64Within_iff.2 ⟨hlow, hhigh⟩)
  have hhalfPi : F64Nonneg f64HalfPi := ⟨by decide, by decide +kernel⟩
  obtain ⟨hasin, -⟩ := f64Within_mag hhalfPi hwithin
  refine ⟨fun hcos => ?_, fun hcos => ?_⟩ <;> rw [f64OfNat_zero] at hcos
  · simp only [recoverPhase, hcos, if_true, phaseOffset_unit, f64Mul_unit hasin]
  · simp only [recoverPhase, hcos, Bool.false_eq_true, if_false, phaseOffset_neg_unit, f64Mul_neg_unit hasin]

/-! ### Phases that do not turn (R66, R69) -/

/-- A sample whose angle `2 PI f i` is a zero is at the start phase plus that zero. -/
theorem phaseAt_of_zero_angle {r i : Nat} {f phi : Binary64} {neg : Bool} (hpos : 0 < r) (hr : r ≤ 2 ^ 53)
    (h : f64Mul (f64Mul (f64Mul (f64OfNat 2) Config.pi) f) (f64OfNat i) = f64Zero neg) :
    phaseAt (f64OfNat r) f phi i = f64Add (f64Zero neg) phi := by
  rw [phaseAt, h, f64Zero_div_ofNat neg hpos hr]

/-- Settles O49: at index 0 the angle is a zero, and adding a zero changes no phase but -0.0. -/
theorem toneStartsAtStartPhase : Obligations.ToneStartsAtStartPhase := by
  intro r f phi hlow hhigh hf hphi hne
  rw [f64Neg_zero_eq] at hne
  have hangle := f64Mul_zero hf false
  rw [← f64OfNat_zero_eq] at hangle
  rw [phaseAt_of_zero_angle (by omega) (hhigh.trans (by norm_num)) hangle, f64Zero_add hphi hne]

/-- Every sample of silence is at the start phase plus +0.0 (R69). -/
theorem phaseAt_silence {r i : Nat} (phi : Binary64) (hpos : 0 < r) (hr : r ≤ 2 ^ 53) (hi : i ≤ 2 ^ 53) :
    phaseAt (f64OfNat r) (f64OfNat 0) phi i = f64Add (f64OfNat 0) phi := by
  have hturn : f64Mul (f64Mul (f64OfNat 2) Config.pi) (f64OfNat 0) = f64Zero false := by decide +kernel
  have hangle : f64Mul (f64Mul (f64Mul (f64OfNat 2) Config.pi) (f64OfNat 0)) (f64OfNat i) = f64Zero false := by
    rw [hturn, f64Zero_mul (f64OfNat_finite hi), f64OfNat_sign, bne_self_eq_false]
  rw [phaseAt_of_zero_angle hpos hr hangle, f64OfNat_zero_eq]

/-- A sample at a finite phase is the rounded sine, as a stored integer (R67). -/
theorem quantise_sine_eq (i : Nat) {ph : Binary64} (hph : f64IsFinite ph = true) :
    quantise i (f64Mul (f64OfNat 32767) (sinFn ph)) =
      BitVec.ofInt 16 (f64Round (f64Mul (f64OfNat 32767) (sinFn ph))) := by
  rw [← quantise_sine i hph, BitVec.ofInt_toInt]

/-- EMIT that records no error appends its one tone, on operands that pass its checks. -/
theorem exec_emit_succeeds {s t : State} (h : exec .emit s = .next t) (hcode : t.err.code = 0#8) :
    t = appendOutput s (emitTones (rateF s) s.syn [⟨s.opf, s.opd, none⟩]) ∧ rateLegal s.sampleRate ∧
      s.buf.length + countTones (rateF s) s.syn.carry [⟨s.opf, s.opd, none⟩] ≤ Config.bufCap := by
  rcases exec_next h with ⟨e, he, rfl⟩ | heff
  · exact absurd hcode he.1
  · cases heff with
    | emit hcap hrate => exact ⟨rfl, hrate, hcap⟩

theorem emitTones_singleton (sr : Binary64) (syn : Syn) (t : Tone) : emitTones sr syn [t] = emitTone sr syn t := by
  rw [emitTones_cons, emitTones, List.append_nil]

theorem countTones_singleton (sr carry : Binary64) (t : Tone) :
    countTones sr carry [t] = (toneCount sr t.dur carry).1 := by
  rw [countTones, countTones, Nat.add_zero]

/-- Settles O47: no sample of silence turns the phase, so each is the one at the recovered phase. -/
theorem silenceRepeatsOneSample : Obligations.SilenceRepeatsOneSample := by
  intro s t hf hphi h hcode
  obtain ⟨rfl, ⟨hlow, hhigh⟩, hcap⟩ := exec_emit_succeeds h hcode
  rw [countTones_singleton] at hcap
  rw [emitTones_singleton, hf]
  set n := (toneCount (rateF s) s.opd s.syn.carry).1
  have hphase : ∀ i ≤ n, phaseAt (rateF s) (f64OfNat 0) (recoverPhase s.syn) i
      = f64Add (f64OfNat 0) (recoverPhase s.syn) := fun i hi =>
    phaseAt_silence _ (Nat.lt_of_lt_of_le (by decide) hlow) (hhigh.trans (by decide))
      (hi.trans (by unfold Config.bufCap at hcap; omega))
  have hfin : f64IsFinite (f64Add (f64OfNat 0) (recoverPhase s.syn)) = true := by
    rw [f64OfNat_zero_eq]
    exact f64Zero_add_finite hphi false
  refine ⟨n, ?_, congrArg sinFn (hphase n le_rfl), congrArg cosFn (hphase n le_rfl)⟩
  rw [appendOutput_buf]
  congr 1
  refine List.eq_replicate_iff.2 ⟨emitTone_length _ _ _, fun v hv => ?_⟩
  obtain ⟨i, hi, rfl⟩ := List.mem_map.1 hv
  rw [← quantise_sine_eq i hfin, ← hphase i (List.mem_range.1 hi).le]
  rfl

end Sys2Proof.Machine

/-! SUPPORT. Lemmas of the synthesizer family (spec/41_synthesizer.md): the emitting commands on legal operands, and the
tone procedure as R62 writes it out. -/

namespace Sys2Proof.Machine

/-! ### The tone procedure as written out (R62 to R68) -/

/-- The sample count and the carry, each with its own test (R63). -/
theorem toneCount_eq (sr d carry : Binary64) : toneCount sr d carry =
    let x := toneLength sr d
    let c := f64Add carry (f64Sub x (f64OfNat (f64FloorNat x)))
    (if f64Le (f64OfNat 1) c then f64FloorNat x + f64FloorNat c else f64FloorNat x,
      if f64Le (f64OfNat 1) c then f64Sub c (f64OfNat (f64FloorNat c)) else c) := by
  simp only [toneCount, f64OfNat_one]
  split_ifs <;> rfl

/-- The recovered phase with its constants as decimal literals (R65). -/
theorem recoverPhase_eq (syn : Syn) : recoverPhase syn =
    let sign := if f64Le (f64OfNat 0) syn.cos then f64OfNat 1 else f64Neg (f64OfNat 1)
    f64Add (f64Mul sign (asinFn syn.value))
      (f64Mul (f64Div (f64Abs (f64Sub sign (f64OfNat 1))) (f64OfNat 2)) Config.pi) := by
  simp only [recoverPhase, f64OfNat_one, f64OfNat_zero]

theorem startPhase_eq (syn : Syn) (phi : Option Binary64) : startPhase syn phi = phi.getD (recoverPhase syn) := by
  cases phi <;> rfl

/-- The tone procedure of the model is the one R62 writes out. -/
theorem emitTone_eq_toneByRule (sr : Binary64) (syn : Syn) (t : Tone) : emitTone sr syn t = toneByRule sr syn t := by
  rw [emitTone, startPhase_eq, toneCount_eq, recoverPhase_eq]
  rfl

/-! ### Emitting commands on legal operands (R73, R114) -/

theorem readyToEmit.checkRate_none {s : State} (h : readyToEmit s) : checkRate s = none := by
  obtain ⟨hlow, hhigh, -⟩ := h
  exact checkRate_none_iff.2 ⟨hlow, hhigh⟩

theorem readyToEmit.checkDepth_none {s : State} (h : readyToEmit s) : checkDepth s = none := by
  obtain ⟨-, -, hdepth⟩ := h
  exact checkDepth_none_iff.2 hdepth

theorem emitPending_of_fits {s : State} {ts : List Tone}
    (h : s.buf.length + (emitTones (rateF s) s.syn ts).2.length ≤ Config.bufCap) :
    emitPending s ts = appendOutput s (emitTones (rateF s) s.syn ts) := by
  rw [emitTones_length] at h
  exact if_neg (Nat.not_lt.2 h)

/-- One tone of `n` samples at the phases `ph` that fits the buffer: the quantised sines are appended, and the state is
left at the phase of index `n` (R67, R68, R73). -/
theorem emitPending_tone {s : State} {t : Tone} {n : Nat} {c : Binary64} {ph : Nat → Binary64}
    (hcount : toneCount (rateF s) t.dur s.syn.carry = (n, c))
    (hph : ∀ i, ph i = phaseAt (rateF s) t.freq (startPhase s.syn t.phi) i)
    (hcap : s.buf.length + n ≤ 134217728) :
    emitPending s [t] = { s with
      err := { code := 0#8, value := 0#32, min := 0#32, max := 0#32 },
      syn := { value := sinFn (ph n), cos := cosFn (ph n), carry := c },
      buf := s.buf ++ (List.range n).map (fun i => quantise i (f64Mul (f64OfNat 32767) (sinFn (ph i)))),
      outValid := false } := by
  obtain rfl : ph = phaseAt (rateF s) t.freq (startPhase s.syn t.phi) := funext hph
  have htone : emitTone (rateF s) s.syn t =
      (⟨sinFn (phaseAt (rateF s) t.freq (startPhase s.syn t.phi) n),
        cosFn (phaseAt (rateF s) t.freq (startPhase s.syn t.phi) n), c⟩,
       (List.range n).map (toneSample (rateF s) t.freq (startPhase s.syn t.phi))) := by
    rw [emitTone, hcount]
  have hlen : (emitTones (rateF s) s.syn [t]).2.length = n := by
    rw [emitTones_singleton, emitTone_length, hcount]
  rw [emitPending_of_fits (by rwa [hlen]), emitTones_singleton, htone]
  rfl

/-- Settles O26: the operands pass the four checks, and R62's formulas are the model's. -/
theorem emitAppendsOneTone : Obligations.EmitAppendsOneTone := by
  intro s sr x c0 c sign phi n ph hready hf hd hlt hsr hx hc0 hn hc hsign hphi hph hcap
  subst hsr hx hc0 hn hc hsign hphi
  rw [exec, execEmit, checked]
  simp only [firstErr, hready.checkRate_none, hready.checkDepth_none, checkFreq_none_iff.2 hf,
    checkDur_none_iff.2 (f64Nonneg_of_not_lt hd hlt)]
  refine congrArg _ (emitPending_tone (toneCount_eq _ _ _) (fun i => ?_) hcap)
  rw [hph i, startPhase, recoverPhase_eq]
  rfl

/-- Settles O27: as O26, with one more check and the start phase given. -/
theorem emitPhiAppendsOneTone : Obligations.EmitPhiAppendsOneTone := by
  intro s sr x c0 c n ph hready hf hd hlt hp hsr hx hc0 hn hc hph hcap
  subst hsr hx hc0 hn hc
  rw [exec, execEmitPhi, checked]
  simp only [firstErr, hready.checkRate_none, hready.checkDepth_none, checkFreq_none_iff.2 hf,
    checkDur_none_iff.2 (f64Nonneg_of_not_lt hd hlt), checkPhase_none_iff.2 hp]
  exact congrArg _ (emitPending_tone (toneCount_eq _ _ _) hph hcap)

/-- VIS of a mode on a legal setting emits the tones of its header. -/
theorem exec_vis_of_ready {s : State} (md : Mode) (hready : readyToEmit s) :
    exec (.vis (Config.modeNumber md)) s = .next (emitPending s (tonesOf (visTable md))) := by
  have hmode : modeOf (Config.modeNumber md) = some md := modeOf_eq_some_iff.2 rfl
  rw [exec, execVis, withMode, hmode]
  simp only [checked, firstErr, hready.checkRate_none, hready.checkDepth_none, visTones_eq]

theorem appendOutput_eq_afterTones (s : State) (ts : List Tone) :
    appendOutput s (emitTones (rateF s) s.syn ts) = afterTones s ts := (rfl)

/-- Settles O28: the header is the table, and a list of tones is emitted tone by tone as R62 says. -/
theorem visAppendsHeader : Obligations.VisAppendsHeader := by
  refine ⟨fun s md hready hcap => ?_, fun _ _ => rfl, fun sr syn t ts => ?_, fun sr syn as bs => ?_⟩
  · rw [exec_vis_of_ready md hready, emitPending_of_fits hcap, appendOutput_eq_afterTones]
  · rw [emitTones_cons, emitTone_eq_toneByRule]
    exact ⟨rfl, rfl⟩
  · rw [emitTones_append]
    exact ⟨rfl, rfl⟩

end Sys2Proof.Machine

/-! SUPPORT. Lemmas of the VIS family (spec/42_vis.md): arithmetic on whole numbers is exact, so a tone that lasts a
whole number of samples emits just those and leaves the carry as it was. -/

namespace Sys2Proof.Machine

/-! ### Exact arithmetic on whole numbers -/

theorem f64Add_comm_of_finite {x y : Binary64} (hx : f64IsFinite x = true) (hy : f64IsFinite y = true) :
    f64Add x y = f64Add y x := by
  by_cases h : f64Key x + f64Key y = 0
  · rw [f64Add_finite_zero hx hy h, f64Add_finite_zero hy hx (by omega), Bool.and_comm]
  · rw [f64Add_finite hx hy h, f64Add_finite hy hx (by omega), Int.add_comm]

/-- A finite number minus itself is +0.0. -/
theorem f64Sub_self {x : Binary64} (hx : f64IsFinite x = true) : f64Sub x x = f64Zero false := by
  have hneg : f64IsFinite (f64Neg x) = true := by rwa [f64IsFinite_neg]
  have hkey : f64Key x + f64Key (f64Neg x) = 0 := by rw [f64Key_neg, Int.add_right_neg]
  rw [f64Sub, f64Add_finite_zero hx hneg hkey, f64Sign_neg, Bool.and_not_self, f64Zero]

theorem f64FloorNat_ofNat {n : Nat} (hn : n ≤ 2 ^ 53) : f64FloorNat (f64OfNat n) = n := by
  rw [(f64Nonneg_ofNat hn).floor, f64OfNat_mag hn, Nat.mul_div_cancel _ f64One_pos]

theorem f64Mul_ofNat {a b : Nat} (ha : a ≤ 2 ^ 53) (hb : b ≤ 2 ^ 53) (hab : a * b ≤ 2 ^ 53) :
    f64Mul (f64OfNat a) (f64OfNat b) = f64OfNat (a * b) := by
  have hmag : a * f64One * (b * f64One) = a * b * f64One * f64One := by ring
  rw [f64Mul_finite (f64OfNat_finite ha) (f64OfNat_finite hb), f64OfNat_mag ha, f64OfNat_mag hb, hmag,
    f64RoundMag_exact (f64OfNat_rep hab) f64One_pos, f64OfNat_sign, f64OfNat_sign, bne_self_eq_false,
    f64OfNat_pack (f64OfNat_rep hab)]

theorem f64Div_ofNat_mul {q k : Nat} (hpos : 0 < k) (hk : k ≤ 2 ^ 53) (hqk : q * k ≤ 2 ^ 53) :
    f64Div (f64OfNat (q * k)) (f64OfNat k) = f64OfNat q := by
  have hq : F64Rep (q * f64One) := f64OfNat_rep ((Nat.le_mul_of_pos_right q hpos).trans hqk)
  have hden : 0 < k * f64One := Nat.mul_pos hpos f64One_pos
  have hmag : q * k * f64One * f64One = q * f64One * (k * f64One) := by ring
  rw [f64Div_finite (f64OfNat_finite hqk) (f64OfNat_finite hk) (by rw [f64OfNat_mag hk]; exact hden.ne'),
    f64OfNat_mag hqk, f64OfNat_mag hk, hmag, f64RoundMag_exact hq hden, f64OfNat_sign, f64OfNat_sign,
    bne_self_eq_false, f64OfNat_pack hq]

/-! ### Tones of a whole number of samples (R63, R64) -/

/-- The length of such a tone has no fractional part to add to the carry. A carry of -0.0 would become +0.0. -/
theorem toneCount_of_whole_length {sr d c : Binary64} {n : Nat} (hlen : toneLength sr d = f64OfNat n)
    (hn : n ≤ 2 ^ 53) (hc : CarryOk c) (hne : c ≠ f64Neg 0#64) : toneCount sr d c = (n, c) := by
  obtain ⟨hnonneg, hlt⟩ := carryOk_iff.1 hc
  have hcarry : f64Add c (f64Zero false) = c := by
    rw [f64Add_comm_of_finite hnonneg.1 (f64Zero_finite false),
      f64Zero_add hnonneg.1 (by rwa [← f64Neg_zero_eq, f64OfNat_zero])]
  have hbelow : ¬ f64Le f64Unit c = true := by
    rw [f64Le_unit_iff hnonneg]
    exact Nat.not_le.2 hlt
  simp only [toneCount, hlen, f64FloorNat_ofNat hn, f64Sub_self (f64OfNat_finite hn), hcarry, if_neg hbelow]

/-- At 8000 Hz a millisecond is 8 samples. -/
theorem toneLength_8000 {ms : Nat} (h : ms ≤ 1000) :
    toneLength (f64OfNat 8000) (f64OfNat ms) = f64OfNat (8 * ms) := by
  have hsamples : 8000 * ms = 8 * ms * 1000 := by omega
  rw [toneLength, f64Mul_ofNat (by norm_num) (by omega) (by omega), hsamples,
    f64Div_ofNat_mul (by norm_num) (by norm_num) (by omega)]

theorem tonesOf_cons (p : Nat × Nat) (rows : List (Nat × Nat)) :
    tonesOf (p :: rows) = plainTone p.1 p.2 :: tonesOf rows := (rfl)

section WholeMilliseconds
variable {c : Binary64} (hc : CarryOk c) (hne : c ≠ f64Neg 0#64)
include hc hne

theorem toneCount_plainTone_8000 (hz : Nat) {ms : Nat} (h : ms ≤ 1000) :
    toneCount (f64OfNat 8000) (plainTone hz ms).dur c = (8 * ms, c) :=
  toneCount_of_whole_length (toneLength_8000 h) (by omega) hc hne

theorem countTones_tonesOf_8000 {rows : List (Nat × Nat)} (h : ∀ p ∈ rows, p.2 ≤ 1000) :
    countTones (f64OfNat 8000) c (tonesOf rows) = 8 * (rows.map Prod.snd).sum := by
  induction rows with
  | nil => rfl
  | cons p rows ih =>
    obtain ⟨hp, hrows⟩ := List.forall_mem_cons.1 h
    rw [tonesOf_cons, countTones, toneCount_plainTone_8000 hc hne _ hp, ih hrows, List.map_cons, List.sum_cons,
      Nat.mul_add]

theorem endCarry_tonesOf_8000 {rows : List (Nat × Nat)} (h : ∀ p ∈ rows, p.2 ≤ 1000) :
    endCarry (f64OfNat 8000) c (tonesOf rows) = c := by
  induction rows with
  | nil => rfl
  | cons p rows ih =>
    obtain ⟨hp, hrows⟩ := List.forall_mem_cons.1 h
    rw [tonesOf_cons, endCarry, toneCount_plainTone_8000 hc hne _ hp, ih hrows]

end WholeMilliseconds

/-! ### The header and the end tones (R79 to R82, R85, R105) -/

theorem visTable_length (md : Mode) : (visTable md).length = 21 := by cases md <;> decide

/-- The header lasts 1710 ms in every mode: the data bits, of whatever value, last 30 ms. -/
theorem visTable_duration (md : Mode) : ((visTable md).map Prod.snd).sum = 1710 := by cases md <;> decide

theorem visTable_ms_le (md : Mode) : ∀ p ∈ visTable md, p.2 ≤ 1000 := by cases md <;> decide

theorem endTable_duration : (endTable.map Prod.snd).sum = 900 := by decide

theorem endTable_ms_le : ∀ p ∈ endTable, p.2 ≤ 1000 := by decide

/-- Settles O54: header and end tones are tables of whole milliseconds, 1710 and 900, each of 8 samples. -/
theorem headerAndEndTonesCounts : Obligations.HeaderAndEndTonesCounts := by
  intro syn md hlow hhigh hne
  have hc : CarryOk syn.carry := ⟨hlow, by rwa [← f64OfNat_one]⟩
  rw [emitTones_length, emitTones_length, emitTones_carry, emitTones_carry, visTones_eq]
  refine ⟨?_, endTones_eq, ?_, endCarry_tonesOf_8000 hc hne (visTable_ms_le md), ?_, ?_⟩
  · rw [tonesOf, List.length_map, visTable_length]
  · rw [countTones_tonesOf_8000 hc hne (visTable_ms_le md), visTable_duration]
  · rw [endTones_eq, countTones_tonesOf_8000 hc hne endTable_ms_le, endTable_duration]
  · rw [endTones_eq, endCarry_tonesOf_8000 hc hne endTable_ms_le]

end Sys2Proof.Machine

/-! SUPPORT. Lemmas of the image fitter family (spec/43_image_fitter.md): the scaled dimensions and margins in either
limiting case, the source image as the host reads it, and each byte of the canvas a FIT leaves. -/

namespace Sys2Proof.Machine

/-! ### The scaled dimensions and the margins (R88, R90, R94) -/

/-- R88's quotient is the floor, as the configuration sets FIT_DIM_ROUND. -/
theorem scaledOther_eq (n t d : Nat) : scaledOther n t d = max 1 (n * t / d) := (rfl)

theorem scaledDims_fst (tw th sw sh : Nat) :
    (scaledDims tw th sw sh).1 = if tw * sh ≤ th * sw then tw else max 1 (sw * th / sh) := by
  unfold scaledDims
  split_ifs
  · rfl
  · exact scaledOther_eq sw th sh

theorem scaledDims_snd (tw th sw sh : Nat) :
    (scaledDims tw th sw sh).2 = if tw * sh ≤ th * sw then max 1 (sh * tw / sw) else th := by
  unfold scaledDims
  split_ifs
  · exact scaledOther_eq sh tw sw
  · rfl

/-- Where the width limits it takes the target's size. -/
theorem scaledDims_fst_of_le {tw th sw sh : Nat} (h : tw * sh ≤ th * sw) : (scaledDims tw th sw sh).1 = tw := by
  rw [scaledDims_fst, if_pos h]

/-- Where the height limits it takes the target's size; in the tie the quotient is exact. -/
theorem scaledDims_snd_of_le {tw th sw sh : Nat} (hth : 1 ≤ th) (hsw : 1 ≤ sw) (h : th * sw ≤ tw * sh) :
    (scaledDims tw th sw sh).2 = th := by
  rw [scaledDims_snd]
  split_ifs with hwidth
  · have htie : sh * tw = th * sw := by rw [Nat.mul_comm, le_antisymm hwidth h]
    rw [htie, Nat.mul_div_cancel th hsw, max_eq_right hth]
  · rfl

/-- A source of the target's size is not scaled. -/
theorem scaledDims_same_size {w h : Nat} (hw : 1 ≤ w) (hh : 1 ≤ h) : scaledDims w h w h = (w, h) :=
  Prod.ext (scaledDims_fst_of_le (Nat.mul_comm w h).le) (scaledDims_snd_of_le hh hw (Nat.mul_comm h w).le)

theorem centreOffset_self (t : Nat) : centreOffset t t = 0 := by rw [centreOffset, Nat.sub_self]

/-- The far margin is the near one or one more: the odd pixel of an odd difference (R90). -/
theorem margin_near_far {t n : Nat} (h : n ≤ t) :
    centreOffset t n ≤ t - centreOffset t n - n ∧ t - centreOffset t n - n ≤ centreOffset t n + 1 := by
  unfold centreOffset
  omega

theorem margins_of_limiting {t n : Nat} (h : n = t) : centreOffset t n = 0 ∧ t - centreOffset t n - n = 0 := by
  rw [h, centreOffset_self]
  exact ⟨rfl, by omega⟩

/-- Settles O60: the bounds of R88 make every margin a difference of naturals, and the limiting dimension fills the
target. -/
theorem fitLaws : Obligations.FitLaws := by
  intro tw th sw sh nw nh left top right bottom htw hth hsw hsh hdims hleft htop hright hbottom
  obtain ⟨rfl, rfl⟩ := Prod.mk.inj hdims
  subst hleft htop hright hbottom
  obtain ⟨⟨hnw, hnw'⟩, hnh, hnh'⟩ := scaledDims_bounds sw sh htw hth
  obtain ⟨hlr, hlr'⟩ := margin_near_far hnw'
  obtain ⟨htb, htb'⟩ := margin_near_far hnh'
  exact ⟨hnw, hnw', hnh, hnh', margins_sum hnw', margins_sum hnh', hlr, hlr', htb, htb',
    fun h => margins_of_limiting (scaledDims_fst_of_le h), fun h => margins_of_limiting (scaledDims_snd_of_le hth hsw h)⟩

/-! ### The source image and the canvas (R86, R89, R91) -/

/-- A legal source lies in its window, so a FIT reads what the host reads. -/
theorem sourceImage_eq_memByte {s : State} (h : sourceOk s) : sourceImage s =
    (List.range (3 * (s.srcW.toNat * s.srcH.toNat))).map (fun k => memByte s (srcBase + k)) := by
  have hmax : 3 * srcPixels s ≤ srcSize :=
    (Nat.mul_le_mul_left 3 (h.2.trans srcMaxPixels_le)).trans (by decide)
  refine List.map_congr_left fun k hk => (memByte_source s ?_ ?_).symm
  · exact Nat.le_add_right srcBase k
  · exact Nat.add_lt_add_left ((List.mem_range.1 hk).trans_le hmax) srcBase

/-- Every channel of every pixel has its byte below the size of the image (spec/20_memory.md R29). -/
theorem pixelByte_lt {w h x y c : Nat} (hx : x < w) (hy : y < h) (hc : c < 3) :
    3 * (y * w + x) + c < 3 * (w * h) := by
  have hpixel : y * w + x < w * h :=
    calc y * w + x < (y + 1) * w := by rw [Nat.succ_mul]; omega
      _ ≤ h * w := Nat.mul_le_mul_right w hy
      _ = w * h := Nat.mul_comm h w
  omega

/-- What the host reads of the canvas a FIT leaves. -/
theorem memByte_applyFit_pixel (s : State) (md : Mode) {x y c : Nat} (hx : x < Config.modeW md)
    (hy : y < Config.modeH md) (hc : c < 3) :
    memByte (applyFit s md) (canvasBase + 3 * (y * Config.modeW md + x) + c) =
      fittedByte (sourceImage s) s.srcW.toNat s.srcH.toNat md x y c := by
  rw [Nat.add_assoc, ← canvasCell_eq_memByte (applyFit_fitValid s md) (applyFit_fitMode s md) (pixelByte_lt hx hy hc),
    ← Nat.add_assoc, canvasCell, applyFit_canvas, fittedCanvas, memLookup_canvasOf_pixel _ _ _ _ hx hy hc,
    Option.getD_some]

/-- A source of the target's size is copied unchanged (R89, R95). -/
theorem fittedByte_same_size (img : List Byte) (md : Mode) {x y : Nat} (c : Nat) (hx : x < Config.modeW md)
    (hy : y < Config.modeH md) :
    fittedByte img (Config.modeW md) (Config.modeH md) md x y c =
      img.getD (3 * (y * Config.modeW md + x) + c) 0#8 := by
  have hinside : 0 ≤ x ∧ x < 0 + Config.modeW md ∧ 0 ≤ y ∧ y < 0 + Config.modeH md := by omega
  simp only [fittedByte, scaledDims_same_size (modeW_bounds md).1 (modeH_bounds md).1, centreOffset_self]
  rw [if_pos hinside, resampleByte_same_size, Nat.sub_zero, Nat.sub_zero]

/-- The canvas of a source of the target's size reads as the source window does. -/
theorem memByte_applyFit_same_size {s : State} {md : Mode} (h : sourceOk s) (hw : s.srcW.toNat = Config.modeW md)
    (hh : s.srcH.toNat = Config.modeH md) {x y c : Nat} (hx : x < Config.modeW md) (hy : y < Config.modeH md)
    (hc : c < 3) :
    memByte (applyFit s md) (canvasBase + 3 * (y * Config.modeW md + x) + c) =
      memByte s (srcBase + 3 * (y * Config.modeW md + x) + c) := by
  rw [memByte_applyFit_pixel s md hx hy hc, sourceImage_eq_memByte h, hw, hh, fittedByte_same_size _ _ _ hx hy,
    List.getD_eq_getElem?_getD, List.getElem?_map, List.getElem?_range (pixelByte_lt hx hy hc), Option.map_some,
    Option.getD_some, Nat.add_assoc]

/-- Settles O31: the legal source makes FIT complete, and its effect is R86 with the dimensions of R88. -/
theorem fitMakesCanvasAndMetadata : Obligations.FitMakesCanvasAndMetadata := by
  intro s md sw sh tw th nw nh ox oy hsource hsw hsh htw hth hnw hnh hox hoy
  subst hsw hsh htw hth
  rw [← scaledDims_fst] at hnw
  rw [← scaledDims_snd] at hnh
  subst hnw hnh hox hoy
  refine ⟨_, exec_fit_of_sourceOk md hsource, ?_, fun x y c hx hy hc => ?_,
    fun hw hh x y c hx hy hc => memByte_applyFit_same_size hsource hw hh hx hy hc⟩
  · rw [← oversize_eq]
    rfl
  · have hpixel := memByte_applyFit_pixel s md hx hy hc
    rw [sourceImage_eq_memByte hsource] at hpixel
    exact hpixel

end Sys2Proof.Machine

/-! SUPPORT. Lemmas of the scan family (spec/44_scan_engines.md): the command SCAN on a fitted canvas, the tones column
of R104, and the explicit start phase of mode A. -/

namespace Sys2Proof.Machine

/-! ### The command on a fitted canvas (R102, R103) -/

/-- SCAN of the mode the canvas was fitted for, on a legal setting, emits the tones of its scan. -/
theorem exec_scan_of_ready {s : State} {md : Mode} (hready : readyToEmit s) (hvalid : s.fitValid = true)
    (hmode : s.fitMode = md) :
    exec (.scan (Config.modeNumber md)) s = .next (emitPending s (scanTones s md)) := by
  have hnumber : modeOf (Config.modeNumber md) = some md := modeOf_eq_some_iff.2 rfl
  have hfitted : checkFitted md s = none := checkFitted_none_iff.2 ⟨hvalid, hmode⟩
  rw [exec, execScan, withMode, hnumber]
  simp only [checked, firstErr, hready.checkRate_none, hready.checkDepth_none, hfitted]

/-- Settles O30: the checks pass, and the pending tones fit the buffer. -/
theorem scanAppendsScanTones : Obligations.ScanAppendsScanTones := by
  intro s md hready hvalid hmode hcap
  rw [exec_scan_of_ready hready hvalid hmode, emitPending_of_fits hcap, appendOutput_eq_afterTones]

/-! ### The number of tones (R104) -/

/-- Settles O55: the rows of a mode are of one length, and mode A has its initial sync before them. -/
theorem scanToneCounts : Obligations.ScanToneCounts := by
  intro s
  refine ⟨?_, ?_, ?_, ?_⟩
  · rw [scanTones_a, List.length_append, flatten_rows_length fun r _ => rowA_length s r, List.length_singleton]
  · rw [scanTones_b, flatten_rows_length fun r _ => rowB_length s r]
  · rw [scanTones_c, flatten_rows_length fun p hp => pairC_length s (r := 2 * p) (by omega)]
  · rw [scanTones_d, flatten_rows_length fun r _ => rowD_length s r]

/-! ### A tone with an explicit start phase (R62, R98) -/

/-- A tone whose start phase is given takes nothing but the carry from the synthesizer. -/
theorem emitTone_congr_of_phi {t : Tone} {phi : Binary64} (ht : t.phi = some phi) (sr : Binary64) {syn syn' : Syn}
    (hcarry : syn.carry = syn'.carry) : emitTone sr syn t = emitTone sr syn' t := by
  simp only [emitTone, ht, startPhase, hcarry]

/-- Settles O59: the initial sync has its start phase given, and the rows follow from the state it leaves. -/
theorem modeAStartsAtPhaseZero : Obligations.ModeAStartsAtPhaseZero := by
  intro s sr syn syn' hcarry
  have hsync : emitTone sr syn initialSync = emitTone sr syn' initialSync :=
    emitTone_congr_of_phi (phi := 0#64) rfl sr hcarry
  rw [scanTones_a, List.singleton_append, emitTones_cons, emitTones_cons, hsync]

end Sys2Proof.Machine

/-! SUPPORT. Lemmas of the orchestrator family (spec/45_orchestrator.md): the command END_TONES, the outputs that CLEAR
leaves, and the two outcomes of RUN with its frame. -/

namespace Sys2Proof.Machine

/-! ### END_TONES (R105, R106) -/

/-- END_TONES on a legal setting emits the five end tones. -/
theorem exec_endTones_of_ready {s : State} (hready : readyToEmit s) :
    exec .endTones s = .next (emitPending s (tonesOf endTable)) := by
  rw [exec, execEndTones, endTones_eq]
  simp only [checked, firstErr, hready.checkRate_none, hready.checkDepth_none]

/-- Settles O29: the checks pass, and the pending tones fit the buffer. -/
theorem endTonesAppendsFive : Obligations.EndTonesAppendsFive := by
  intro s hready hcap
  rw [exec_endTones_of_ready hready, emitPending_of_fits hcap, appendOutput_eq_afterTones]

/-! ### CLEAR (R110) -/

/-- After CLEAR every register that the host does not write reads what it reads after reset. -/
theorem readReg_clear (s : State) {r : Reg} (h : hostWritable r = false) :
    readReg (clearOutputs (clearErr s)) r = readReg State.reset r := by
  cases r with
  | sampleRate | bitDepth | srcW | srcH | hostTimeLo | hostTimeHi | opfLo | opfHi | opdLo | opdHi | oppLo | oppHi =>
    cases h
  | _ => rfl

/-- So does every offset that names no such register; a reserved one reads 0 in every state. -/
theorem readRegAt_clear (s : State) {k : Nat} (hk : ∀ r, regAt k = some r → hostWritable r = false) :
    readRegAt (clearOutputs (clearErr s)) k = readRegAt State.reset k := by
  cases hr : regAt k with
  | none => rw [readRegAt_of_none hr, readRegAt_of_none hr]
  | some r => rw [readRegAt_of_some hr, readRegAt_of_some hr, readReg_clear s (hk r hr)]

/-- The host writes no register at offset 0x048 or above. -/
theorem hostWritable_of_regAt {k : Nat} {r : Reg} (hr : regAt k = some r) (hk : 0x048 ≤ k) :
    hostWritable r = false := by
  have hall : ∀ row ∈ regTable, 0x048 ≤ row.1 → hostWritable row.2 = false := by decide
  exact hall _ (regAt_mem hr) hk

/-- With no canvas fitted the canvas window reads as draws (R34). -/
theorem memByte_canvas_not_fitted {s : State} {a : Nat} (hv : s.fitValid = false) (h1 : canvasBase ≤ a)
    (h2 : a < canvasBase + canvasSize) : memByte s a = Config.draw s.draws a := by
  have hsrc : ¬ (srcBase ≤ a ∧ a < srcBase + srcSize) := by
    unfold canvasBase at h1
    unfold srcBase srcSize
    omega
  rw [memByte, if_neg hsrc, if_pos ⟨h1, h2⟩, canvasHostByte, hv, if_neg (by simp)]

/-- Settles O25: CLEAR is `clearOutputs` after `clearErr`, and its outputs are those of reset. -/
theorem clearClearsEveryOutput : Obligations.ClearClearsEveryOutput := by
  obtain ⟨-, hcos, hzero⟩ := registerResetColumn
  refine ⟨by decide, fun s => ⟨_, rfl, rfl, fun k hlow hhigh => ?_, ?_, ?_, fun a hlow hhigh => ?_⟩⟩
  · rw [readRegAt_clear s fun r hr => hostWritable_of_regAt hr (by omega)]
    exact hzero k hhigh (by omega) (by omega)
  · rw [readRegAt_clear s (by decide)]
    exact hzero 0x004 (by decide) (by decide) (by decide)
  · rw [readRegAt_clear s (by decide), hcos]
  · exact memByte_canvas_not_fitted (clearOutputs_fitValid _) hlow hhigh

/-! ### The outcomes of RUN (R108, R114, R115) -/

/-- The record that RUN raises, if any; CheckCap never fails (R107). -/
def runError (m : Nat) (s : State) : Option ErrRecord :=
  match modeOf m with
  | none => some (errMode m)
  | some _ => firstErr [checkRate s, checkDepth s, checkSource s]

/-- RUN raises a record and changes nothing else, or runs on a legal setting. -/
theorem exec_run_cases (m : Nat) (s : State) :
    (∃ e, runError m s = some e ∧ raisable e ∧ exec (.run m) s = .next (raiseErr s e)) ∨
    (∃ md, m = Config.modeNumber md ∧ runError m s = none ∧ readyToEmit s ∧ sourceOk s) := by
  rw [exec, execRun, runError, withMode]
  cases hm : modeOf m with
  | none => exact Or.inl ⟨_, rfl, raisable_errMode m, rfl⟩
  | some md =>
    simp only [checked]
    cases he : firstErr [checkRate s, checkDepth s, checkSource s] with
    | some e =>
      refine Or.inl ⟨e, rfl, ?_, rfl⟩
      have hmem := firstErr_mem he
      simp only [List.mem_cons, List.not_mem_nil, or_false] at hmem
      rcases hmem with h | h | h
      · exact raisable_checkRate h.symm
      · exact raisable_checkDepth h.symm
      · exact raisable_checkSource h.symm
    | none =>
      have hall := firstErr_none_iff.1 he
      simp only [List.forall_mem_cons, checkRate_none_iff, checkDepth_none_iff, checkSource_none_iff] at hall
      obtain ⟨⟨hlow, hhigh⟩, hdepth, hsource, -⟩ := hall
      exact Or.inr ⟨md, modeOf_eq_some_iff.1 hm, rfl, ⟨hlow, hhigh, hdepth⟩, hsource⟩

/-- A finished run shows in the sample window only. -/
theorem memByte_finishRun (s : State) (out : Syn × List Sample) {a : Nat}
    (h : ¬ (sampleBase ≤ a ∧ a < sampleBase + sampleSize)) : memByte (finishRun s out) a = memByte s a :=
  memByte_congr (finishRun_draws s out) (finishRun_src s out) (fun _ => rfl) fun hs => absurd hs h

/-- Settles O39: an error leaves all memory; a fit and a finished run each show in their own window. -/
theorem runFrame : Obligations.RunFrame := by
  intro m s t h
  rcases exec_run_cases m s with ⟨e, -, -, hrun⟩ | ⟨md, rfl, -, hready, hsource⟩
  · cases hrun.symm.trans h
    exact ⟨(rfl), fun a _ _ => memByte_raiseErr s e a⟩
  · cases (exec_run_of_ready md hready hsource).symm.trans h
    exact ⟨(rfl), fun a hc hs => (memByte_finishRun _ _ hs).trans (memByte_applyFit s md hc)⟩

end Sys2Proof.Machine

/-! SUPPORT. Lemmas of the orchestrator family (spec/45_orchestrator.md): a scan reads the pixels of its canvas and
nothing else of the state, so the outputs of a RUN come from its inputs alone (R108, R111). -/

namespace Sys2Proof.Machine

/-! ### A scan reads the pixels of its canvas (R61, R97 to R101) -/

/-- The canvas pixels of a `w` x `h` image are those of the other state. -/
def SamePixels (s s' : State) (w h : Nat) : Prop :=
  ∀ x y c, x < w → y < h → c < 3 → canvasAt s x y c = canvasAt s' x y c

theorem pixelTones_congr {w r dn dd : Nat} {v v' : Nat → Nat → Binary64} (h : ∀ x, x < w → v x r = v' x r) :
    pixelTones w r v dn dd = pixelTones w r v' dn dd :=
  List.map_congr_left fun x hx => by rw [h x (List.mem_range.1 hx)]

theorem flatten_rows_congr {n : Nat} {row row' : Nat → List Tone} (h : ∀ r, r < n → row r = row' r) :
    ((List.range n).map row).flatten = ((List.range n).map row').flatten :=
  congrArg List.flatten (List.map_congr_left fun r hr => h r (List.mem_range.1 hr))

namespace SamePixels

variable {s s' : State} {w h : Nat}

section Channels

variable (hp : SamePixels s s' w h) {x y : Nat} (hx : x < w) (hy : y < h)
include hp hx hy

theorem chanR_eq : chanR s x y = chanR s' x y := congrArg f64OfByte (hp x y 0 hx hy (by decide))
theorem chanG_eq : chanG s x y = chanG s' x y := congrArg f64OfByte (hp x y 1 hx hy (by decide))
theorem chanB_eq : chanB s x y = chanB s' x y := congrArg f64OfByte (hp x y 2 hx hy (by decide))

theorem chanY_eq : chanY s x y = chanY s' x y := by
  rw [chanY, chanY, hp.chanR_eq hx hy, hp.chanG_eq hx hy, hp.chanB_eq hx hy]

theorem chanRY_eq : chanRY s x y = chanRY s' x y := by
  rw [chanRY, chanRY, hp.chanR_eq hx hy, hp.chanG_eq hx hy, hp.chanB_eq hx hy]

theorem chanBY_eq : chanBY s x y = chanBY s' x y := by
  rw [chanBY, chanBY, hp.chanR_eq hx hy, hp.chanG_eq hx hy, hp.chanB_eq hx hy]

theorem chanRYa_eq : chanRYa s h x y = chanRYa s' h x y := by
  rw [chanRYa, chanRYa, hp.chanRY_eq hx hy, hp.chanRY_eq hx (nextRow_lt hy)]

theorem chanBYa_eq : chanBYa s h x y = chanBYa s' h x y := by
  rw [chanBYa, chanBYa, hp.chanBY_eq hx hy, hp.chanBY_eq hx (nextRow_lt hy)]

end Channels

section Rows

variable (hp : SamePixels s s' w h) {r : Nat} (hr : r < h)
include hp hr

theorem rowA_eq : rowA s w r = rowA s' w r := by
  rw [rowA, rowA, pixelTones_congr fun _ hx => hp.chanG_eq hx hr, pixelTones_congr fun _ hx => hp.chanB_eq hx hr,
    pixelTones_congr fun _ hx => hp.chanR_eq hx hr]

theorem rowB_eq : rowB s w h r = rowB s' w h r := by
  rw [rowB, rowB, pixelTones_congr fun _ hx => hp.chanY_eq hx hr, pixelTones_congr fun _ hx => hp.chanRYa_eq hx hr,
    pixelTones_congr fun _ hx => hp.chanBYa_eq hx hr]

theorem pairC_eq : pairC s w h r = pairC s' w h r := by
  rw [pairC, pairC, pixelTones_congr fun _ hx => hp.chanY_eq hx hr, pixelTones_congr fun _ hx => hp.chanRYa_eq hx hr,
    pixelTones_congr fun _ hx => hp.chanBYa_eq hx hr]
  split_ifs with hnext
  · rw [pixelTones_congr fun _ hx => hp.chanY_eq hx hnext]
  · rfl

theorem rowD_eq : rowD s w r = rowD s' w r := by
  rw [rowD, rowD, pixelTones_congr fun _ hx => hp.chanG_eq hx hr, pixelTones_congr fun _ hx => hp.chanB_eq hx hr,
    pixelTones_congr fun _ hx => hp.chanR_eq hx hr]

end Rows

/-- A scan emits the same tones where its canvas has the same pixels. -/
theorem scanTones_eq {md : Mode} (hp : SamePixels s s' (Config.modeW md) (Config.modeH md)) :
    scanTones s md = scanTones s' md := by
  rw [scanTones, scanTones]
  refine congrArg _ ?_
  cases md with
  | a => exact flatten_rows_congr fun r hr => hp.rowA_eq hr
  | b => exact flatten_rows_congr fun r hr => hp.rowB_eq hr
  | c =>
    rw [scanRows, scanRows]
    exact flatten_rows_congr fun p hlt => hp.pairC_eq (by omega)
  | d => exact flatten_rows_congr fun r hr => hp.rowD_eq hr

end SamePixels

/-- States with one canvas, fitted for one mode, scan alike; the event number draws the bytes that it lacks (log 8). -/
theorem scanTones_congr {s s' : State} {md : Mode} (hcanvas : s.canvas = s'.canvas) (hmode : s.fitMode = s'.fitMode)
    (hdraws : s.draws = s'.draws) : scanTones s md = scanTones s' md :=
  SamePixels.scanTones_eq fun x y c _ _ _ => by
    rw [canvasAt, canvasAt, canvasCell, canvasCell, hcanvas, hmode, hdraws]

/-! ### The inputs of RUN (R108) -/

/-- The two states agree on what RUN reads: the rate, the depth, the dimensions and bytes of the source, HOST_TIME. -/
structure SameInputs (s s' : State) : Prop where
  sampleRate : s.sampleRate = s'.sampleRate
  bitDepth : s.bitDepth = s'.bitDepth
  srcW : s.srcW = s'.srcW
  srcH : s.srcH = s'.srcH
  hostTime : s.hostTime = s'.hostTime
  bytes : ∀ k, k < 3 * (s.srcW.toNat * s.srcH.toNat) → memByte s (srcBase + k) = memByte s' (srcBase + k)

/-- A pixel of a fitted canvas, whatever the canvas held before (R91). -/
theorem canvasAt_applyFit (s : State) (md : Mode) {x y c : Nat} (hx : x < Config.modeW md) (hy : y < Config.modeH md)
    (hc : c < 3) : canvasAt (applyFit s md) x y c = fittedByte (sourceImage s) s.srcW.toNat s.srcH.toNat md x y c := by
  rw [canvasAt, applyFit_fitMode, canvasCell, applyFit_canvas, fittedCanvas,
    memLookup_canvasOf_pixel _ _ _ _ hx hy hc, Option.getD_some]

namespace SameInputs

variable {s s' : State} (hin : SameInputs s s')
include hin

theorem runError_eq (m : Nat) : runError m s = runError m s' := by
  have hrate : checkRate s = checkRate s' := by rw [checkRate, checkRate, hin.sampleRate]
  have hdepth : checkDepth s = checkDepth s' := by rw [checkDepth, checkDepth, hin.bitDepth]
  have hsource : checkSource s = checkSource s' := by
    rw [checkSource, checkSource, srcPixels, srcPixels, hin.srcW, hin.srcH]
  rw [runError, runError, hrate, hdepth, hsource]

theorem rateF_eq : rateF s = rateF s' := by rw [rateF, rateF, hin.sampleRate]

theorem fitRecord_eq (md : Mode) : fitRecord s md = fitRecord s' md := by
  simp only [fitRecord, hin.srcW, hin.srcH, hin.hostTime]

theorem sourceImage_eq (hs : sourceOk s) (hs' : sourceOk s') : sourceImage s = sourceImage s' := by
  rw [sourceImage_eq_memByte hs, sourceImage_eq_memByte hs', ← hin.srcW, ← hin.srcH]
  exact List.map_congr_left fun k hk => hin.bytes k (List.mem_range.1 hk)

theorem fittedCanvas_eq (hs : sourceOk s) (hs' : sourceOk s') (md : Mode) : fittedCanvas s md = fittedCanvas s' md := by
  rw [fittedCanvas, fittedCanvas, hin.sourceImage_eq hs hs', hin.srcW, hin.srcH]

/-- The two fitted canvases have the same pixels. -/
theorem samePixels_applyFit (hs : sourceOk s) (hs' : sourceOk s') (md : Mode) :
    SamePixels (applyFit s md) (applyFit s' md) (Config.modeW md) (Config.modeH md) := by
  intro x y c hx hy hc
  rw [canvasAt_applyFit s md hx hy hc, canvasAt_applyFit s' md hx hy hc, hin.sourceImage_eq hs hs', hin.srcW, hin.srcH]

theorem runTones_eq (hs : sourceOk s) (hs' : sourceOk s') (md : Mode) :
    runTones (applyFit s md) md = runTones (applyFit s' md) md := by
  rw [runTones, runTones, (hin.samePixels_applyFit hs hs' md).scanTones_eq]

end SameInputs

/-- Settles O34: the same inputs raise the same record, or fit the same canvas and emit the same tones. -/
theorem runIgnoresEarlierOutputs : Obligations.RunIgnoresEarlierOutputs := by
  intro s s' t t' m hrate hdepth hw hh htime hbytes ht ht'
  have hin : SameInputs s s' := ⟨hrate, hdepth, hw, hh, htime, hbytes⟩
  have herror := hin.runError_eq m
  rcases exec_run_cases m s with ⟨e, he, hraise, hrun⟩ | ⟨md, rfl, hnone, hready, hsource⟩
  · rcases exec_run_cases m s' with ⟨e', he', -, hrun'⟩ | ⟨-, -, hnone', -, -⟩
    · obtain rfl : e = e' := Option.some.inj (he.symm.trans (herror.trans he'))
      cases hrun.symm.trans ht
      cases hrun'.symm.trans ht'
      exact ⟨rfl, fun hok => absurd hok hraise.1⟩
    · exact absurd (he.symm.trans (herror.trans hnone')) (by simp)
  · have hready' : readyToEmit s' := by rwa [readyToEmit, ← hrate, ← hdepth]
    have hsource' : sourceOk s' := by rwa [sourceOk, ← hw, ← hh]
    cases (exec_run_of_ready md hready hsource).symm.trans ht
    cases (exec_run_of_ready md hready' hsource').symm.trans ht'
    simp [hin.rateF_eq, hin.runTones_eq hsource hsource' md, hin.fittedCanvas_eq hsource hsource' md,
      hin.fitRecord_eq md, hrate, hw, hh]

end Sys2Proof.Machine

/-! SUPPORT. Lemmas of the orchestrator family (spec/45_orchestrator.md): the standalone commands of program P5 build a
run tone list by tone list (R133 of spec/70_reset_and_hazards.md, spec/95_test_vectors.md section 4). -/

namespace Sys2Proof.Machine

/-! ### A state after some tones -/

/-- The buffer holds the samples of the tones `ts`. -/
def Fits (s : State) (ts : List Tone) : Prop :=
  s.buf.length + (emitTones (rateF s) s.syn ts).2.length ≤ Config.bufCap

theorem Fits.left {s : State} {as bs : List Tone} (h : Fits s (as ++ bs)) : Fits s as := by
  rw [Fits, emitTones_append, List.length_append] at h
  rw [Fits]
  omega

theorem readyToEmit_afterTones {s : State} {ts : List Tone} : readyToEmit (afterTones s ts) ↔ readyToEmit s := Iff.rfl

theorem sourceOk_afterTones {s : State} {ts : List Tone} : sourceOk (afterTones s ts) ↔ sourceOk s := Iff.rfl

theorem fits_applyFit {s : State} {md : Mode} {ts : List Tone} : Fits (applyFit s md) ts ↔ Fits s ts := Iff.rfl

/-- Two lists of tones one after the other leave what their concatenation leaves (R62, R73). -/
theorem afterTones_append (s : State) (as bs : List Tone) :
    afterTones (afterTones s as) bs = afterTones s (as ++ bs) := by
  have hrate : rateF (appendOutput s (emitTones (rateF s) s.syn as)) = rateF s := (rfl)
  simp only [← appendOutput_eq_afterTones, hrate, emitTones_append]
  apply State.ext_fields <;> simp

/-- Emitting where some tones were emitted before. -/
theorem emitPending_afterTones {s : State} {as bs : List Tone} (h : Fits s (as ++ bs)) :
    emitPending (afterTones s as) bs = afterTones s (as ++ bs) := by
  rw [Fits, emitTones_append, List.length_append, ← Nat.add_assoc, ← List.length_append] at h
  rw [emitPending_of_fits h, appendOutput_eq_afterTones, afterTones_append]

/-- A fit and an emission write different fields. -/
theorem applyFit_afterTones (s : State) (md : Mode) (ts : List Tone) :
    applyFit (afterTones s ts) md = afterTones (applyFit s md) ts := by
  have hcanvas : fittedCanvas (appendOutput s (emitTones (rateF s) s.syn ts)) md = fittedCanvas s md := (rfl)
  have hrecord : fitRecord (appendOutput s (emitTones (rateF s) s.syn ts)) md = fitRecord s md := (rfl)
  have hrate : rateF (applyFit s md) = rateF s := (rfl)
  simp only [← appendOutput_eq_afterTones]
  apply State.ext_fields <;> simp [hcanvas, hrecord, hrate]

theorem scanTones_afterTones (s : State) (md : Mode) (ts : List Tone) :
    scanTones (afterTones s ts) md = scanTones s md := scanTones_congr rfl rfl rfl

/-! ### The commands of the sequence -/

theorem runCommands_cons {i : Instr} {s t : State} (h : exec i s = .next t) (is : List Instr) :
    runCommands (i :: is) s = runCommands is t := by
  rw [runCommands, h]

/-- EMIT of 200 ms at 0 Hz on a legal setting (R107). -/
theorem exec_emit_silence {s : State} (hready : readyToEmit s) (hf : s.opf = f64OfNat 0) (hd : s.opd = f64OfNat 200) :
    exec .emit s = .next (emitPending s [plainTone 0 200]) := by
  have hfreq : checkFreq (f64OfNat 0) = none := checkFreq_none_iff.2 (f64OfNat_finite (by decide))
  have hdur : checkDur (f64OfNat 200) = none := checkDur_none_iff.2 (f64Nonneg_ofNat (by decide))
  rw [exec, execEmit, hf, hd]
  simp only [checked, firstErr, hready.checkRate_none, hready.checkDepth_none, hfreq, hdur]
  rfl

/-- The six commands of P5 after its clears leave the canvas of the mode and the tones of a run, if these fit the
buffer: each emits one more part of the list. -/
theorem runCommands_runTones {s : State} {md : Mode} (hready : readyToEmit s) (hsource : sourceOk s)
    (hf : s.opf = f64OfNat 0) (hd : s.opd = f64OfNat 200) (hfits : Fits s (runTones (applyFit s md) md)) :
    runCommands [.emit, .vis (Config.modeNumber md), .fit (Config.modeNumber md), .scan (Config.modeNumber md),
        .endTones, .emit] s
      = some (afterTones (applyFit s md) (runTones (applyFit s md) md)) := by
  have hready' : readyToEmit (applyFit s md) := hready
  rw [runTones_eq] at hfits ⊢
  have hend := hfits.left
  have hscan := hend.left
  have hvis := hscan.left
  have hsilence : emitPending s [plainTone 0 200] = afterTones s [plainTone 0 200] := emitPending_of_fits hvis.left
  rw [runCommands_cons (exec_emit_silence hready hf hd), hsilence]
  rw [runCommands_cons (exec_vis_of_ready md (readyToEmit_afterTones.2 hready)), emitPending_afterTones hvis]
  rw [runCommands_cons (exec_fit_of_sourceOk md (sourceOk_afterTones.2 hsource)), applyFit_afterTones]
  rw [runCommands_cons (exec_scan_of_ready (readyToEmit_afterTones.2 hready') (applyFit_fitValid s md)
    (applyFit_fitMode s md)), scanTones_afterTones, emitPending_afterTones (fits_applyFit.2 hscan)]
  rw [runCommands_cons (exec_endTones_of_ready (readyToEmit_afterTones.2 hready')),
    emitPending_afterTones (fits_applyFit.2 hend)]
  rw [runCommands_cons (exec_emit_silence (readyToEmit_afterTones.2 hready') hf hd),
    emitPending_afterTones (fits_applyFit.2 hfits), runCommands]

/-- The state after SYNTH_CLEAR and BUF_CLEAR (R75, R77). -/
def cleanSlate (s : State) : State := { s with err := ErrRecord.ok, syn := Syn.fresh, buf := [], outValid := false }

theorem runCommands_clears (s : State) (is : List Instr) :
    runCommands (.synthClear :: .bufClear :: is) s = runCommands is (cleanSlate s) := by
  have hbuf : exec .bufClear (freshSyn (clearErr s)) = .next (cleanSlate s) := rfl
  rw [runCommands_cons (t := freshSyn (clearErr s)) rfl, runCommands_cons hbuf]

theorem applyFit_cleanSlate (s : State) (md : Mode) : applyFit (cleanSlate s) md = cleanSlate (applyFit s md) := by
  have hcanvas : fittedCanvas (cleanSlate s) md = fittedCanvas s md := (rfl)
  have hrecord : fitRecord (cleanSlate s) md = fitRecord s md := (rfl)
  rw [applyFit, hcanvas, hrecord]
  rfl

theorem runTones_cleanSlate (s : State) (md : Mode) : runTones (cleanSlate s) md = runTones s md := by
  have hscan : scanTones (cleanSlate s) md = scanTones s md :=
    scanTones_congr (s := cleanSlate s) (s' := s) rfl rfl rfl
  rw [runTones, runTones, hscan]

/-- From a clean slate the tones of a run leave what RUN leaves, but for OUT_VALID and OUT_SR. -/
theorem afterTones_cleanSlate (s : State) (ts : List Tone) : afterTones (cleanSlate s) ts =
    { finishRun s (emitTones (rateF s) Syn.fresh ts) with outValid := false, outSr := s.outSr } := (rfl)

/-- Settles O33: from a clean slate the commands emit the tones of the run, and these fit the buffer. -/
theorem standaloneSequenceEqualsRun : Obligations.StandaloneSequenceEqualsRun := by
  intro s t md hf hd ht hok
  rcases exec_run_cases (Config.modeNumber md) s with ⟨e, -, hraise, hrun⟩ | ⟨-, -, -, hready, hsource⟩
  · cases hrun.symm.trans ht
    exact absurd hok hraise.1
  cases (exec_run_of_ready md hready hsource).symm.trans ht
  have htones : runTones (applyFit (cleanSlate s) md) md = runTones (applyFit s md) md := by
    rw [applyFit_cleanSlate, runTones_cleanSlate]
  have hfits : Fits (cleanSlate s) (runTones (applyFit (cleanSlate s) md) md) := by
    obtain ⟨-, hhigh, -⟩ := hready
    simpa [Fits, cleanSlate] using run_samples_le md (s := cleanSlate s) hhigh _
  have hrun := runCommands_runTones (s := cleanSlate s) hready hsource hf hd hfits
  rw [htones, applyFit_cleanSlate, afterTones_cleanSlate] at hrun
  refine ⟨_, ?_, rfl⟩
  rwa [runCommands_clears]

end Sys2Proof.Machine

/-! SUPPORT. Lemmas of the exceptions family (spec/60_exceptions.md): no command reads the error record it finds, the
record that each failing check raises, and the order of the checks. -/

namespace Sys2Proof.Machine

/-! ### No command reads the error record (R112, R118) -/

theorem raiseErr_raiseErr (s : State) (e e' : ErrRecord) : raiseErr (raiseErr s e) e' = raiseErr s e' := (rfl)

theorem checked_raiseErr {cs : List (Option ErrRecord)} {s effect effect' : State} (e : ErrRecord)
    (h : effect = effect') : checked cs (raiseErr s e) effect = checked cs s effect' := by
  rw [h, checked, checked]
  cases firstErr cs with
  | none => rfl
  | some e' => exact raiseErr_raiseErr s e e'

theorem withMode_raiseErr {m : Nat} {s : State} {effect effect' : Mode → State} (e : ErrRecord)
    (h : ∀ md, effect md = effect' md) : withMode m (raiseErr s e) effect = withMode m s effect' := by
  rw [withMode, withMode]
  cases modeOf m with
  | none => exact raiseErr_raiseErr s e _
  | some md => exact h md

theorem rateF_raiseErr (s : State) (e : ErrRecord) : rateF (raiseErr s e) = rateF s := (rfl)

theorem appendOutput_raiseErr (s : State) (e : ErrRecord) (out : Syn × List Sample) :
    appendOutput (raiseErr s e) out = appendOutput s out := (rfl)

theorem emitPending_raiseErr (s : State) (e : ErrRecord) (ts : List Tone) :
    emitPending (raiseErr s e) ts = emitPending s ts := by
  rw [emitPending, emitPending, rateF_raiseErr, raiseErr_buf, raiseErr_syn, raiseErr_raiseErr, appendOutput_raiseErr]

theorem scanTones_raiseErr (s : State) (e : ErrRecord) (md : Mode) :
    scanTones (raiseErr s e) md = scanTones s md := scanTones_congr rfl rfl rfl

theorem applyFit_raiseErr (s : State) (e : ErrRecord) (md : Mode) : applyFit (raiseErr s e) md = applyFit s md := by
  have hcanvas : fittedCanvas (raiseErr s e) md = fittedCanvas s md := (rfl)
  have hrecord : fitRecord (raiseErr s e) md = fitRecord s md := (rfl)
  rw [applyFit, hcanvas, hrecord]
  rfl

theorem runSequence_raiseErr (s : State) (e : ErrRecord) (md : Mode) :
    runSequence (raiseErr s e) md = runSequence s md := by
  have hcount : runCount (raiseErr s e) md = runCount s md := by
    rw [runCount, runCount, rateF_raiseErr, applyFit_raiseErr]
  rw [runSequence, runSequence, hcount, rateF_raiseErr, applyFit_raiseErr, raiseErr_raiseErr]

/-- The outcome of a command does not depend on the error record that it finds. -/
theorem exec_raiseErr (i : Instr) (s : State) (e : ErrRecord) : exec i (raiseErr s e) = exec i s := by
  cases i with
  | nop | synthClear | bufClear | clear => rfl
  | emit | emitPhi | endTones =>
    exact congrArg Host.Outcome.next (checked_raiseErr e (emitPending_raiseErr s e _))
  | vis m =>
    exact congrArg Host.Outcome.next (withMode_raiseErr e fun md =>
      checked_raiseErr e (emitPending_raiseErr s e (visTones md)))
  | fit m =>
    exact congrArg Host.Outcome.next (withMode_raiseErr e fun md => checked_raiseErr e (applyFit_raiseErr s e md))
  | scan m =>
    exact congrArg Host.Outcome.next (withMode_raiseErr e fun md =>
      checked_raiseErr e (by rw [emitPending_raiseErr, scanTones_raiseErr]))
  | run m =>
    exact congrArg Host.Outcome.next (withMode_raiseErr e fun md => checked_raiseErr e (runSequence_raiseErr s e md))

/-- Settles O8: a command's checks and its effect both answer a state. -/
theorem everyCommandAnswersNext : Obligations.EveryCommandAnswersNext := by
  intro i s
  obtain ⟨t, ht, -⟩ := exec_cases i s
  exact ⟨t, ht⟩

/-- Settles O16: what is raised changes only the record, which no later command reads. -/
theorem failingCommandLeavesAllElse : Obligations.FailingCommandLeavesAllElse := by
  intro i s t h hcode
  rcases exec_next h with ⟨e, -, rfl⟩ | heff
  · exact ⟨rfl, fun j => exec_raiseErr j s e⟩
  · exact absurd (congrArg ErrRecord.code heff.err) hcode

/-- Settles O17: a command raises one of the records with a code 1 to 8, or clears the record. -/
theorem everyCommandRewritesErrorRecord : Obligations.EveryCommandRewritesErrorRecord := by
  intro i s t h
  have hindep : ∀ e, exec i { s with err := e } = .next t := fun e => (exec_raiseErr i s e).trans h
  rcases exec_next h with ⟨e, ⟨hne, hle⟩, rfl⟩ | heff
  · exact ⟨hle, fun h0 => absurd h0 hne, hindep⟩
  · rw [heff.err]
    exact ⟨by decide, fun _ => rfl, hindep⟩

/-! ### The records of the failing checks (R113, R114) -/

theorem checkRate_of_illegal {s : State} (h : s.sampleRate.toNat < 8000 ∨ 192000 < s.sampleRate.toNat) :
    checkRate s = some { code := 2#8, value := s.sampleRate, min := 8000#32, max := 192000#32 } := by
  rw [checkRate, errRate, mkErr, BitVec.ofNat_toNat, BitVec.setWidth_eq]
  exact if_pos h

theorem checkDepth_of_illegal {s : State} (h : s.bitDepth ≠ 16#32) :
    checkDepth s = some { code := 3#8, value := s.bitDepth, min := 16#32, max := 16#32 } := by
  have hne : ¬ s.bitDepth.toNat = Config.bitDepthLegal := fun heq => h (BitVec.eq_of_toNat_eq heq)
  rw [checkDepth, errDepth, mkErr, BitVec.ofNat_toNat, BitVec.setWidth_eq, if_neg hne]
  rfl

theorem checkSource_of_bad {s : State}
    (h : s.srcW.toNat * s.srcH.toNat < 1 ∨ srcMaxPixels < s.srcW.toNat * s.srcH.toNat) :
    checkSource s = some { code := 5#8, value := BitVec.ofNat 32 (min (s.srcW.toNat * s.srcH.toNat) 4294967295),
                           min := 1#32, max := BitVec.ofNat 32 srcMaxPixels } := if_pos h

theorem checkFitted_of_missing {s : State} {md : Mode} (h : s.fitValid = false ∨ s.fitMode ≠ md) :
    checkFitted md s = some { code := 6#8, value := BitVec.ofNat 32 (Config.modeNumber md),
                              min := if s.fitValid then 1#32 else 0#32,
                              max := BitVec.ofNat 32 (Config.modeNumber s.fitMode) } := by
  have hmissing : ¬ (s.fitValid = true ∧ s.fitMode = md) := by
    rintro ⟨hvalid, hmode⟩
    exact h.elim (fun hfalse => by simp [hvalid] at hfalse) fun hne => hne hmode
  rw [checkFitted, if_neg hmissing, errNoImage, mkErr, apply_ite (BitVec.ofNat 32)]

theorem checkFreq_of_not_finite {f : Binary64} (h : f64IsFinite f = false) :
    checkFreq f = some { code := 7#8, value := 1#32, min := 0#32, max := 0#32 } := if_neg (by simp [h])

theorem checkDur_of_bad {d : Binary64} (h : f64IsFinite d = false ∨ f64Lt d 0#64 = true) :
    checkDur d = some { code := 7#8, value := 2#32, min := 0#32, max := 0#32 } :=
  if_neg (by rcases h with h | h <;> simp [h])

theorem checkPhase_of_not_finite {p : Binary64} (h : f64IsFinite p = false) :
    checkPhase p = some { code := 7#8, value := 3#32, min := 0#32, max := 0#32 } := if_neg (by simp [h])

/-- A full buffer is one that the counted samples overflow (R114). -/
theorem emitPending_of_overflow {s : State} {ts : List Tone}
    (h : 134217728 < s.buf.length + (emitTones (rateF s) s.syn ts).2.length) :
    emitPending s ts = overflowed s (s.buf.length + (emitTones (rateF s) s.syn ts).2.length) := by
  rw [emitTones_length] at h ⊢
  exact if_pos h

/-! ### The order of the checks (R115) -/

/-- The first check that fails raises its record; those after it are not evaluated. -/
theorem checked_cons_some (e : ErrRecord) (cs : List (Option ErrRecord)) (s effect : State) :
    checked (some e :: cs) s effect = raiseErr s e := (rfl)

theorem checked_cons_none (cs : List (Option ErrRecord)) (s effect : State) :
    checked (none :: cs) s effect = checked cs s effect := (rfl)

theorem withMode_modeNumber (md : Mode) (s : State) (effect : Mode → State) :
    withMode (Config.modeNumber md) s effect = effect md := by
  rw [withMode, modeOf_eq_some_iff.2 rfl]

/-- An emitting command of a supported mode checks the rate, then the depth, before anything else. -/
theorem exec_emitter_checked {i : Instr} {m : Nat} (hm : m < 4) (s : State)
    (hi : i ∈ [Instr.emit, Instr.emitPhi, Instr.vis m, Instr.scan m, Instr.endTones, Instr.run m]) :
    ∃ cs effect, exec i s = .next (checked (checkRate s :: checkDepth s :: cs) s effect) := by
  obtain ⟨md, hmd⟩ := Option.ne_none_iff_exists'.1 (fun hnone => Nat.not_le.2 hm (modeOf_eq_none_iff.1 hnone))
  obtain rfl := modeOf_eq_some_iff.1 hmd
  simp only [List.mem_cons, List.not_mem_nil, or_false] at hi
  rcases hi with rfl | rfl | rfl | rfl | rfl | rfl
  · exact ⟨_, _, rfl⟩
  · exact ⟨_, _, rfl⟩
  · exact ⟨_, _, congrArg _ (withMode_modeNumber md s _)⟩
  · exact ⟨_, _, congrArg _ (withMode_modeNumber md s _)⟩
  · exact ⟨_, _, rfl⟩
  · exact ⟨_, _, congrArg _ (withMode_modeNumber md s _)⟩

/-- Settles O19: these two checks come first, and the second only where the first passes. -/
theorem rateAndDepthRejected : Obligations.RateAndDepthRejected := by
  intro s m i hm hi
  obtain ⟨cs, effect, hexec⟩ := exec_emitter_checked hm s hi
  rw [hexec]
  refine ⟨fun hrate => ?_, fun hlow hhigh hdepth => ?_⟩
  · rw [checkRate_of_illegal hrate, checked_cons_some]
    rfl
  · rw [checkRate_none_iff.2 ⟨hlow, hhigh⟩, checked_cons_none, checkDepth_of_illegal hdepth, checked_cons_some]
    rfl

/-- Settles O20: the source is FIT's only check and RUN's third, the canvas SCAN's third. -/
theorem sourceAndCanvasRejected : Obligations.SourceAndCanvasRejected := by
  refine fun s md => ⟨fun hsource => ⟨?_, fun hready => ?_⟩, fun hready hcanvas => ?_⟩
  · rw [exec, execFit, withMode_modeNumber, checkSource_of_bad hsource, checked_cons_some]
    rfl
  · rw [exec, execRun, withMode_modeNumber, hready.checkRate_none, hready.checkDepth_none, checkSource_of_bad hsource,
      checked_cons_none, checked_cons_none, checked_cons_some]
    rfl
  · rw [exec, execScan, withMode_modeNumber, hready.checkRate_none, hready.checkDepth_none,
      checkFitted_of_missing hcanvas, checked_cons_none, checked_cons_none, checked_cons_some]
    rfl

/-! ### The operands of EMIT and EMIT_PHI (R114, R115) -/

/-- EMIT on a legal setting checks its frequency, then its duration. -/
theorem exec_emit_of_ready {s : State} (hready : readyToEmit s) : exec .emit s =
    .next (checked [checkFreq s.opf, checkDur s.opd] s (emitPending s [⟨s.opf, s.opd, none⟩])) := by
  rw [exec, execEmit, hready.checkRate_none, hready.checkDepth_none, checked_cons_none, checked_cons_none]

/-- EMIT_PHI checks its start phase after these. -/
theorem exec_emitPhi_of_ready {s : State} (hready : readyToEmit s) : exec .emitPhi s =
    .next (checked [checkFreq s.opf, checkDur s.opd, checkPhase s.opp] s
      (emitPending s [⟨s.opf, s.opd, some s.opp⟩])) := by
  rw [exec, execEmitPhi, hready.checkRate_none, hready.checkDepth_none, checked_cons_none, checked_cons_none]

/-- The two commands of one tone check their operands in one order. -/
theorem exec_oneTone_checked {s : State} (hready : readyToEmit s) {i : Instr} (hi : i ∈ [Instr.emit, Instr.emitPhi]) :
    ∃ cs effect, exec i s = .next (checked (checkFreq s.opf :: checkDur s.opd :: cs) s effect) := by
  simp only [List.mem_cons, List.not_mem_nil, or_false] at hi
  rcases hi with rfl | rfl
  · exact ⟨_, _, exec_emit_of_ready hready⟩
  · exact ⟨_, _, exec_emitPhi_of_ready hready⟩

section Operands
variable {s : State} (hready : readyToEmit s)
include hready

theorem exec_oneTone_bad_freq (hf : f64IsFinite s.opf = false) {i : Instr} (hi : i ∈ [Instr.emit, Instr.emitPhi]) :
    exec i s = .next { s with err := { code := 7#8, value := 1#32, min := 0#32, max := 0#32 } } := by
  obtain ⟨cs, effect, hexec⟩ := exec_oneTone_checked hready hi
  rw [hexec, checkFreq_of_not_finite hf, checked_cons_some]
  rfl

theorem exec_oneTone_bad_dur (hf : f64IsFinite s.opf = true)
    (hd : f64IsFinite s.opd = false ∨ f64Lt s.opd 0#64 = true) {i : Instr} (hi : i ∈ [Instr.emit, Instr.emitPhi]) :
    exec i s = .next { s with err := { code := 7#8, value := 2#32, min := 0#32, max := 0#32 } } := by
  obtain ⟨cs, effect, hexec⟩ := exec_oneTone_checked hready hi
  rw [hexec, checkFreq_none_iff.2 hf, checked_cons_none, checkDur_of_bad hd, checked_cons_some]
  rfl

variable (hf : f64IsFinite s.opf = true) (hd : F64Nonneg s.opd)
include hf hd

theorem exec_emitPhi_bad_phase (hp : f64IsFinite s.opp = false) :
    exec .emitPhi s = .next { s with err := { code := 7#8, value := 3#32, min := 0#32, max := 0#32 } } := by
  rw [exec_emitPhi_of_ready hready, checkFreq_none_iff.2 hf, checkDur_none_iff.2 hd, checkPhase_of_not_finite hp,
    checked_cons_none, checked_cons_none, checked_cons_some]
  rfl

/-- With operands that pass, both emit their one tone; its start phase does not matter to the count. -/
theorem exec_oneTone_pending {i : Instr} (hi : i = .emit ∨ (i = .emitPhi ∧ f64IsFinite s.opp = true)) :
    ∃ phi, exec i s = .next (emitPending s [⟨s.opf, s.opd, phi⟩]) := by
  rcases hi with rfl | ⟨rfl, hp⟩
  · refine ⟨none, ?_⟩
    rw [exec_emit_of_ready hready, checkFreq_none_iff.2 hf, checkDur_none_iff.2 hd, checked_cons_none,
      checked_cons_none]
    rfl
  · refine ⟨some s.opp, ?_⟩
    rw [exec_emitPhi_of_ready hready, checkFreq_none_iff.2 hf, checkDur_none_iff.2 hd, checkPhase_none_iff.2 hp,
      checked_cons_none, checked_cons_none, checked_cons_none]
    rfl

theorem exec_oneTone_overflow
    (hcap : 134217728 < s.buf.length + (toneCount (f64OfNat s.sampleRate.toNat) s.opd s.syn.carry).1)
    {i : Instr} (hi : i = .emit ∨ (i = .emitPhi ∧ f64IsFinite s.opp = true)) :
    exec i s = .next (overflowed s
      (s.buf.length + (toneCount (f64OfNat s.sampleRate.toNat) s.opd s.syn.carry).1)) := by
  obtain ⟨phi, hexec⟩ := exec_oneTone_pending hready hf hd hi
  have hcount : (emitTones (rateF s) s.syn [⟨s.opf, s.opd, phi⟩]).2.length =
      (toneCount (f64OfNat s.sampleRate.toNat) s.opd s.syn.carry).1 := by
    rw [emitTones_singleton, emitTone_length, rateF]
  rw [← hcount] at hcap ⊢
  rw [hexec, emitPending_of_overflow hcap]

end Operands

/-- VIS, END_TONES and SCAN of the fitted mode emit their tones, whatever the operand registers hold. -/
theorem exec_toneList_pending {s : State} (hready : readyToEmit s) {i : Instr} {ts : List Tone}
    (h : (∃ md, i = .vis (Config.modeNumber md) ∧ ts = tonesOf (visTable md)) ∨
      (i = .endTones ∧ ts = tonesOf endTable) ∨
      (s.fitValid = true ∧ i = .scan (Config.modeNumber s.fitMode) ∧ ts = scanTones s s.fitMode)) :
    exec i s = .next (emitPending s ts) := by
  rcases h with ⟨md, rfl, rfl⟩ | ⟨rfl, rfl⟩ | ⟨hvalid, rfl, rfl⟩
  · exact exec_vis_of_ready md hready
  · exact exec_endTones_of_ready hready
  · exact exec_scan_of_ready hready hvalid rfl

/-- Settles O21: the operands are checked in order, and the capacity last; an infinite length counts as log 6 says. -/
theorem operandsAndCapacityRejected : Obligations.OperandsAndCapacityRejected := by
  refine fun s hready => ⟨fun hf i hi => exec_oneTone_bad_freq hready hf hi,
    fun hf hd i hi => exec_oneTone_bad_dur hready hf hd hi,
    fun hf hd hlt hp => exec_emitPhi_bad_phase hready hf (f64Nonneg_of_not_lt hd hlt) hp,
    fun hf hd hlt hcap i hi => exec_oneTone_overflow hready hf (f64Nonneg_of_not_lt hd hlt) hcap hi,
    fun i ts hi hcap => ?_⟩
  rw [exec_toneList_pending hready hi, emitPending_of_overflow hcap]
  rfl

end Sys2Proof.Machine
